-- ==== Sys2Proof/Word.lean ====
section
/-! DEFINITION. The word types of EC-CORE (30_encoding.md R100 to R104, 10_state.md R30 to R41). -/

namespace Sys2Proof

/-- A command word (R100). -/
abbrev Word := BitVec 32

/-- One byte of DMEM (20_memory.md R70). -/
abbrev Byte := BitVec 8

/-- The container of one limb (10_state.md R31). -/
abbrev Limb := BitVec 64

/-- The 16-bit immediate of layout I (30_encoding.md R102, R104), also the width of pc and of a loop counter. -/
abbrev Imm := BitVec 16

/-- The index of an entry of a register file (10_state.md R30: 16 entries, indexed 0 to 15). -/
abbrev Reg := Fin 16

end Sys2Proof
end

