-- ==== Sys2Proof/Config.lean ====
section
/-! DEFINITION. What a build fixes (00_scope.md R2, R9), and the free values the spec leaves open. -/

namespace Sys2Proof

namespace Config

/-- The base-field prime p = 2^224 - 2^32 - 6803 (00_scope.md R2), in R2's hexadecimal form. -/
abbrev p : Nat := 0xFFFFFFFF_FFFFFFFF_FFFFFFFF_FFFFFFFF_FFFFFFFF_FFFFFFFE_FFFFE56D

/-- RADIX: bits a limb position (R9). -/
abbrev radix : Nat := 52
/-- TOP_BITS: bits of limb 4 when normalized (R9). -/
abbrev topBits : Nat := 16
/-- FE_BYTES (R9). -/
abbrev feBytes : Nat := 28
/-- SC_BYTES (R9). -/
abbrev scBytes : Nat := 32
/-- WIDE_BYTES (R9). -/
abbrev wideBytes : Nat := 64
/-- MAG_MAX: the largest magnitude a field register may carry (R9). -/
abbrev magMax : Nat := 32
/-- MUL_MAG_MAX: the largest input magnitude of a multiplier-class command (R9). -/
abbrev mulMagMax : Nat := 8
/-- The read-only register ID (10_state.md R56). -/
abbrev id : BitVec 32 := 0xEC220100

/-- FREE VALUE (log 3). The byte of DMEM address `a` in the power-on draw named `k`, for an address nothing has
written: 10_state.md R63, "a draw (any value)", fixed for the run (70_reset_and_hazards.md R392). -/
opaque powerOnByte : Nat → Nat → Byte

/-- FREE VALUE (log 3). The word of IMEM index `i` in the power-on draw named `k` (10_state.md R63, R392). -/
opaque powerOnWord : Nat → Nat → Word

/-- FREE VALUE (log 5). Which of the pcs the run has reached the `k`-th read of PCR while BUSY = 1 returns
(10_state.md R53, "a draw among the pcs the run has reached"). -/
opaque pcrDraw : Nat → Nat

end Config

/-- A residue mod p as an integer in [0, p): the coordinates of points (10_state.md R37, R39, 43_point.md R270). Its `+`,
`-`, `*` are those of GF(p). -/
abbrev Fp := Fin Config.p

/-- The parameters a model takes (00_scope.md R9, 20_memory.md R82), fixed for a build: no command and no host access
writes them (00_scope.md R22). They stand in State so that a statement about every state is one about every build (log 1). -/
structure Build where
  /-- IMEM_WORDS is 2 to this power: a power of two from 1 to 65536. -/
  imemLog2 : Fin 17
  /-- DMEM_BYTES is 2 to this power: a power of two, at least 64 (`Build.wf`) and at most 65536. -/
  dmemLog2 : Fin 17
  /-- CHECKED (00_scope.md R5). -/
  checked : Bool
  /-- B, the curve coefficient (00_scope.md R3). -/
  b : Fp
  /-- N, the curve order. -/
  n : Nat
  /-- GX, the x coordinate of the generator. -/
  gx : Fp
  /-- GY, the y coordinate of the generator. -/
  gy : Fp
  /-- HOST_BASE, the address of the host window on the host bus (20_memory.md R82; no rule fixes a value). -/
  hostBase : Nat
deriving DecidableEq, Repr

namespace Build

/-- IMEM_WORDS (R9). -/
def imemWords (b : Build) : Nat := 2 ^ b.imemLog2.val

/-- DMEM_BYTES (R9). -/
def dmemBytes (b : Build) : Nat := 2 ^ b.dmemLog2.val

/-- The conditions of R9 and R10 on a build that a computation can decide: 64 ≤ DMEM_BYTES, 2^224 < N < 2^256, and
G on the curve. (0 ≤ GX, GY < p and the powers of two hold by the types. That N is prime and N·G is the identity:
`validCurve` in Safety.lean.) -/
abbrev wf (b : Build) : Prop :=
  6 ≤ b.dmemLog2.val ∧ 2 ^ 224 < b.n ∧ b.n < 2 ^ 256 ∧ b.gy * b.gy = b.gx * b.gx * b.gx + b.b

/-- The default build of R9: 1024 words, 4096 bytes, the curve R9 gives. CHECKED and HOST_BASE have no default in
the spec: 1 and 0 here (DESIGN CHOICE, log 1). -/
def default : Build where
  imemLog2 := 10
  dmemLog2 := 12
  checked := true
  b := 5
  n := 0x1_00000000_00000000_00000000_0001DCE8_D2EC6184_CAF0A971_769FB1F7
  gx := 0xA1455B33_4DF099DF_30FC28A1_69A467E9_E47075A9_0F7E650E_B6B7A45C
  gy := 0x7E089FED_7FBA3442_82CAFBD6_F7E319F7_C0B0BD59_E2CA4BDB_556D61A5
  hostBase := 0

end Build

end Sys2Proof
end

