-- ==== Sys2Proof/Syntax.lean ====
section
/-! DEFINITION. The commands of EC-CORE, one constructor a row of the opcode table (30_encoding.md R108), operands in the
slot order d, a, b, c, then the immediate (R113). -/

namespace Sys2Proof

/-- A command with its operands. `d`, `a`, `b`, `c` are the register slots of R101 and R102; which file a slot names is
fixed by the command (R103, R108). Immediates are the 16-bit unsigned field (R104). -/
inductive Instr where
  /-- NOP (40_control.md R131). -/
  | nop
  /-- HALT (40_control.md R132). -/
  | halt
  /-- JMP (40_control.md R133). -/
  | jmp (target : Imm)
  /-- LDLC (40_control.md R134); d: L. -/
  | ldlc (d : Reg) (count : Imm)
  /-- LOOP (40_control.md R135); d: L. -/
  | loop (d : Reg) (target : Imm)
  /-- CLDI (40_control.md R136); d: C. -/
  | cldi (d : Reg) (bit : Imm)
  /-- CNOT (40_control.md R137); d: C, a: C. -/
  | cnot (d : Reg) (a : Reg)
  /-- CAND (40_control.md R138); d: C, a: C, b: C. -/
  | cand (d : Reg) (a : Reg) (b : Reg)
  /-- COR (40_control.md R139); d: C, a: C, b: C. -/
  | cor (d : Reg) (a : Reg) (b : Reg)
  /-- CXOR (40_control.md R140); d: C, a: C, b: C. -/
  | cxor (d : Reg) (a : Reg) (b : Reg)
  /-- FLDB (41_field.md R170); d: F, a: C. -/
  | fldb (d : Reg) (a : Reg) (addr : Imm)
  /-- FLDBU (41_field.md R171); d: F. -/
  | fldbu (d : Reg) (addr : Imm)
  /-- FSTB (41_field.md R172); a: F. -/
  | fstb (a : Reg) (addr : Imm)
  /-- FLDI (41_field.md R173); d: F. -/
  | fldi (d : Reg) (literal : Imm)
  /-- FMOV (41_field.md R174); d: F, a: F. -/
  | fmov (d : Reg) (a : Reg)
  /-- FADD (41_field.md R175); d: F, a: F, b: F. -/
  | fadd (d : Reg) (a : Reg) (b : Reg)
  /-- FMULS (41_field.md R176); d: F, a: F. -/
  | fmuls (d : Reg) (a : Reg) (k : Imm)
  /-- FNEG (41_field.md R177); d: F, a: F. -/
  | fneg (d : Reg) (a : Reg) (m : Imm)
  /-- FMUL (41_field.md R178); d: F, a: F, b: F. -/
  | fmul (d : Reg) (a : Reg) (b : Reg)
  /-- FSQR (41_field.md R179); d: F, a: F. -/
  | fsqr (d : Reg) (a : Reg)
  /-- FNORM (41_field.md R180); d: F, a: F. -/
  | fnorm (d : Reg) (a : Reg)
  /-- FNORMW (41_field.md R181); d: F, a: F. -/
  | fnormw (d : Reg) (a : Reg)
  /-- FSEL (41_field.md R182); d: F, a: F, b: F, c: C. -/
  | fsel (d : Reg) (a : Reg) (b : Reg) (c : Reg)
  /-- FEQ (41_field.md R183); d: C, a: F, b: F. -/
  | feq (d : Reg) (a : Reg) (b : Reg)
  /-- FISZ (41_field.md R184); d: C, a: F. -/
  | fisz (d : Reg) (a : Reg)
  /-- FISODD (41_field.md R185); d: C, a: F. -/
  | fisodd (d : Reg) (a : Reg)
  /-- FINV (41_field.md R186); d: F, a: F. -/
  | finv (d : Reg) (a : Reg)
  /-- FSQRT (41_field.md R187); d: F, a: F, c: C. -/
  | fsqrt (d : Reg) (a : Reg) (c : Reg)
  /-- SLDB (42_scalar.md R240); d: S, a: C. -/
  | sldb (d : Reg) (a : Reg) (addr : Imm)
  /-- SSTB (42_scalar.md R241); a: S. -/
  | sstb (a : Reg) (addr : Imm)
  /-- SLDI (42_scalar.md R242); d: S. -/
  | sldi (d : Reg) (literal : Imm)
  /-- SMOV (42_scalar.md R243); d: S, a: S. -/
  | smov (d : Reg) (a : Reg)
  /-- SADD (42_scalar.md R244); d: S, a: S, b: S. -/
  | sadd (d : Reg) (a : Reg) (b : Reg)
  /-- SMULW (42_scalar.md R245); d: W, a: S, b: S. -/
  | smulw (d : Reg) (a : Reg) (b : Reg)
  /-- SRED (42_scalar.md R246); d: S, a: W. -/
  | sred (d : Reg) (a : Reg)
  /-- WLDB (42_scalar.md R247); d: W. -/
  | wldb (d : Reg) (addr : Imm)
  /-- SEQ (42_scalar.md R249); d: C, a: S, b: S. -/
  | seq (d : Reg) (a : Reg) (b : Reg)
  /-- SLT (42_scalar.md R250); d: C, a: S, b: S. -/
  | slt (d : Reg) (a : Reg) (b : Reg)
  /-- SSEL (42_scalar.md R251); d: S, a: S, b: S, c: C. -/
  | ssel (d : Reg) (a : Reg) (b : Reg) (c : Reg)
  /-- WSTB (42_scalar.md R248); a: W. -/
  | wstb (a : Reg) (addr : Imm)
  /-- AMK (43_point.md R280); d: A, a: F, b: F. -/
  | amk (d : Reg) (a : Reg) (b : Reg)
  /-- AID (43_point.md R281); d: A. -/
  | aid (d : Reg)
  /-- AGEN (43_point.md R282); d: A. -/
  | agen (d : Reg)
  /-- AGETX (43_point.md R283); d: F, a: A. -/
  | agetx (d : Reg) (a : Reg)
  /-- AGETY (43_point.md R284); d: F, a: A. -/
  | agety (d : Reg) (a : Reg)
  /-- AISID (43_point.md R285); d: C, a: A. -/
  | aisid (d : Reg) (a : Reg)
  /-- AEQ (43_point.md R286); d: C, a: A, b: A. -/
  | aeq (d : Reg) (a : Reg) (b : Reg)
  /-- ASEL (43_point.md R287); d: A, a: A, b: A, c: C. -/
  | asel (d : Reg) (a : Reg) (b : Reg) (c : Reg)
  /-- AONC (43_point.md R288); d: C, a: A. -/
  | aonc (d : Reg) (a : Reg)
  /-- AMOV (43_point.md R289); d: A, a: A. -/
  | amov (d : Reg) (a : Reg)
  /-- PA2P (43_point.md R290); d: P, a: A. -/
  | pa2p (d : Reg) (a : Reg)
  /-- PTOA (43_point.md R291); d: A, a: P. -/
  | ptoa (d : Reg) (a : Reg)
  /-- PID (43_point.md R292); d: P. -/
  | pid (d : Reg)
  /-- PGEN (43_point.md R293); d: P. -/
  | pgen (d : Reg)
  /-- PISID (43_point.md R294); d: C, a: P. -/
  | pisid (d : Reg) (a : Reg)
  /-- PSEL (43_point.md R295); d: P, a: P, b: P, c: C. -/
  | psel (d : Reg) (a : Reg) (b : Reg) (c : Reg)
  /-- PMOV (43_point.md R296); d: P, a: P. -/
  | pmov (d : Reg) (a : Reg)
  /-- PDBL (43_point.md R297); d: P, a: P. -/
  | pdbl (d : Reg) (a : Reg)
  /-- PADD (43_point.md R298); d: P, a: P, b: P. -/
  | padd (d : Reg) (a : Reg) (b : Reg)
  /-- PMADD (43_point.md R299); d: P, a: P, b: A. -/
  | pmadd (d : Reg) (a : Reg) (b : Reg)
  /-- PSMUL (43_point.md R300); d: P, a: P, b: S. -/
  | psmul (d : Reg) (a : Reg) (b : Reg)
deriving DecidableEq, Repr

/-- The commands without their operands: what the 7-bit opcode selects (30_encoding.md R100). -/
inductive Op where
  | nop | halt | jmp | ldlc | loop | cldi | cnot | cand | cor | cxor | fldb | fldbu
  | fstb | fldi | fmov | fadd | fmuls | fneg | fmul | fsqr | fnorm | fnormw | fsel | feq
  | fisz | fisodd | finv | fsqrt | sldb | sstb | sldi | smov | sadd | smulw | sred | wldb
  | seq | slt | ssel | wstb | amk | aid | agen | agetx | agety | aisid | aeq | asel
  | aonc | amov | pa2p | ptoa | pid | pgen | pisid | psel | pmov | pdbl | padd | pmadd
  | psmul
deriving DecidableEq, Repr

/-- The seven register files (10_state.md R30). -/
inductive File where
  | F | S | W | A | P | C | L
deriving DecidableEq, Repr

/-- The two layouts of a command word (30_encoding.md R101, R102). -/
inductive Layout where
  | R | I
deriving DecidableEq, Repr

/-- The uses of imm16 (30_encoding.md R104). -/
inductive ImmUse where
  | none | addr | target | count | literal | k | m | bit
deriving DecidableEq, Repr

/-- A row of the opcode table (30_encoding.md R108): the layout, the register file each used slot names, and the use of
imm16. A slot that is `none` must be zero (R103). -/
structure Sig where
  layout : Layout
  d : Option File
  a : Option File
  b : Option File
  c : Option File
  imm : ImmUse
deriving DecidableEq, Repr

/-- The fields of a word after decoding (30_encoding.md R106); those the layout does not have are 0. -/
structure Fields where
  d : Reg
  a : Reg
  b : Reg
  c : Reg
  imm : Imm
deriving DecidableEq, Repr

/-- Why a word is illegal (30_encoding.md R106, R110). All three are E_ILLEGAL. -/
inductive DecodeError where
  /-- the opcode is reserved (R110) -/
  | reservedOpcode
  /-- a must-be-zero slot or bit is not zero (R101, R102, R103) -/
  | nonzeroUnused
  /-- imm16 is outside the range of its use (R105) -/
  | immOutOfRange
deriving DecidableEq, Repr

end Sys2Proof
end

