-- ==== Sys2Proof/WellFormed.lean ====
section
/-! DEFINITION. Which terms of Instr have a word: the immediate ranges of 30_encoding.md R104 and R105. Register indices are
in range by their type. -/

namespace Sys2Proof

/-- The static conditions on a command: FMULS k ≤ 32, FNEG m ≤ 31, CLDI bit ≤ 1 (R104, R105). Every other immediate may
take each of its 65536 values. -/
def Instr.wf : Instr → Bool
  | .nop => true
  | .halt => true
  | .jmp _ => true
  | .ldlc _ _ => true
  | .loop _ _ => true
  | .cldi _ bit => decide (bit.toNat ≤ 1)
  | .cnot _ _ => true
  | .cand _ _ _ => true
  | .cor _ _ _ => true
  | .cxor _ _ _ => true
  | .fldb _ _ _ => true
  | .fldbu _ _ => true
  | .fstb _ _ => true
  | .fldi _ _ => true
  | .fmov _ _ => true
  | .fadd _ _ _ => true
  | .fmuls _ _ k => decide (k.toNat ≤ 32)
  | .fneg _ _ m => decide (m.toNat ≤ 31)
  | .fmul _ _ _ => true
  | .fsqr _ _ => true
  | .fnorm _ _ => true
  | .fnormw _ _ => true
  | .fsel _ _ _ _ => true
  | .feq _ _ _ => true
  | .fisz _ _ => true
  | .fisodd _ _ => true
  | .finv _ _ => true
  | .fsqrt _ _ _ => true
  | .sldb _ _ _ => true
  | .sstb _ _ => true
  | .sldi _ _ => true
  | .smov _ _ => true
  | .sadd _ _ _ => true
  | .smulw _ _ _ => true
  | .sred _ _ => true
  | .wldb _ _ => true
  | .seq _ _ _ => true
  | .slt _ _ _ => true
  | .ssel _ _ _ _ => true
  | .wstb _ _ => true
  | .amk _ _ _ => true
  | .aid _ => true
  | .agen _ => true
  | .agetx _ _ => true
  | .agety _ _ => true
  | .aisid _ _ => true
  | .aeq _ _ _ => true
  | .asel _ _ _ _ => true
  | .aonc _ _ => true
  | .amov _ _ => true
  | .pa2p _ _ => true
  | .ptoa _ _ => true
  | .pid _ => true
  | .pgen _ => true
  | .pisid _ _ => true
  | .psel _ _ _ _ => true
  | .pmov _ _ => true
  | .pdbl _ _ => true
  | .padd _ _ _ => true
  | .pmadd _ _ _ => true
  | .psmul _ _ _ => true

end Sys2Proof
end

