-- ==== Sys2Proof/Decode.lean ====
section
/-! DEFINITION. The decoder of 30_encoding.md R106, total on every 32-bit word, and the encoder of R115, both over the one
opcode table of R108. -/

namespace Sys2Proof

namespace Op

/-- The opcode, bits 31:25 (R108). -/
def code : Op → BitVec 7
  | .nop => 0x01
  | .halt => 0x02
  | .jmp => 0x03
  | .ldlc => 0x04
  | .loop => 0x05
  | .cldi => 0x08
  | .cnot => 0x09
  | .cand => 0x0A
  | .cor => 0x0B
  | .cxor => 0x0C
  | .fldb => 0x10
  | .fldbu => 0x11
  | .fstb => 0x12
  | .fldi => 0x13
  | .fmov => 0x14
  | .fadd => 0x15
  | .fmuls => 0x16
  | .fneg => 0x17
  | .fmul => 0x18
  | .fsqr => 0x19
  | .fnorm => 0x1A
  | .fnormw => 0x1B
  | .fsel => 0x1C
  | .feq => 0x1D
  | .fisz => 0x1E
  | .fisodd => 0x1F
  | .finv => 0x20
  | .fsqrt => 0x21
  | .sldb => 0x30
  | .sstb => 0x31
  | .sldi => 0x32
  | .smov => 0x33
  | .sadd => 0x34
  | .smulw => 0x35
  | .sred => 0x36
  | .wldb => 0x37
  | .seq => 0x38
  | .slt => 0x39
  | .ssel => 0x3A
  | .wstb => 0x3B
  | .amk => 0x40
  | .aid => 0x41
  | .agen => 0x42
  | .agetx => 0x43
  | .agety => 0x44
  | .aisid => 0x45
  | .aeq => 0x46
  | .asel => 0x47
  | .aonc => 0x48
  | .amov => 0x49
  | .pa2p => 0x50
  | .ptoa => 0x51
  | .pid => 0x52
  | .pgen => 0x53
  | .pisid => 0x54
  | .psel => 0x55
  | .pmov => 0x56
  | .pdbl => 0x57
  | .padd => 0x58
  | .pmadd => 0x59
  | .psmul => 0x5A

/-- R109: the sequencer and choice commands. -/
def control : List Op :=
  [.nop, .halt, .jmp, .ldlc, .loop, .cldi, .cnot, .cand, .cor, .cxor]

/-- R109: the field engine. -/
def field : List Op :=
  [.fldb, .fldbu, .fstb, .fldi, .fmov, .fadd, .fmuls, .fneg, .fmul, .fsqr, .fnorm, .fnormw,
   .fsel, .feq, .fisz, .fisodd, .finv, .fsqrt]

/-- R109: the scalar engine. -/
def scalar : List Op :=
  [.sldb, .sstb, .sldi, .smov, .sadd, .smulw, .sred, .wldb, .seq, .slt, .ssel, .wstb]

/-- R109: the affine point unit. -/
def affine : List Op :=
  [.amk, .aid, .agen, .agetx, .agety, .aisid, .aeq, .asel, .aonc, .amov]

/-- R109: the projective point unit. -/
def projective : List Op :=
  [.pa2p, .ptoa, .pid, .pgen, .pisid, .psel, .pmov, .pdbl, .padd, .pmadd, .psmul]

/-- Every command of the table, in its order (R108). -/
def all : List Op := control ++ field ++ scalar ++ affine ++ projective

/-- The command of an opcode; none for a reserved opcode (R109, R110). -/
def ofCode (c : BitVec 7) : Option Op := all.find? (fun op => op.code == c)

/-- The layout, slots and immediate of each command (R108). -/
def sig : Op → Sig
  | .nop => ⟨.R, .none, .none, .none, .none, .none⟩
  | .halt => ⟨.R, .none, .none, .none, .none, .none⟩
  | .jmp => ⟨.I, .none, .none, .none, .none, .target⟩
  | .ldlc => ⟨.I, .some .L, .none, .none, .none, .count⟩
  | .loop => ⟨.I, .some .L, .none, .none, .none, .target⟩
  | .cldi => ⟨.I, .some .C, .none, .none, .none, .bit⟩
  | .cnot => ⟨.R, .some .C, .some .C, .none, .none, .none⟩
  | .cand => ⟨.R, .some .C, .some .C, .some .C, .none, .none⟩
  | .cor => ⟨.R, .some .C, .some .C, .some .C, .none, .none⟩
  | .cxor => ⟨.R, .some .C, .some .C, .some .C, .none, .none⟩
  | .fldb => ⟨.I, .some .F, .some .C, .none, .none, .addr⟩
  | .fldbu => ⟨.I, .some .F, .none, .none, .none, .addr⟩
  | .fstb => ⟨.I, .none, .some .F, .none, .none, .addr⟩
  | .fldi => ⟨.I, .some .F, .none, .none, .none, .literal⟩
  | .fmov => ⟨.R, .some .F, .some .F, .none, .none, .none⟩
  | .fadd => ⟨.R, .some .F, .some .F, .some .F, .none, .none⟩
  | .fmuls => ⟨.I, .some .F, .some .F, .none, .none, .k⟩
  | .fneg => ⟨.I, .some .F, .some .F, .none, .none, .m⟩
  | .fmul => ⟨.R, .some .F, .some .F, .some .F, .none, .none⟩
  | .fsqr => ⟨.R, .some .F, .some .F, .none, .none, .none⟩
  | .fnorm => ⟨.R, .some .F, .some .F, .none, .none, .none⟩
  | .fnormw => ⟨.R, .some .F, .some .F, .none, .none, .none⟩
  | .fsel => ⟨.R, .some .F, .some .F, .some .F, .some .C, .none⟩
  | .feq => ⟨.R, .some .C, .some .F, .some .F, .none, .none⟩
  | .fisz => ⟨.R, .some .C, .some .F, .none, .none, .none⟩
  | .fisodd => ⟨.R, .some .C, .some .F, .none, .none, .none⟩
  | .finv => ⟨.R, .some .F, .some .F, .none, .none, .none⟩
  | .fsqrt => ⟨.R, .some .F, .some .F, .none, .some .C, .none⟩
  | .sldb => ⟨.I, .some .S, .some .C, .none, .none, .addr⟩
  | .sstb => ⟨.I, .none, .some .S, .none, .none, .addr⟩
  | .sldi => ⟨.I, .some .S, .none, .none, .none, .literal⟩
  | .smov => ⟨.R, .some .S, .some .S, .none, .none, .none⟩
  | .sadd => ⟨.R, .some .S, .some .S, .some .S, .none, .none⟩
  | .smulw => ⟨.R, .some .W, .some .S, .some .S, .none, .none⟩
  | .sred => ⟨.R, .some .S, .some .W, .none, .none, .none⟩
  | .wldb => ⟨.I, .some .W, .none, .none, .none, .addr⟩
  | .seq => ⟨.R, .some .C, .some .S, .some .S, .none, .none⟩
  | .slt => ⟨.R, .some .C, .some .S, .some .S, .none, .none⟩
  | .ssel => ⟨.R, .some .S, .some .S, .some .S, .some .C, .none⟩
  | .wstb => ⟨.I, .none, .some .W, .none, .none, .addr⟩
  | .amk => ⟨.R, .some .A, .some .F, .some .F, .none, .none⟩
  | .aid => ⟨.R, .some .A, .none, .none, .none, .none⟩
  | .agen => ⟨.R, .some .A, .none, .none, .none, .none⟩
  | .agetx => ⟨.R, .some .F, .some .A, .none, .none, .none⟩
  | .agety => ⟨.R, .some .F, .some .A, .none, .none, .none⟩
  | .aisid => ⟨.R, .some .C, .some .A, .none, .none, .none⟩
  | .aeq => ⟨.R, .some .C, .some .A, .some .A, .none, .none⟩
  | .asel => ⟨.R, .some .A, .some .A, .some .A, .some .C, .none⟩
  | .aonc => ⟨.R, .some .C, .some .A, .none, .none, .none⟩
  | .amov => ⟨.R, .some .A, .some .A, .none, .none, .none⟩
  | .pa2p => ⟨.R, .some .P, .some .A, .none, .none, .none⟩
  | .ptoa => ⟨.R, .some .A, .some .P, .none, .none, .none⟩
  | .pid => ⟨.R, .some .P, .none, .none, .none, .none⟩
  | .pgen => ⟨.R, .some .P, .none, .none, .none, .none⟩
  | .pisid => ⟨.R, .some .C, .some .P, .none, .none, .none⟩
  | .psel => ⟨.R, .some .P, .some .P, .some .P, .some .C, .none⟩
  | .pmov => ⟨.R, .some .P, .some .P, .none, .none, .none⟩
  | .pdbl => ⟨.R, .some .P, .some .P, .none, .none, .none⟩
  | .padd => ⟨.R, .some .P, .some .P, .some .P, .none, .none⟩
  | .pmadd => ⟨.R, .some .P, .some .P, .some .A, .none, .none⟩
  | .psmul => ⟨.R, .some .P, .some .P, .some .S, .none, .none⟩

/-- The command with the fields of a word as its operands (R106, R113). -/
def build (f : Fields) : Op → Instr
  | .nop => .nop
  | .halt => .halt
  | .jmp => .jmp f.imm
  | .ldlc => .ldlc f.d f.imm
  | .loop => .loop f.d f.imm
  | .cldi => .cldi f.d f.imm
  | .cnot => .cnot f.d f.a
  | .cand => .cand f.d f.a f.b
  | .cor => .cor f.d f.a f.b
  | .cxor => .cxor f.d f.a f.b
  | .fldb => .fldb f.d f.a f.imm
  | .fldbu => .fldbu f.d f.imm
  | .fstb => .fstb f.a f.imm
  | .fldi => .fldi f.d f.imm
  | .fmov => .fmov f.d f.a
  | .fadd => .fadd f.d f.a f.b
  | .fmuls => .fmuls f.d f.a f.imm
  | .fneg => .fneg f.d f.a f.imm
  | .fmul => .fmul f.d f.a f.b
  | .fsqr => .fsqr f.d f.a
  | .fnorm => .fnorm f.d f.a
  | .fnormw => .fnormw f.d f.a
  | .fsel => .fsel f.d f.a f.b f.c
  | .feq => .feq f.d f.a f.b
  | .fisz => .fisz f.d f.a
  | .fisodd => .fisodd f.d f.a
  | .finv => .finv f.d f.a
  | .fsqrt => .fsqrt f.d f.a f.c
  | .sldb => .sldb f.d f.a f.imm
  | .sstb => .sstb f.a f.imm
  | .sldi => .sldi f.d f.imm
  | .smov => .smov f.d f.a
  | .sadd => .sadd f.d f.a f.b
  | .smulw => .smulw f.d f.a f.b
  | .sred => .sred f.d f.a
  | .wldb => .wldb f.d f.imm
  | .seq => .seq f.d f.a f.b
  | .slt => .slt f.d f.a f.b
  | .ssel => .ssel f.d f.a f.b f.c
  | .wstb => .wstb f.a f.imm
  | .amk => .amk f.d f.a f.b
  | .aid => .aid f.d
  | .agen => .agen f.d
  | .agetx => .agetx f.d f.a
  | .agety => .agety f.d f.a
  | .aisid => .aisid f.d f.a
  | .aeq => .aeq f.d f.a f.b
  | .asel => .asel f.d f.a f.b f.c
  | .aonc => .aonc f.d f.a
  | .amov => .amov f.d f.a
  | .pa2p => .pa2p f.d f.a
  | .ptoa => .ptoa f.d f.a
  | .pid => .pid f.d
  | .pgen => .pgen f.d
  | .pisid => .pisid f.d f.a
  | .psel => .psel f.d f.a f.b f.c
  | .pmov => .pmov f.d f.a
  | .pdbl => .pdbl f.d f.a
  | .padd => .padd f.d f.a f.b
  | .pmadd => .pmadd f.d f.a f.b
  | .psmul => .psmul f.d f.a f.b

end Op

/-- The command of an Instr without its operands. -/
def Instr.op : Instr → Op
  | .nop => .nop
  | .halt => .halt
  | .jmp _ => .jmp
  | .ldlc _ _ => .ldlc
  | .loop _ _ => .loop
  | .cldi _ _ => .cldi
  | .cnot _ _ => .cnot
  | .cand _ _ _ => .cand
  | .cor _ _ _ => .cor
  | .cxor _ _ _ => .cxor
  | .fldb _ _ _ => .fldb
  | .fldbu _ _ => .fldbu
  | .fstb _ _ => .fstb
  | .fldi _ _ => .fldi
  | .fmov _ _ => .fmov
  | .fadd _ _ _ => .fadd
  | .fmuls _ _ _ => .fmuls
  | .fneg _ _ _ => .fneg
  | .fmul _ _ _ => .fmul
  | .fsqr _ _ => .fsqr
  | .fnorm _ _ => .fnorm
  | .fnormw _ _ => .fnormw
  | .fsel _ _ _ _ => .fsel
  | .feq _ _ _ => .feq
  | .fisz _ _ => .fisz
  | .fisodd _ _ => .fisodd
  | .finv _ _ => .finv
  | .fsqrt _ _ _ => .fsqrt
  | .sldb _ _ _ => .sldb
  | .sstb _ _ => .sstb
  | .sldi _ _ => .sldi
  | .smov _ _ => .smov
  | .sadd _ _ _ => .sadd
  | .smulw _ _ _ => .smulw
  | .sred _ _ => .sred
  | .wldb _ _ => .wldb
  | .seq _ _ _ => .seq
  | .slt _ _ _ => .slt
  | .ssel _ _ _ _ => .ssel
  | .wstb _ _ => .wstb
  | .amk _ _ _ => .amk
  | .aid _ => .aid
  | .agen _ => .agen
  | .agetx _ _ => .agetx
  | .agety _ _ => .agety
  | .aisid _ _ => .aisid
  | .aeq _ _ _ => .aeq
  | .asel _ _ _ _ => .asel
  | .aonc _ _ => .aonc
  | .amov _ _ => .amov
  | .pa2p _ _ => .pa2p
  | .ptoa _ _ => .ptoa
  | .pid _ => .pid
  | .pgen _ => .pgen
  | .pisid _ _ => .pisid
  | .psel _ _ _ _ => .psel
  | .pmov _ _ => .pmov
  | .pdbl _ _ => .pdbl
  | .padd _ _ _ => .padd
  | .pmadd _ _ _ => .pmadd
  | .psmul _ _ _ => .psmul

/-- The fields of the word of an Instr: its operands in their slots, zero elsewhere (R115). -/
def Instr.fields : Instr → Fields
  | .nop => ⟨0, 0, 0, 0, 0⟩
  | .halt => ⟨0, 0, 0, 0, 0⟩
  | .jmp target => ⟨0, 0, 0, 0, target⟩
  | .ldlc d count => ⟨d, 0, 0, 0, count⟩
  | .loop d target => ⟨d, 0, 0, 0, target⟩
  | .cldi d bit => ⟨d, 0, 0, 0, bit⟩
  | .cnot d a => ⟨d, a, 0, 0, 0⟩
  | .cand d a b => ⟨d, a, b, 0, 0⟩
  | .cor d a b => ⟨d, a, b, 0, 0⟩
  | .cxor d a b => ⟨d, a, b, 0, 0⟩
  | .fldb d a addr => ⟨d, a, 0, 0, addr⟩
  | .fldbu d addr => ⟨d, 0, 0, 0, addr⟩
  | .fstb a addr => ⟨0, a, 0, 0, addr⟩
  | .fldi d literal => ⟨d, 0, 0, 0, literal⟩
  | .fmov d a => ⟨d, a, 0, 0, 0⟩
  | .fadd d a b => ⟨d, a, b, 0, 0⟩
  | .fmuls d a k => ⟨d, a, 0, 0, k⟩
  | .fneg d a m => ⟨d, a, 0, 0, m⟩
  | .fmul d a b => ⟨d, a, b, 0, 0⟩
  | .fsqr d a => ⟨d, a, 0, 0, 0⟩
  | .fnorm d a => ⟨d, a, 0, 0, 0⟩
  | .fnormw d a => ⟨d, a, 0, 0, 0⟩
  | .fsel d a b c => ⟨d, a, b, c, 0⟩
  | .feq d a b => ⟨d, a, b, 0, 0⟩
  | .fisz d a => ⟨d, a, 0, 0, 0⟩
  | .fisodd d a => ⟨d, a, 0, 0, 0⟩
  | .finv d a => ⟨d, a, 0, 0, 0⟩
  | .fsqrt d a c => ⟨d, a, 0, c, 0⟩
  | .sldb d a addr => ⟨d, a, 0, 0, addr⟩
  | .sstb a addr => ⟨0, a, 0, 0, addr⟩
  | .sldi d literal => ⟨d, 0, 0, 0, literal⟩
  | .smov d a => ⟨d, a, 0, 0, 0⟩
  | .sadd d a b => ⟨d, a, b, 0, 0⟩
  | .smulw d a b => ⟨d, a, b, 0, 0⟩
  | .sred d a => ⟨d, a, 0, 0, 0⟩
  | .wldb d addr => ⟨d, 0, 0, 0, addr⟩
  | .seq d a b => ⟨d, a, b, 0, 0⟩
  | .slt d a b => ⟨d, a, b, 0, 0⟩
  | .ssel d a b c => ⟨d, a, b, c, 0⟩
  | .wstb a addr => ⟨0, a, 0, 0, addr⟩
  | .amk d a b => ⟨d, a, b, 0, 0⟩
  | .aid d => ⟨d, 0, 0, 0, 0⟩
  | .agen d => ⟨d, 0, 0, 0, 0⟩
  | .agetx d a => ⟨d, a, 0, 0, 0⟩
  | .agety d a => ⟨d, a, 0, 0, 0⟩
  | .aisid d a => ⟨d, a, 0, 0, 0⟩
  | .aeq d a b => ⟨d, a, b, 0, 0⟩
  | .asel d a b c => ⟨d, a, b, c, 0⟩
  | .aonc d a => ⟨d, a, 0, 0, 0⟩
  | .amov d a => ⟨d, a, 0, 0, 0⟩
  | .pa2p d a => ⟨d, a, 0, 0, 0⟩
  | .ptoa d a => ⟨d, a, 0, 0, 0⟩
  | .pid d => ⟨d, 0, 0, 0, 0⟩
  | .pgen d => ⟨d, 0, 0, 0, 0⟩
  | .pisid d a => ⟨d, a, 0, 0, 0⟩
  | .psel d a b c => ⟨d, a, b, c, 0⟩
  | .pmov d a => ⟨d, a, 0, 0, 0⟩
  | .pdbl d a => ⟨d, a, 0, 0, 0⟩
  | .padd d a b => ⟨d, a, b, 0, 0⟩
  | .pmadd d a b => ⟨d, a, b, 0, 0⟩
  | .psmul d a b => ⟨d, a, b, 0, 0⟩

/-- The largest legal imm16 of a use (R104); 0 where the command has no immediate (R106). -/
def ImmUse.top : ImmUse → Nat
  | .none => 0
  | .addr => 0xFFFF
  | .target => 0xFFFF
  | .count => 0xFFFF
  | .literal => 0xFFFF
  | .k => 32
  | .m => 31
  | .bit => 1

/-- A 4-bit slot as a register index. -/
def regOfBits (b : BitVec 4) : Reg := ⟨b.toNat, b.isLt⟩

/-- A register index as a 4-bit slot. -/
def bitsOfReg (r : Reg) : BitVec 4 := BitVec.ofNat 4 r.val

/-- The fields of a word in a layout (R101, R102). -/
def Fields.ofWord (w : Word) : Layout → Fields
  | .R => ⟨regOfBits (w.extractLsb' 21 4), regOfBits (w.extractLsb' 17 4), regOfBits (w.extractLsb' 13 4),
      regOfBits (w.extractLsb' 9 4), 0⟩
  | .I => ⟨regOfBits (w.extractLsb' 21 4), regOfBits (w.extractLsb' 17 4), 0, 0, w.extractLsb' 0 16⟩

/-- The word with an opcode and fields in a layout (R101, R102, R115). -/
def Fields.toWord (code : BitVec 7) (f : Fields) : Layout → Word
  | .R => (((((code ++ bitsOfReg f.d : BitVec 11) ++ bitsOfReg f.a : BitVec 15) ++ bitsOfReg f.b : BitVec 19) ++
      bitsOfReg f.c : BitVec 23) ++ 0#9 : BitVec 32)
  | .I => (((code ++ bitsOfReg f.d : BitVec 11) ++ bitsOfReg f.a : BitVec 15) ++ 0#1 : BitVec 16) ++ f.imm

/-- The must-be-zero bits of the layout: 8:0 of layout R, 16 of layout I (R101, R102). -/
def Layout.zeroBitsOk (w : Word) : Layout → Bool
  | .R => w.extractLsb' 0 9 == 0
  | .I => w.extractLsb' 16 1 == 0

/-- Every slot the command does not use is 0 (R103, R106). -/
def Sig.slotsOk (g : Sig) (f : Fields) : Bool :=
  (g.d.isSome || f.d == 0) && (g.a.isSome || f.a == 0) && (g.b.isSome || f.b == 0) && (g.c.isSome || f.c == 0)

/-- imm16 is within the range of its use (R104, R105). -/
def Sig.immOk (g : Sig) (f : Fields) : Bool := decide (f.imm.toNat ≤ g.imm.top)

/-- R106: one command with its operands, or the reason the word is illegal. -/
def decode (w : Word) : Except DecodeError Instr :=
  match Op.ofCode (w.extractLsb' 25 7) with
  | none => .error .reservedOpcode
  | some op =>
    let f := Fields.ofWord w op.sig.layout
    if !(op.sig.layout.zeroBitsOk w && op.sig.slotsOk f) then .error .nonzeroUnused
    else if !op.sig.immOk f then .error .immOutOfRange
    else .ok (op.build f)

/-- R115: op in bits 31:25, each register index in its slot, the immediate in bits 15:0, zeros elsewhere. -/
def encode (i : Instr) : Word := i.fields.toWord i.op.code i.op.sig.layout

/-- The host's reading of an opcode-table word: every row has 32 bits, one word (R100). -/
def decodeTableWord (nbits w : Nat) : Option Instr :=
  if nbits ≤ 32 then
    match decode (BitVec.ofNat 32 (w % 2 ^ nbits)) with
    | .ok i => some i
    | .error _ => none
  else none

end Sys2Proof
end

