-- ==== Sys2Proof/Machine/State.lean ====
section
/-! DEFINITION. The state of EC-CORE (10_state.md) as plain data, and its value after power-on reset (R63, R390). -/

namespace Sys2Proof.Machine

/-- The five limbs of a field element, least significant first (10_state.md R31). -/
structure Limbs where
  l0 : Limb
  l1 : Limb
  l2 : Limb
  l3 : Limb
  l4 : Limb
deriving DecidableEq, Repr

/-- The contents of a field register: limbs, magnitude tag, normalized tag (10_state.md R31). The tags are hardware state
in a CHECKED = 1 build and ghost state in the other (R34). That mag ≤ 32 is part of the invariant of Safety.lean. -/
structure FElem where
  limb : Limbs
  mag : Nat
  norm : Bool
deriving DecidableEq, Repr

/-- The contents of an affine point register (10_state.md R37). -/
structure APoint where
  x : Fp
  y : Fp
  inf : Bool
deriving DecidableEq, Repr

/-- The contents of a projective point register (10_state.md R39); X, Y, Z of the spec. -/
structure PPoint where
  x : Fp
  y : Fp
  z : Fp
deriving DecidableEq, Repr

/-- An entry of a register file: its VALID bit and its contents (10_state.md R43). -/
structure Slot (α : Type) where
  valid : Bool
  val : α
deriving DecidableEq, Repr

/-- A register file of 16 entries (10_state.md R30). -/
abbrev RegFile (α : Type) := Vector (Slot α) 16

/-- A memory: the cells that have been written, as (address, contents) pairs. An address that is not listed has not been
written since power-on and has no contents of its own; what a read of it gives is the free value of log 3, supplied where the
block reads (`State.dmemByte`, `State.imemWord`). So no entry equals what an unlisted address reads as, and the canonical form
is `Memory.wf`. DMEM is a `Memory 8`, that is a list of Host.Cell, IMEM a `Memory 32` (20_memory.md R70: its unit is the word). -/
abbrev Memory (w : Nat) := List (Nat × BitVec w)

/-- The canonical form of a memory: addresses strictly rising. -/
abbrev Memory.wf {w : Nat} (m : Memory w) : Prop := (m.map Prod.fst).Pairwise (· < ·)

/-- One turn of the outside world (log 6). -/
inductive HostMove where
  /-- the host reads `bytes` bytes at an address of its bus -/
  | read (addr bytes : Nat)
  /-- the host writes `bytes` bytes at an address of its bus -/
  | write (addr bytes : Nat) (data : BitVec 32)
  /-- no host access: the core takes its turn -/
  | core
  /-- power-on reset, at any time; the draw that fixes the unspecified memory contents has this name (10_state.md R63,
  40_control.md R143, 70_reset_and_hazards.md R390; log 3) -/
  | powerOn (draw : Nat)
deriving DecidableEq, Repr

/-- The model's own fields: who moves next, and the choices the spec leaves open. None is state of the block. -/
structure Env where
  /-- what the outside world does next, first move first; when it is empty the core moves (log 6) -/
  moves : List HostMove
  /-- what the last host read returned (log 7) -/
  busData : BitVec 32
  /-- the pcs the current run has reached, for PCR while BUSY = 1 (10_state.md R53, log 5) -/
  reached : List Imm
  /-- how many free values PCR reads have taken (log 5) -/
  draws : Nat
  /-- for each multiplier-class command to come: whether the implementation writes the other limb vector R162 allows, where
  there is one; when it is empty, the reference vector (41_field.md R162, log 4) -/
  redundant : List Bool
  /-- the name of the draw that fixed IMEM and DMEM at power-on (log 3) -/
  powerOn : Nat
deriving DecidableEq, Repr

/-- The whole state (10_state.md R63). Files are named by the spec's letters (R14). -/
structure State where
  /-- the build's parameters (00_scope.md R9); ID and CONFIG are read from here (10_state.md R56, R57) -/
  build : Build
  F : RegFile FElem
  S : RegFile (BitVec 256)
  W : RegFile (BitVec 512)
  A : RegFile APoint
  P : RegFile PPoint
  C : RegFile Bool
  L : RegFile (BitVec 16)
  /-- the program counter, an IMEM word index (R45) -/
  pc : Imm
  /-- CTRL.IRQ_EN (R50) -/
  irqEn : Bool
  /-- STATUS.BUSY (R51) -/
  busy : Bool
  /-- STATUS.DONE (R51) -/
  done : Bool
  /-- STATUS.FAULT (R51) -/
  fault : Bool
  /-- STATUS.HERR (R51) -/
  herr : Bool
  /-- ENTRY bits 15:0 (R52) -/
  entry : Imm
  /-- CAUSE bits 7:0 (R54) -/
  cause : BitVec 8
  /-- FPC bits 15:0 (R55) -/
  fpc : Imm
  /-- FINSTR (R58) -/
  finstr : Word
  imem : Memory 32
  dmem : Memory 8
  env : Env
deriving DecidableEq, Repr

/-- The exceptions (60_exceptions.md R340). They are taken, as R350 describes; none stops the model. -/
inductive Cause where
  | illegal | fetch | daddr | uninit | mag | norm | curve
deriving DecidableEq, Repr

/-- Reasons for which the machine would stop. There is none: every exception the spec names is taken as a next state (R350),
an idle core keeps its state (R381), and a run that never halts goes on stepping (40_control.md R143). -/
inductive Fault where
deriving DecidableEq, Repr

/-- Why a step has no meaning. -/
inductive Refusal where
  /-- raised by exec for an instruction that has no meaning yet (safe); no instruction of this model is in that case -/
  | notModelled (mnemonic : String)
deriving DecidableEq, Repr

/-- The answer of a step or of the meaning of a command. -/
abbrev StepResult := Host.Outcome State Fault Refusal

/-- A register file after reset: every VALID bit 0 (10_state.md R63). The contents are unspecified and never read; `v`
stands for them (DESIGN CHOICE, log 2). -/
def emptyFile {α : Type} (v : α) : RegFile α := Vector.replicate 16 ⟨false, v⟩

/-- A build after power-on reset (10_state.md R63, 70_reset_and_hazards.md R390): every VALID bit, pc, IRQ_EN, STATUS, ENTRY,
CAUSE, FPC, FINSTR 0; IMEM and DMEM unwritten. -/
def State.resetOf (b : Build) : State where
  build := b
  F := emptyFile ⟨⟨0, 0, 0, 0, 0⟩, 0, false⟩
  S := emptyFile 0
  W := emptyFile 0
  A := emptyFile ⟨0, 0, false⟩
  P := emptyFile ⟨0, 0, 0⟩
  C := emptyFile false
  L := emptyFile 0
  pc := 0
  irqEn := false
  busy := false
  done := false
  fault := false
  herr := false
  entry := 0
  cause := 0
  fpc := 0
  finstr := 0
  imem := []
  dmem := []
  env := ⟨[], 0, [], 0, [], 0⟩

/-- The machine after power-on reset: R9's default build (log 1). -/
def State.reset : State := State.resetOf Build.default

end Sys2Proof.Machine
end

