-- ==== Sys2Proof/Machine/FieldMath.lean ====
section
/-! DEFINITION. The field helpers of 00_scope.md R17 and the arithmetic of 41_field.md: limb vectors, canonical form, powers,
square roots. -/

namespace Sys2Proof.Machine

open Config (p)

/-- M_j for j = 0..3 (R17). -/
def limbMax : Nat := 2 ^ 52 - 1

/-- M_4 (R17). -/
def topMax : Nat := 2 ^ 16 - 1

/-- PL, the limbs of p (R17). -/
def PL : Limbs := ⟨0xFFFFEFFFFE56D, 0xFFFFFFFFFFFFF, 0xFFFFFFFFFFFFF, 0xFFFFFFFFFFFFF, 0xFFFF⟩

/-- One function on each of the five lanes (41_field.md R164). -/
def Limbs.map (f : Limb → Limb) (x : Limbs) : Limbs := ⟨f x.l0, f x.l1, f x.l2, f x.l3, f x.l4⟩

/-- One function on each of the five lanes of two vectors: lane j of the result depends on lanes j alone (41_field.md R164). -/
def Limbs.zip (f : Limb → Limb → Limb) (x y : Limbs) : Limbs :=
  ⟨f x.l0 y.l0, f x.l1 y.l1, f x.l2 y.l2, f x.l3 y.l3, f x.l4 y.l4⟩

/-- value(L) (R17). -/
def Limbs.value (x : Limbs) : Nat :=
  x.l0.toNat + x.l1.toNat * 2 ^ 52 + x.l2.toNat * 2 ^ 104 + x.l3.toNat * 2 ^ 156 + x.l4.toNat * 2 ^ 208

/-- limbs(v), for v < 2^224 (R17): the bits 51:0, 103:52, 155:104, 207:156, 223:208. -/
def limbs (v : Nat) : Limbs :=
  ⟨BitVec.ofNat 64 (v % 2 ^ 52), BitVec.ofNat 64 (v / 2 ^ 52 % 2 ^ 52), BitVec.ofNat 64 (v / 2 ^ 104 % 2 ^ 52),
   BitVec.ofNat 64 (v / 2 ^ 156 % 2 ^ 52), BitVec.ofNat 64 (v / 2 ^ 208 % 2 ^ 16)⟩

/-- canon(v), the canonical limb vector of the residue of v (R17). -/
def canon (v : Nat) : Limbs := limbs (v % p)

/-- bounded(L, m): L_j ≤ m · M_j for every j (R17). -/
abbrev Limbs.bounded (x : Limbs) (m : Nat) : Prop :=
  x.l0.toNat ≤ m * limbMax ∧ x.l1.toNat ≤ m * limbMax ∧ x.l2.toNat ≤ m * limbMax ∧ x.l3.toNat ≤ m * limbMax ∧
    x.l4.toNat ≤ m * topMax

/-- The residue a field register stands for (10_state.md R31). -/
def FElem.residue (x : FElem) : Nat := x.limb.value % p

/-- The register contents of a canonical value: mag 1, norm 1 (41_field.md R170, R173, R180). -/
def FElem.ofCanonical (v : Nat) : FElem := ⟨limbs v, 1, true⟩

/-- A limb vector R162 of 41_field.md allows for the residue r < p: bounded by magnitude 1 and standing for r. There are at
most two, limbs(r) (the reference vector, canon(r)) and, where it still fits 224 bits, limbs(r + p); `other` asks for the
second (log 4). -/
def multiplierLimbs (r : Nat) (other : Bool) : Limbs := if other ∧ r + p < 2 ^ 224 then limbs (r + p) else limbs r

/-- The register contents a multiplier-class command writes: mag 1, norm 0 (41_field.md R162). -/
def FElem.ofMultiplier (r : Nat) (other : Bool) : FElem := ⟨multiplierLimbs r other, 1, false⟩

/-- b^e mod m by squaring, for e < 2^n (one squaring a bit of the exponent). `powMod_eq` in Laws says that it is b^e mod m. -/
def powMod (m b : Nat) : Nat → Nat → Nat
  | 0, _ => 1 % m
  | n + 1, e =>
    let h := powMod m b n (e / 2)
    let q := h * h % m
    if e % 2 = 1 then q * b % m else q

/-- v^(p - 2) mod p, the fixed exponent of inversion (41_field.md R186, 43_point.md R291). -/
def invMod (v : Nat) : Nat := powMod p (v % p) 224 (p - 2)

/-- The candidate of FSQRT for the residue u (41_field.md R187): v = (2u)^((p-5)/8), i = 2u·v², r = u·v·(i - 1), mod p. -/
def sqrtCandidate (u : Nat) : Nat :=
  let v := powMod p (2 * u % p) 224 ((p - 5) / 8)
  let i := 2 * u * v ^ 2 % p
  u * v * (i + (p - 1)) % p

end Sys2Proof.Machine
end

