-- ==== Sys2Proof/Machine/CurveMath.lean ====
section
/-! DEFINITION. The curve predicates, the group-law formulas and the scalar multiplication of 43_point.md R271 to R279. `+`, `-`,
`*` on Fp are those of GF(p) (R273). -/

namespace Sys2Proof.Machine

/-- onA (R271): the identity, or y² = x³ + B. -/
def APoint.onCurve (b : Fp) (q : APoint) : Bool := q.inf || q.y * q.y == q.x * q.x * q.x + b

/-- onP (R271): Y²·Z = X³ + B·Z³ and (X, Y, Z) ≠ (0, 0, 0). -/
def PPoint.onCurve (b : Fp) (q : PPoint) : Bool :=
  (q.y * q.y * q.z == q.x * q.x * q.x + b * (q.z * q.z * q.z)) && !(q.x == 0 && q.y == 0 && q.z == 0)

/-- The constants IDENTITY (43_point.md R281, R292). -/
def APoint.identity : APoint := ⟨0, 0, true⟩
def PPoint.identity : PPoint := ⟨0, 1, 0⟩

/-- The generator, affine and lifted with Z = 1 (43_point.md R282, R293). -/
def APoint.generator (b : Build) : APoint := ⟨b.gx, b.gy, false⟩
def PPoint.generator (b : Build) : PPoint := ⟨b.gx, b.gy, 1⟩

/-- b3 = 3·B mod p (R274). -/
def b3 (b : Fp) : Fp := 3 * b

/-- DBL (R275), line by line. -/
def dbl (b : Fp) (q : PPoint) : PPoint :=
  let t0 := q.y * q.y
  let z3 := t0 + t0
  let z3 := z3 + z3
  let z3 := z3 + z3
  let t1 := q.y * q.z
  let t2 := q.z * q.z
  let t2 := b3 b * t2
  let x3 := t2 * z3
  let y3 := t0 + t2
  let z3 := t1 * z3
  let t1 := t2 + t2
  let t2 := t1 + t2
  let t0 := t0 - t2
  let y3 := t0 * y3
  let y3 := x3 + y3
  let t1 := q.x * q.y
  let x3 := t0 * t1
  let x3 := x3 + x3
  ⟨x3, y3, z3⟩

/-- ADD (R276), line by line. -/
def add (b : Fp) (q1 q2 : PPoint) : PPoint :=
  let t0 := q1.x * q2.x
  let t1 := q1.y * q2.y
  let t2 := q1.z * q2.z
  let t3 := q1.x + q1.y
  let t4 := q2.x + q2.y
  let t3 := t3 * t4
  let t4 := t0 + t1
  let t3 := t3 - t4
  let t4 := q1.y + q1.z
  let x3 := q2.y + q2.z
  let t4 := t4 * x3
  let x3 := t1 + t2
  let t4 := t4 - x3
  let x3 := q1.x + q1.z
  let y3 := q2.x + q2.z
  let x3 := x3 * y3
  let y3 := t0 + t2
  let y3 := x3 - y3
  let x3 := t0 + t0
  let t0 := x3 + t0
  let t2 := b3 b * t2
  let z3 := t1 + t2
  let t1 := t1 - t2
  let y3 := b3 b * y3
  let x3 := t4 * y3
  let t2 := t3 * t1
  let x3 := t2 - x3
  let y3 := y3 * t0
  let t1 := t1 * z3
  let y3 := t1 + y3
  let t0 := t0 * t3
  let z3 := z3 * t4
  let z3 := z3 + t0
  ⟨x3, y3, z3⟩

/-- MADD (R277), line by line; the second operand is (x2, y2) with Z2 = 1 implied. -/
def madd (b : Fp) (q1 : PPoint) (x2 y2 : Fp) : PPoint :=
  let t0 := q1.x * x2
  let t1 := q1.y * y2
  let t3 := x2 + y2
  let t4 := q1.x + q1.y
  let t3 := t3 * t4
  let t4 := t0 + t1
  let t3 := t3 - t4
  let t4 := y2 * q1.z
  let t4 := t4 + q1.y
  let y3 := x2 * q1.z
  let y3 := y3 + q1.x
  let x3 := t0 + t0
  let t0 := x3 + t0
  let t2 := b3 b * q1.z
  let z3 := t1 + t2
  let t1 := t1 - t2
  let y3 := b3 b * y3
  let x3 := t4 * y3
  let t2 := t3 * t1
  let x3 := t2 - x3
  let y3 := y3 * t0
  let t1 := t1 * z3
  let y3 := t1 + y3
  let t0 := t0 * t3
  let z3 := z3 * t4
  let z3 := z3 + t0
  ⟨x3, y3, z3⟩

/-- The bits i - 1, …, 0 of s in SMUL (R279): one DBL, one ADD and one select a bit. -/
def smulBits (b : Fp) (q : PPoint) (s : BitVec 256) : Nat → PPoint → PPoint
  | 0, r => r
  | i + 1, r =>
    let r := dbl b r
    let t := add b r q
    smulBits b q s i (if s.getLsbD i then t else r)

/-- SMUL (R279): bits 255 down to 0, from (0, 1, 0). -/
def smul (b : Fp) (q : PPoint) (s : BitVec 256) : PPoint := smulBits b q s 256 PPoint.identity

/-- x^(p - 2) in GF(p) (43_point.md R291); 0 for 0. -/
def fpInv (x : Fp) : Fp := Fin.ofNat Config.p (invMod x.val)

/-- PTOA's result (43_point.md R291): (X·zi, Y·zi, Z = 0). -/
def PPoint.toAffine (q : PPoint) : APoint := ⟨q.x * fpInv q.z, q.y * fpInv q.z, q.z == 0⟩

/-- PA2P's result (43_point.md R290): (x, y, 1), then the identity where inf = 1. -/
def APoint.toProjective (q : APoint) : PPoint := if q.inf then PPoint.identity else ⟨q.x, q.y, 1⟩

end Sys2Proof.Machine
end

