-- ==== Sys2Proof/Machine/Ops.lean ====
section
/-! DEFINITION. The named operations over registers and memory, taking an exception (60_exceptions.md R350), START (R371),
soft reset and power-on reset (70_reset_and_hazards.md R390, R391) and the fetch (60_exceptions.md R342). -/

namespace Sys2Proof.Machine

/-! ### Preconditions and results -/

/-- `require(cond, E)` of 00_scope.md R16. -/
def require (c : Prop) [Decidable c] (e : Cause) : Except Cause Unit := if c then .ok () else .error e

/-- The code an exception writes to CAUSE (60_exceptions.md R340). -/
def Cause.code : Cause → BitVec 8
  | .illegal => 1
  | .fetch => 2
  | .daddr => 3
  | .uninit => 4
  | .mag => 5
  | .norm => 6
  | .curve => 7

/-! ### Register files -/

/-- A read of an entry: E_UNINIT when its VALID bit is 0 (10_state.md R43, 60_exceptions.md R341). -/
def RegFile.read {α : Type} (r : RegFile α) (i : Reg) : Except Cause α :=
  if (r.get i).valid then .ok (r.get i).val else .error .uninit

/-- A write of an entry sets its VALID bit (10_state.md R43). -/
def RegFile.write {α : Type} (r : RegFile α) (i : Reg) (v : α) : RegFile α := r.set i.val ⟨true, v⟩ i.isLt

/-- Every VALID bit 0, contents unchanged (70_reset_and_hazards.md R391). -/
def RegFile.invalidate {α : Type} (r : RegFile α) : RegFile α := r.map (fun e => ⟨false, e.val⟩)

def State.writeF (s : State) (d : Reg) (v : FElem) : State := { s with F := s.F.write d v }
def State.writeS (s : State) (d : Reg) (v : BitVec 256) : State := { s with S := s.S.write d v }
def State.writeW (s : State) (d : Reg) (v : BitVec 512) : State := { s with W := s.W.write d v }
def State.writeA (s : State) (d : Reg) (v : APoint) : State := { s with A := s.A.write d v }
def State.writeP (s : State) (d : Reg) (v : PPoint) : State := { s with P := s.P.write d v }
def State.writeC (s : State) (d : Reg) (v : Bool) : State := { s with C := s.C.write d v }
def State.writeL (s : State) (d : Reg) (v : BitVec 16) : State := { s with L := s.L.write d v }

/-- `pc <- target` (00_scope.md R16). -/
def State.setPc (s : State) (t : Imm) : State := { s with pc := t }

/-- pc <- (pc + 1) mod 2^16 (10_state.md R45, 40_control.md R130). -/
def State.advance (s : State) : State := s.setPc (s.pc + 1)

/-! ### Memories -/

/-- The contents of an address, none when nothing has written it. -/
def Memory.read? {w : Nat} : Memory w → Nat → Option (BitVec w)
  | [], _ => none
  | (k, v) :: m, a => if k = a then some v else Memory.read? m a

/-- A write; it keeps the addresses strictly rising. -/
def Memory.write {w : Nat} : Memory w → Nat → BitVec w → Memory w
  | [], a, v => [(a, v)]
  | (k, u) :: m, a, v =>
    if a < k then (a, v) :: (k, u) :: m
    else if a = k then (a, v) :: m
    else (k, u) :: Memory.write m a v

/-- Writes at consecutive addresses, first value first. -/
def Memory.writeSeq {w : Nat} (m : Memory w) (a : Nat) : List (BitVec w) → Memory w
  | [] => m
  | b :: bs => Memory.writeSeq (Memory.write m a b) (a + 1) bs

/-- DMEM[a]: what was last written, or the power-on draw (10_state.md R63, log 3). -/
def State.dmemByte (s : State) (a : Nat) : Byte := (Memory.read? s.dmem a).getD (Config.powerOnByte s.env.powerOn a)

/-- IMEM[i]: what was last written, or the power-on draw (10_state.md R63, log 3). -/
def State.imemWord (s : State) (i : Nat) : Word := (Memory.read? s.imem i).getD (Config.powerOnWord s.env.powerOn i)

/-- DMEM[a], DMEM[a + 1], …, n bytes (20_memory.md R76). -/
def State.readBytes (s : State) (a n : Nat) : List Byte := (List.range n).map (fun k => s.dmemByte (a + k))

/-- The range check of 20_memory.md R76: no wrap-around, E_DADDR. -/
def State.checkRange (s : State) (addr n : Nat) : Except Cause Unit := require (addr + n ≤ s.build.dmemBytes) .daddr

/-- MemRead (20_memory.md R76). -/
def State.memRead (s : State) (addr n : Nat) : Except Cause (List Byte) := do
  s.checkRange addr n
  return s.readBytes addr n

/-- The store of MemWrite, after its range check (20_memory.md R76). -/
def State.storeBytes (s : State) (addr : Nat) (bytes : List Byte) : State :=
  { s with dmem := Memory.writeSeq s.dmem addr bytes }

/-- The host's store of one IMEM word (20_memory.md R84). -/
def State.storeWord (s : State) (i : Nat) (w : Word) : State := { s with imem := Memory.write s.imem i w }

/-- `be_int`: the integer whose big-endian encoding is the sequence (00_scope.md R15). -/
def beInt (bytes : List Byte) : Nat := bytes.foldl (fun acc b => acc * 256 + b.toNat) 0

/-- `be_bytes(v, n)`: the n-byte big-endian encoding of v (00_scope.md R15, for v < 2^(8n); log 12). -/
def beBytes (v n : Nat) : List Byte := (List.range n).map (fun k => BitVec.ofNat 8 (v / 256 ^ (n - 1 - k)))

/-! ### The free choices (log 4, log 5) -/

/-- The next bit of the script of R162's choice; the reference vector when the script is empty. -/
def State.nextRedundant (s : State) : Bool := s.env.redundant.headD false

/-- That bit is used up. -/
def State.dropRedundant (s : State) : State := { s with env := { s.env with redundant := s.env.redundant.tail } }

/-- The pc of the command about to be fetched is one the run has reached (10_state.md R53). -/
def State.noteReached (s : State) : State :=
  if s.pc ∈ s.env.reached then s else { s with env := { s.env with reached := s.pc :: s.env.reached } }

/-! ### Exceptions, end and begin of a run -/

/-- Fault entry (60_exceptions.md R350). The faulting command has written nothing; pc keeps its index. -/
def takeException (e : Cause) (s : State) : State :=
  { s with
    busy := false
    fault := true
    cause := e.code
    fpc := s.pc
    finstr := if e = .fetch then 0 else s.imemWord s.pc.toNat }

/-- A command ends with its next state, or raises one exception, which is taken (40_control.md R130, 60_exceptions.md R350).
There is no return from an exception (R352): the host begins the next run with `State.start`. -/
def State.run (s : State) (r : Except Cause State) : StepResult :=
  match r with
  | .ok s' => .next s'
  | .error e => .next (takeException e s)

/-- HALT: BUSY 0, DONE 1, pc kept (40_control.md R132). -/
def State.finish (s : State) : State := { s with busy := false, done := true }

/-- START (60_exceptions.md R371): a new run at ENTRY; IRQ_EN takes bit 1 of the same write. HERR, the register files, VALID
bits and memories are unchanged. The run has reached no pc yet. -/
def State.start (s : State) (irqEn : Bool) : State :=
  { s with
    done := false
    fault := false
    cause := 0
    fpc := 0
    finstr := 0
    pc := s.entry
    busy := true
    irqEn := irqEn
    env := { s.env with reached := [] } }

/-- Soft reset (70_reset_and_hazards.md R391): IMEM and DMEM unchanged, register contents unchanged but unobservable. -/
def State.softReset (s : State) : State :=
  { s with
    F := s.F.invalidate
    S := s.S.invalidate
    W := s.W.invalidate
    A := s.A.invalidate
    P := s.P.invalidate
    C := s.C.invalidate
    L := s.L.invalidate
    pc := 0
    entry := 0
    irqEn := false
    busy := false
    done := false
    fault := false
    herr := false
    cause := 0
    fpc := 0
    finstr := 0
    env := { s.env with reached := [] } }

/-- Power-on reset at any time, also during a run, which then ends with neither DONE nor FAULT set (40_control.md R143,
70_reset_and_hazards.md R390): the build's reset state, its memories unspecified anew under the name `draw` (log 3). The
script, the bus and the counters of the free choices are not the block's and go on (log 6). -/
def State.powerOnReset (s : State) (draw : Nat) : State :=
  { State.resetOf s.build with env := { s.env with reached := [], powerOn := draw } }

/-- The fetch: E_FETCH at or beyond IMEM_WORDS (60_exceptions.md R342, 40_control.md R130). -/
def State.fetch (s : State) : Except Cause Word :=
  if s.build.imemWords ≤ s.pc.toNat then .error .fetch else .ok (s.imemWord s.pc.toNat)

/-- Decode with its exception (60_exceptions.md R343): every reason of an illegal word is E_ILLEGAL. -/
def decodeOrIllegal (w : Word) : Except Cause Instr :=
  match decode w with
  | .ok i => .ok i
  | .error _ => .error .illegal

end Sys2Proof.Machine
end

