-- ==== Sys2Proof/Machine/Operands.lean ====
section
/-! DEFINITION. The operand forms (30_encoding.md R103, R104): immediates as addresses and values, field elements, scalars and
wide integers in DMEM (20_memory.md R73, R74, R79), and point operands with the curve contract (43_point.md R272). -/

namespace Sys2Proof.Machine

/-- imm16 as a DMEM byte address: zero-extended (20_memory.md R76, 30_encoding.md R104). -/
def dataAddr (imm : Imm) : Nat := imm.toNat

/-- A 28-byte field element in DMEM as an integer (20_memory.md R73, R79). -/
def State.loadField (s : State) (addr : Imm) : Except Cause Nat := do
  let bytes ← s.memRead (dataAddr addr) Config.feBytes
  return beInt bytes

/-- A 32-byte scalar in DMEM as an integer (20_memory.md R74, R79). -/
def State.loadScalar (s : State) (addr : Imm) : Except Cause Nat := do
  let bytes ← s.memRead (dataAddr addr) Config.scBytes
  return beInt bytes

/-- A 64-byte wide integer in DMEM (20_memory.md R74, R79). -/
def State.loadWide (s : State) (addr : Imm) : Except Cause Nat := do
  let bytes ← s.memRead (dataAddr addr) Config.wideBytes
  return beInt bytes

/-- The integer v stored as n big-endian bytes at the address (20_memory.md R73, R74, R76), the range already checked. -/
def State.storeInt (s : State) (addr : Imm) (n v : Nat) : State := s.storeBytes (dataAddr addr) (beBytes v n)

/-- A P operand of a group command: on the curve, or E_CURVE (43_point.md R272, 60_exceptions.md R348). -/
def requireP (b : Build) (q : PPoint) : Except Cause Unit := require (q.onCurve b.b = true) .curve

/-- The A operand of PMADD: on the curve, or E_CURVE (43_point.md R272, 60_exceptions.md R348). -/
def requireA (b : Build) (q : APoint) : Except Cause Unit := require (q.onCurve b.b = true) .curve

/-- A field operand of magnitude at most MUL_MAG_MAX, or E_MAG (60_exceptions.md R346). -/
def requireMul (x : FElem) : Except Cause Unit := require (x.mag ≤ Config.mulMagMax) .mag

/-- A normalized field operand, or E_NORM (60_exceptions.md R347). -/
def requireNorm (x : FElem) : Except Cause Unit := require (x.norm = true) .norm

/-- The destination of a multiplier-class command (41_field.md R162): the choice of the limb vector is taken from the
script, whose head is used up (log 4). -/
def State.writeMultiplier (s : State) (d : Reg) (r : Nat) : State :=
  (s.writeF d (FElem.ofMultiplier r s.nextRedundant)).dropRedundant

end Sys2Proof.Machine
end

