-- ==== Sys2Proof/Machine/Flags.lean ====
section
/-! DEFINITION. The 1-bit results and the status words. EC-CORE has no condition codes (10_state.md R61): a predicate's bit goes to
the C register the command names; STATUS, CTRL and CONFIG are words the host reads (10_state.md R50, R51, R57), and IRQ
is an output (R60). -/

namespace Sys2Proof.Machine

/-- FEQ's bit (41_field.md R183): all five limbs compared. -/
def limbsEqual (x y : Limbs) : Bool := x.l0 == y.l0 && x.l1 == y.l1 && x.l2 == y.l2 && x.l3 == y.l3 && x.l4 == y.l4

/-- FISZ's bit (41_field.md R184). -/
def isZeroBit (x : FElem) : Bool := x.limb.value == 0

/-- FISODD's bit (41_field.md R185): bit 0 of limb 0. -/
def isOddBit (x : FElem) : Bool := x.limb.l0.getLsbD 0

/-- SEQ's bit (42_scalar.md R249). -/
def scalarEqual (x y : BitVec 256) : Bool := x == y

/-- SLT's bit (42_scalar.md R250): unsigned order. -/
def scalarLess (x y : BitVec 256) : Bool := decide (x.toNat < y.toNat)

/-- AEQ's bit (43_point.md R286): both coordinates, not the flag. -/
def affineEqual (q r : APoint) : Bool := q.x == r.x && q.y == r.y

/-- PISID's bit (43_point.md R294). -/
def projectiveIsIdentity (q : PPoint) : Bool := q.z == 0

/-- A bit as a word with that bit in place `i`. -/
def bitAt (b : Bool) (i : Nat) : BitVec 32 := if b then 1#32 <<< i else 0

/-- STATUS as the host reads it (10_state.md R51). -/
def State.statusWord (s : State) : BitVec 32 := bitAt s.busy 0 ||| bitAt s.done 1 ||| bitAt s.fault 2 ||| bitAt s.herr 3

/-- CTRL as the host reads it: START and SRST read 0 (10_state.md R50). -/
def State.ctrlWord (s : State) : BitVec 32 := bitAt s.irqEn 1

/-- CONFIG (10_state.md R57): CHECKED, IMEM_LOG2, DMEM_LOG2, MAG_MAX. -/
def configWord (b : Build) : BitVec 32 :=
  bitAt b.checked 0 ||| (BitVec.ofNat 32 b.imemLog2.val <<< 8) ||| (BitVec.ofNat 32 b.dmemLog2.val <<< 16) |||
    (BitVec.ofNat 32 Config.magMax <<< 24)

/-- The IRQ output (10_state.md R60, 60_exceptions.md R366). -/
def State.irq (s : State) : Bool := s.irqEn && (s.done || s.fault)

end Sys2Proof.Machine
end

