-- ==== Sys2Proof/Machine/Affine.lean ====
section
/-! DEFINITION. The meanings of the affine point commands (43_point.md R280 to R289). -/

namespace Sys2Proof.Machine

/-- AMK Ad, Fa, Fb (R280): a finite point from two normalized coordinates; no curve check. -/
def execAmk (d a b : Reg) (s : State) : StepResult := s.run do
  let x ← s.F.read a
  let y ← s.F.read b
  requireNorm x
  requireNorm y
  return (s.writeA d ⟨Fin.ofNat Config.p x.limb.value, Fin.ofNat Config.p y.limb.value, false⟩).advance

/-- AID Ad (R281). -/
def execAid (d : Reg) (s : State) : StepResult := s.run (.ok (s.writeA d APoint.identity).advance)

/-- AGEN Ad (R282). -/
def execAgen (d : Reg) (s : State) : StepResult := s.run (.ok (s.writeA d (APoint.generator s.build)).advance)

/-- AGETX Fd, Aa (R283): the stored x, also of the identity. -/
def execAgetx (d a : Reg) (s : State) : StepResult := s.run do
  let q ← s.A.read a
  return (s.writeF d (FElem.ofCanonical q.x.val)).advance

/-- AGETY Fd, Aa (R284): the stored y, also of the identity. -/
def execAgety (d a : Reg) (s : State) : StepResult := s.run do
  let q ← s.A.read a
  return (s.writeF d (FElem.ofCanonical q.y.val)).advance

/-- AISID Cd, Aa (R285): the flag alone. -/
def execAisid (d a : Reg) (s : State) : StepResult := s.run do
  let q ← s.A.read a
  return (s.writeC d q.inf).advance

/-- AEQ Cd, Aa, Ab (R286): the coordinates, not the flags. -/
def execAeq (d a b : Reg) (s : State) : StepResult := s.run do
  let q ← s.A.read a
  let r ← s.A.read b
  return (s.writeC d (affineEqual q r)).advance

/-- ASEL Ad, Aa, Ab, Cc (R287): b where C = 1, else a. -/
def execAsel (d a b c : Reg) (s : State) : StepResult := s.run do
  let q ← s.A.read a
  let r ← s.A.read b
  let sel ← s.C.read c
  return (s.writeA d (if sel then r else q)).advance

/-- AONC Cd, Aa (R288): onA of R271. -/
def execAonc (d a : Reg) (s : State) : StepResult := s.run do
  let q ← s.A.read a
  return (s.writeC d (q.onCurve s.build.b)).advance

/-- AMOV Ad, Aa (R289). -/
def execAmov (d a : Reg) (s : State) : StepResult := s.run do
  let q ← s.A.read a
  return (s.writeA d q).advance

end Sys2Proof.Machine
end

