-- ==== Sys2Proof/Machine/Control.lean ====
section
/-! DEFINITION. The meanings of the sequencer and choice commands (40_control.md R131 to R140). -/

namespace Sys2Proof.Machine

/-- NOP (R131). -/
def execNop (s : State) : StepResult := s.run (.ok s.advance)

/-- HALT (R132). -/
def execHalt (s : State) : StepResult := s.run (.ok s.finish)

/-- JMP target (R133): the target is not checked here. -/
def execJmp (target : Imm) (s : State) : StepResult := s.run (.ok (s.setPc target))

/-- LDLC Ld, count (R134). -/
def execLdlc (d : Reg) (count : Imm) (s : State) : StepResult := s.run (.ok (s.writeL d count).advance)

/-- LOOP Ld, target (R135): the decrement is mod 2^16, so a counter of 0 wraps and the loop is taken. -/
def execLoop (d : Reg) (target : Imm) (s : State) : StepResult := s.run do
  let l ← s.L.read d
  let v := l - 1
  let s' := s.writeL d v
  return if v = 0 then s'.advance else s'.setPc target

/-- CLDI Cd, bit (R136); the decoder admits 0 and 1 only (30_encoding.md R105). -/
def execCldi (d : Reg) (bit : Imm) (s : State) : StepResult := s.run (.ok (s.writeC d (bit.getLsbD 0)).advance)

/-- CNOT Cd, Ca (R137). -/
def execCnot (d a : Reg) (s : State) : StepResult := s.run do
  let x ← s.C.read a
  return (s.writeC d (!x)).advance

/-- CAND Cd, Ca, Cb (R138). -/
def execCand (d a b : Reg) (s : State) : StepResult := s.run do
  let x ← s.C.read a
  let y ← s.C.read b
  return (s.writeC d (x && y)).advance

/-- COR Cd, Ca, Cb (R139). -/
def execCor (d a b : Reg) (s : State) : StepResult := s.run do
  let x ← s.C.read a
  let y ← s.C.read b
  return (s.writeC d (x || y)).advance

/-- CXOR Cd, Ca, Cb (R140). -/
def execCxor (d a b : Reg) (s : State) : StepResult := s.run do
  let x ← s.C.read a
  let y ← s.C.read b
  return (s.writeC d (x ^^ y)).advance

end Sys2Proof.Machine
end

