-- ==== Sys2Proof/Machine/Field.lean ====
section
/-! DEFINITION. The meanings of the field engine commands (41_field.md R170 to R187). The checks stand in the order of R160:
DMEM range, VALID bits in slot order, magnitude, normalization. -/

namespace Sys2Proof.Machine

open Config (p)

/-- FLDB Fd, Ca, addr (R170): checked decode; an encoding of p or more gives 0 and C = 0. -/
def execFldb (d a : Reg) (addr : Imm) (s : State) : StepResult := s.run do
  let v ← s.loadField addr
  let ok := decide (v < p)
  return ((s.writeF d (FElem.ofCanonical (if ok then v else 0))).writeC a ok).advance

/-- FLDBU Fd, addr (R171): unchecked decode; an encoding of p or more is E_NORM. -/
def execFldbu (d : Reg) (addr : Imm) (s : State) : StepResult := s.run do
  let v ← s.loadField addr
  require (v < p) .norm
  return (s.writeF d (FElem.ofCanonical v)).advance

/-- FSTB Fa, addr (R172): encode. -/
def execFstb (a : Reg) (addr : Imm) (s : State) : StepResult := s.run do
  s.checkRange (dataAddr addr) Config.feBytes
  let x ← s.F.read a
  requireNorm x
  return (s.storeInt addr Config.feBytes x.limb.value).advance

/-- FLDI Fd, literal (R173). -/
def execFldi (d : Reg) (literal : Imm) (s : State) : StepResult :=
  s.run (.ok (s.writeF d ⟨⟨literal.setWidth 64, 0, 0, 0, 0⟩, 1, true⟩).advance)

/-- FMOV Fd, Fa (R174): limbs and tags. -/
def execFmov (d a : Reg) (s : State) : StepResult := s.run do
  let x ← s.F.read a
  return (s.writeF d x).advance

/-- FADD Fd, Fa, Fb (R175): limb-wise, no carry, no reduction. -/
def execFadd (d a b : Reg) (s : State) : StepResult := s.run do
  let x ← s.F.read a
  let y ← s.F.read b
  require (x.mag + y.mag ≤ Config.magMax) .mag
  return (s.writeF d ⟨Limbs.zip (· + ·) x.limb y.limb, x.mag + y.mag, false⟩).advance

/-- FMULS Fd, Fa, k (R176): single-limb scaling. -/
def execFmuls (d a : Reg) (k : Imm) (s : State) : StepResult := s.run do
  let x ← s.F.read a
  require (x.mag * k.toNat ≤ Config.magMax) .mag
  return (s.writeF d ⟨Limbs.map (· * k.setWidth 64) x.limb, x.mag * k.toNat, false⟩).advance

/-- FNEG Fd, Fa, m (R177): (m + 1)·PL - x, lane by lane. -/
def execFneg (d a : Reg) (m : Imm) (s : State) : StepResult := s.run do
  let x ← s.F.read a
  require (x.mag ≤ m.toNat) .mag
  return (s.writeF d ⟨Limbs.zip (fun pl l => (m.setWidth 64 + 1) * pl - l) PL x.limb, m.toNat + 1, false⟩).advance

/-- FMUL Fd, Fa, Fb (R178). -/
def execFmul (d a b : Reg) (s : State) : StepResult := s.run do
  let x ← s.F.read a
  let y ← s.F.read b
  requireMul x
  requireMul y
  return (s.writeMultiplier d (x.limb.value * y.limb.value % p)).advance

/-- FSQR Fd, Fa (R179). -/
def execFsqr (d a : Reg) (s : State) : StepResult := s.run do
  let x ← s.F.read a
  requireMul x
  return (s.writeMultiplier d (x.limb.value ^ 2 % p)).advance

/-- FNORM Fd, Fa (R180): the canonical vector; every magnitude is accepted. -/
def execFnorm (d a : Reg) (s : State) : StepResult := s.run do
  let x ← s.F.read a
  return (s.writeF d ⟨canon x.limb.value, 1, true⟩).advance

/-- FNORMW Fd, Fa (R181): weak normalization. -/
def execFnormw (d a : Reg) (s : State) : StepResult := s.run do
  let x ← s.F.read a
  return (s.writeMultiplier d (x.limb.value % p)).advance

/-- FSEL Fd, Fa, Fb, Cc (R182): b where C = 1, else a; the larger magnitude. -/
def execFsel (d a b c : Reg) (s : State) : StepResult := s.run do
  let x ← s.F.read a
  let y ← s.F.read b
  let sel ← s.C.read c
  return (s.writeF d
    ⟨if sel then y.limb else x.limb, max x.mag y.mag, if sel then y.norm else x.norm⟩).advance

/-- FEQ Cd, Fa, Fb (R183). -/
def execFeq (d a b : Reg) (s : State) : StepResult := s.run do
  let x ← s.F.read a
  let y ← s.F.read b
  requireNorm x
  requireNorm y
  return (s.writeC d (limbsEqual x.limb y.limb)).advance

/-- FISZ Cd, Fa (R184). -/
def execFisz (d a : Reg) (s : State) : StepResult := s.run do
  let x ← s.F.read a
  requireNorm x
  return (s.writeC d (isZeroBit x)).advance

/-- FISODD Cd, Fa (R185). -/
def execFisodd (d a : Reg) (s : State) : StepResult := s.run do
  let x ← s.F.read a
  requireNorm x
  return (s.writeC d (isOddBit x)).advance

/-- FINV Fd, Fa (R186): x^(p - 2); 0 for 0. -/
def execFinv (d a : Reg) (s : State) : StepResult := s.run do
  let x ← s.F.read a
  requireMul x
  return (s.writeMultiplier d (invMod x.limb.value)).advance

/-- FSQRT Fd, Fa, Cc (R187): the candidate, always written, and whether its square is the operand. -/
def execFsqrt (d a c : Reg) (s : State) : StepResult := s.run do
  let x ← s.F.read a
  requireMul x
  let u := x.residue
  let r := sqrtCandidate u
  return ((s.writeMultiplier d r).writeC c (r ^ 2 % p == u)).advance

end Sys2Proof.Machine
end

