-- ==== Sys2Proof/Machine/Projective.lean ====
section
/-! DEFINITION. The meanings of the conversion and projective point commands (43_point.md R290 to R300). The curve contract comes
after the VALID bits, operand a before operand b (60_exceptions.md R360). -/

namespace Sys2Proof.Machine

/-- PA2P Pd, Aa (R290); no curve check. -/
def execPa2p (d a : Reg) (s : State) : StepResult := s.run do
  let q ← s.A.read a
  return (s.writeP d q.toProjective).advance

/-- PTOA Ad, Pa (R291). -/
def execPtoa (d a : Reg) (s : State) : StepResult := s.run do
  let q ← s.P.read a
  return (s.writeA d q.toAffine).advance

/-- PID Pd (R292). -/
def execPid (d : Reg) (s : State) : StepResult := s.run (.ok (s.writeP d PPoint.identity).advance)

/-- PGEN Pd (R293). -/
def execPgen (d : Reg) (s : State) : StepResult := s.run (.ok (s.writeP d (PPoint.generator s.build)).advance)

/-- PISID Cd, Pa (R294): Z = 0. -/
def execPisid (d a : Reg) (s : State) : StepResult := s.run do
  let q ← s.P.read a
  return (s.writeC d (projectiveIsIdentity q)).advance

/-- PSEL Pd, Pa, Pb, Cc (R295): b where C = 1, else a. -/
def execPsel (d a b c : Reg) (s : State) : StepResult := s.run do
  let q ← s.P.read a
  let r ← s.P.read b
  let sel ← s.C.read c
  return (s.writeP d (if sel then r else q)).advance

/-- PMOV Pd, Pa (R296). -/
def execPmov (d a : Reg) (s : State) : StepResult := s.run do
  let q ← s.P.read a
  return (s.writeP d q).advance

/-- PDBL Pd, Pa (R297). -/
def execPdbl (d a : Reg) (s : State) : StepResult := s.run do
  let q ← s.P.read a
  requireP s.build q
  return (s.writeP d (dbl s.build.b q)).advance

/-- PADD Pd, Pa, Pb (R298). -/
def execPadd (d a b : Reg) (s : State) : StepResult := s.run do
  let q ← s.P.read a
  let r ← s.P.read b
  requireP s.build q
  requireP s.build r
  return (s.writeP d (add s.build.b q r)).advance

/-- PMADD Pd, Pa, Ab (R299): an affine identity gives the P operand itself. -/
def execPmadd (d a b : Reg) (s : State) : StepResult := s.run do
  let q ← s.P.read a
  let r ← s.A.read b
  requireP s.build q
  requireA s.build r
  return (s.writeP d (if r.inf then q else madd s.build.b q r.x r.y)).advance

/-- PSMUL Pd, Pa, Sb (R300). -/
def execPsmul (d a b : Reg) (s : State) : StepResult := s.run do
  let q ← s.P.read a
  let k ← s.S.read b
  requireP s.build q
  return (s.writeP d (smul s.build.b q k)).advance

end Sys2Proof.Machine
end

