-- ==== Sys2Proof/Machine/Scalar.lean ====
section
/-! DEFINITION. The meanings of the scalar engine commands (42_scalar.md R240 to R251). The checks stand in the order of R230. -/

namespace Sys2Proof.Machine

/-- SLDB Sd, Ca, addr (R240): checked decode; an encoding of N or more gives 0 and C = 0. -/
def execSldb (d a : Reg) (addr : Imm) (s : State) : StepResult := s.run do
  let v ← s.loadScalar addr
  let ok := decide (v < s.build.n)
  return ((s.writeS d (BitVec.ofNat 256 (if ok then v else 0))).writeC a ok).advance

/-- SSTB Sa, addr (R241). -/
def execSstb (a : Reg) (addr : Imm) (s : State) : StepResult := s.run do
  s.checkRange (dataAddr addr) Config.scBytes
  let x ← s.S.read a
  return (s.storeInt addr Config.scBytes x.toNat).advance

/-- SLDI Sd, literal (R242). -/
def execSldi (d : Reg) (literal : Imm) (s : State) : StepResult :=
  s.run (.ok (s.writeS d (literal.setWidth 256)).advance)

/-- SMOV Sd, Sa (R243). -/
def execSmov (d a : Reg) (s : State) : StepResult := s.run do
  let x ← s.S.read a
  return (s.writeS d x).advance

/-- SADD Sd, Sa, Sb (R244): (S[a] + S[b]) mod N. -/
def execSadd (d a b : Reg) (s : State) : StepResult := s.run do
  let x ← s.S.read a
  let y ← s.S.read b
  return (s.writeS d (BitVec.ofNat 256 ((x.toNat + y.toNat) % s.build.n))).advance

/-- SMULW Wd, Sa, Sb (R245): the exact product. -/
def execSmulw (d a b : Reg) (s : State) : StepResult := s.run do
  let x ← s.S.read a
  let y ← s.S.read b
  return (s.writeW d (BitVec.ofNat 512 (x.toNat * y.toNat))).advance

/-- SRED Sd, Wa (R246): W[a] mod N. -/
def execSred (d a : Reg) (s : State) : StepResult := s.run do
  let w ← s.W.read a
  return (s.writeS d (BitVec.ofNat 256 (w.toNat % s.build.n))).advance

/-- WLDB Wd, addr (R247). -/
def execWldb (d : Reg) (addr : Imm) (s : State) : StepResult := s.run do
  let v ← s.loadWide addr
  return (s.writeW d (BitVec.ofNat 512 v)).advance

/-- WSTB Wa, addr (R248). -/
def execWstb (a : Reg) (addr : Imm) (s : State) : StepResult := s.run do
  s.checkRange (dataAddr addr) Config.wideBytes
  let w ← s.W.read a
  return (s.storeInt addr Config.wideBytes w.toNat).advance

/-- SEQ Cd, Sa, Sb (R249). -/
def execSeq (d a b : Reg) (s : State) : StepResult := s.run do
  let x ← s.S.read a
  let y ← s.S.read b
  return (s.writeC d (scalarEqual x y)).advance

/-- SLT Cd, Sa, Sb (R250). -/
def execSlt (d a b : Reg) (s : State) : StepResult := s.run do
  let x ← s.S.read a
  let y ← s.S.read b
  return (s.writeC d (scalarLess x y)).advance

/-- SSEL Sd, Sa, Sb, Cc (R251): b where C = 1, else a. -/
def execSsel (d a b c : Reg) (s : State) : StepResult := s.run do
  let x ← s.S.read a
  let y ← s.S.read b
  let sel ← s.C.read c
  return (s.writeS d (if sel then y else x)).advance

end Sys2Proof.Machine
end

