-- ==== Sys2Proof/Machine/Dispatch.lean ====
section
/-! DEFINITION. exec: one arm a constructor of Instr, each one call of its meaning. -/

namespace Sys2Proof.Machine

def exec (i : Instr) (s : State) : Host.Outcome State Fault Refusal :=
  match i with
  | .nop => Sys2Proof.Machine.execNop s
  | .halt => Sys2Proof.Machine.execHalt s
  | .jmp target => Sys2Proof.Machine.execJmp target s
  | .ldlc d count => Sys2Proof.Machine.execLdlc d count s
  | .loop d target => Sys2Proof.Machine.execLoop d target s
  | .cldi d bit => Sys2Proof.Machine.execCldi d bit s
  | .cnot d a => Sys2Proof.Machine.execCnot d a s
  | .cand d a b => Sys2Proof.Machine.execCand d a b s
  | .cor d a b => Sys2Proof.Machine.execCor d a b s
  | .cxor d a b => Sys2Proof.Machine.execCxor d a b s
  | .fldb d a addr => Sys2Proof.Machine.execFldb d a addr s
  | .fldbu d addr => Sys2Proof.Machine.execFldbu d addr s
  | .fstb a addr => Sys2Proof.Machine.execFstb a addr s
  | .fldi d literal => Sys2Proof.Machine.execFldi d literal s
  | .fmov d a => Sys2Proof.Machine.execFmov d a s
  | .fadd d a b => Sys2Proof.Machine.execFadd d a b s
  | .fmuls d a k => Sys2Proof.Machine.execFmuls d a k s
  | .fneg d a m => Sys2Proof.Machine.execFneg d a m s
  | .fmul d a b => Sys2Proof.Machine.execFmul d a b s
  | .fsqr d a => Sys2Proof.Machine.execFsqr d a s
  | .fnorm d a => Sys2Proof.Machine.execFnorm d a s
  | .fnormw d a => Sys2Proof.Machine.execFnormw d a s
  | .fsel d a b c => Sys2Proof.Machine.execFsel d a b c s
  | .feq d a b => Sys2Proof.Machine.execFeq d a b s
  | .fisz d a => Sys2Proof.Machine.execFisz d a s
  | .fisodd d a => Sys2Proof.Machine.execFisodd d a s
  | .finv d a => Sys2Proof.Machine.execFinv d a s
  | .fsqrt d a c => Sys2Proof.Machine.execFsqrt d a c s
  | .sldb d a addr => Sys2Proof.Machine.execSldb d a addr s
  | .sstb a addr => Sys2Proof.Machine.execSstb a addr s
  | .sldi d literal => Sys2Proof.Machine.execSldi d literal s
  | .smov d a => Sys2Proof.Machine.execSmov d a s
  | .sadd d a b => Sys2Proof.Machine.execSadd d a b s
  | .smulw d a b => Sys2Proof.Machine.execSmulw d a b s
  | .sred d a => Sys2Proof.Machine.execSred d a s
  | .wldb d addr => Sys2Proof.Machine.execWldb d addr s
  | .seq d a b => Sys2Proof.Machine.execSeq d a b s
  | .slt d a b => Sys2Proof.Machine.execSlt d a b s
  | .ssel d a b c => Sys2Proof.Machine.execSsel d a b c s
  | .wstb a addr => Sys2Proof.Machine.execWstb a addr s
  | .amk d a b => Sys2Proof.Machine.execAmk d a b s
  | .aid d => Sys2Proof.Machine.execAid d s
  | .agen d => Sys2Proof.Machine.execAgen d s
  | .agetx d a => Sys2Proof.Machine.execAgetx d a s
  | .agety d a => Sys2Proof.Machine.execAgety d a s
  | .aisid d a => Sys2Proof.Machine.execAisid d a s
  | .aeq d a b => Sys2Proof.Machine.execAeq d a b s
  | .asel d a b c => Sys2Proof.Machine.execAsel d a b c s
  | .aonc d a => Sys2Proof.Machine.execAonc d a s
  | .amov d a => Sys2Proof.Machine.execAmov d a s
  | .pa2p d a => Sys2Proof.Machine.execPa2p d a s
  | .ptoa d a => Sys2Proof.Machine.execPtoa d a s
  | .pid d => Sys2Proof.Machine.execPid d s
  | .pgen d => Sys2Proof.Machine.execPgen d s
  | .pisid d a => Sys2Proof.Machine.execPisid d a s
  | .psel d a b c => Sys2Proof.Machine.execPsel d a b c s
  | .pmov d a => Sys2Proof.Machine.execPmov d a s
  | .pdbl d a => Sys2Proof.Machine.execPdbl d a s
  | .padd d a b => Sys2Proof.Machine.execPadd d a b s
  | .pmadd d a b => Sys2Proof.Machine.execPmadd d a b s
  | .psmul d a b => Sys2Proof.Machine.execPsmul d a b s

end Sys2Proof.Machine
end

