-- ==== Sys2Proof/Machine/HostWindow.lean ====
section
/-! DEFINITION. The host window (20_memory.md R82 to R86, 10_state.md R49 to R60, 60_exceptions.md R370 to R372): what a host
read returns and what a host write does. A host access is one step, between two commands. -/

namespace Sys2Proof.Machine

/-- What an aligned offset of the host window reaches (20_memory.md R82, 10_state.md R49). -/
inductive Target where
  | id | config | ctrl | status | entry | pcr | cause | fpc | finstr
  /-- IMEM word i -/
  | imemWord (i : Nat)
  /-- the DMEM bytes a .. a + 3 -/
  | dmemWord (a : Nat)
  | reserved
deriving DecidableEq, Repr

/-- The offset of a bus address in the host window of 2^20 bytes, if it is inside (20_memory.md R82). -/
def windowOffset (b : Build) (addr : Nat) : Option Nat :=
  if b.hostBase ≤ addr ∧ addr < b.hostBase + 2 ^ 20 then some (addr - b.hostBase) else none

/-- The nine registers by their offset (10_state.md R49). -/
def registerAt (off : Nat) : Target :=
  if off = 0x00 then .id
  else if off = 0x04 then .config
  else if off = 0x08 then .ctrl
  else if off = 0x0C then .status
  else if off = 0x10 then .entry
  else if off = 0x14 then .pcr
  else if off = 0x18 then .cause
  else if off = 0x1C then .fpc
  else if off = 0x20 then .finstr
  else .reserved

/-- R82 of 20_memory.md, for an offset that is a multiple of 4. -/
def target (b : Build) (off : Nat) : Target :=
  if off < 0x40000 then registerAt off
  else if off < 0x80000 then
    let i := (off - 0x40000) / 4
    if i < b.imemWords then .imemWord i else .reserved
  else if off < 0x90000 then
    let a := off - 0x80000
    if a < b.dmemBytes then .dmemWord a else .reserved
  else .reserved

/-- IMEM, DMEM and ENTRY are the core's while BUSY = 1 (20_memory.md R85, 60_exceptions.md R370). -/
def Target.idleOnly : Target → Bool
  | .imemWord _ => true
  | .dmemWord _ => true
  | .entry => true
  | .id => false
  | .config => false
  | .ctrl => false
  | .status => false
  | .pcr => false
  | .cause => false
  | .fpc => false
  | .finstr => false
  | .reserved => false

def State.setHerr (s : State) : State := { s with herr := true }
def State.setBusData (s : State) (v : BitVec 32) : State := { s with env := { s.env with busData := v } }
def State.setIrqEn (s : State) (b : Bool) : State := { s with irqEn := b }
def State.setEntry (s : State) (v : Imm) : State := { s with entry := v }
def State.countDraw (s : State) : State := { s with env := { s.env with draws := s.env.draws + 1 } }

/-- The write-1-to-clear bits of STATUS (10_state.md R51): DONE, FAULT, HERR; BUSY is not writable. -/
def State.clearStatus (s : State) (d : BitVec 32) : State :=
  { s with
    done := s.done && !d.getLsbD 1
    fault := s.fault && !d.getLsbD 2
    herr := s.herr && !d.getLsbD 3 }

/-- Four DMEM bytes as a word, the lowest address in bits 31:24 (20_memory.md R83). -/
def State.dmemLanes (s : State) (a : Nat) : BitVec 32 :=
  ((s.dmemByte a ++ s.dmemByte (a + 1) : BitVec 16) ++ s.dmemByte (a + 2) : BitVec 24) ++ s.dmemByte (a + 3)

/-- A word as four DMEM bytes, bits 31:24 first (20_memory.md R83). -/
def laneBytes (d : BitVec 32) : List Byte :=
  [d.extractLsb' 24 8, d.extractLsb' 16 8, d.extractLsb' 8 8, d.extractLsb' 0 8]

/-- PCR (10_state.md R53): pc while idle; while BUSY = 1 a draw among the pcs the run has reached, the one about to be
fetched among them (log 5). -/
def State.pcrValue (s : State) : Imm :=
  if s.busy then
    let pcs := s.noteReached.env.reached
    pcs.getD (Config.pcrDraw s.env.draws % pcs.length) s.pc
  else s.pc

/-- What an accepted read returns (10_state.md R49 to R59, 20_memory.md R83, R84). -/
def State.readTarget (s : State) : Target → BitVec 32
  | .id => Config.id
  | .config => configWord s.build
  | .ctrl => s.ctrlWord
  | .status => s.statusWord
  | .entry => s.entry.setWidth 32
  | .pcr => s.pcrValue.setWidth 32
  | .cause => s.cause.setWidth 32
  | .fpc => s.fpc.setWidth 32
  | .finstr => s.finstr
  | .imemWord i => s.imemWord i
  | .dmemWord a => s.dmemLanes a
  | .reserved => 0

/-- A write of CTRL (10_state.md R50): SRST = 1 is the soft reset alone, START = 1 begins a run or, while BUSY = 1, is
refused (60_exceptions.md R370, R371); otherwise IRQ_EN takes bit 1. -/
def State.writeCtrl (s : State) (d : BitVec 32) : State :=
  if d.getLsbD 2 then s.softReset
  else if d.getLsbD 0 then (if s.busy then s.setHerr else s.start (d.getLsbD 1))
  else s.setIrqEn (d.getLsbD 1)

/-- What an accepted write does; read-only registers and reserved offsets ignore it (10_state.md R49, R59; log 9). -/
def State.writeTarget (s : State) (d : BitVec 32) : Target → State
  | .id => s
  | .config => s
  | .ctrl => s.writeCtrl d
  | .status => s.clearStatus d
  | .entry => s.setEntry (d.setWidth 16)
  | .pcr => s
  | .cause => s
  | .fpc => s
  | .finstr => s
  | .imemWord i => s.storeWord i d
  | .dmemWord a => s.storeBytes a (laneBytes d)
  | .reserved => s

/-- An access that is not an aligned 32-bit access, or reaches IMEM, DMEM or ENTRY while BUSY = 1, is refused
(60_exceptions.md R370, 20_memory.md R85, R86). -/
def State.refuses (s : State) (off bytes : Nat) : Bool :=
  !(bytes == 4 && off % 4 == 0) || (s.busy && (target s.build off).idleOnly)

/-- A read of PCR while BUSY = 1 takes a free value (log 5). -/
def State.afterRead (s : State) (t : Target) : State := if t = .pcr ∧ s.busy = true then s.countDraw else s

/-- A host read: a refused one returns 0 and sets HERR (60_exceptions.md R370). An address outside the window does not
reach the block (log 10). -/
def State.hostRead (s : State) (addr bytes : Nat) : State :=
  match windowOffset s.build addr with
  | none => s
  | some off =>
    if s.refuses off bytes then (s.setBusData 0).setHerr
    else (s.setBusData (s.readTarget (target s.build off))).afterRead (target s.build off)

/-- A host write: a refused one changes nothing but HERR (60_exceptions.md R370). -/
def State.hostWrite (s : State) (addr bytes : Nat) (d : BitVec 32) : State :=
  match windowOffset s.build addr with
  | none => s
  | some off => if s.refuses off bytes then s.setHerr else s.writeTarget d (target s.build off)

/-- The turn at the head of the script is used up. -/
def State.dropMove (s : State) : State := { s with env := { s.env with moves := s.env.moves.tail } }

end Sys2Proof.Machine
end

