-- ==== Sys2Proof/Machine/Sequencer.lean ====
section
/-! DEFINITION. One turn of the core (40_control.md R130) and one turn of the outside world. -/

namespace Sys2Proof.Machine

/-- R130 of 40_control.md with the exceptions of 60_exceptions.md R342 and R343: fetch, decode, execute. -/
def State.runCommand (s : State) : StepResult :=
  match s.fetch with
  | .error e => .next (takeException e s)
  | .ok w =>
    match decodeOrIllegal w with
    | .error e => .next (takeException e s)
    | .ok i => exec i s

/-- A turn of the core: one command while BUSY = 1; an idle core executes nothing and keeps all its state
(60_exceptions.md R351, R381; log 8). -/
def State.coreTurn (s : State) : StepResult := if s.busy then s.noteReached.runCommand else .next s

/-- The turn at the head of the script: a host access, the core's, or a power-on reset (log 6). -/
def State.turn (s : State) : StepResult :=
  match s.env.moves with
  | [] => s.coreTurn
  | .core :: _ => s.dropMove.coreTurn
  | .read addr bytes :: _ => .next (s.dropMove.hostRead addr bytes)
  | .write addr bytes d :: _ => .next (s.dropMove.hostWrite addr bytes d)
  | .powerOn draw :: _ => .next (s.dropMove.powerOnReset draw)

end Sys2Proof.Machine
end

