-- ==== Sys2Proof/Machine/Step.lean ====
section
/-! DEFINITION. step: one command of the core, one host access or one power-on reset. -/

namespace Sys2Proof.Machine

/-- One step of EC-CORE with its outside world (40_control.md R130, 60_exceptions.md R372). -/
def step (s : State) : Host.Outcome State Fault Refusal := s.turn

/-- `s` with a word stored where the core fetches its next command, and the core running: BUSY 1, no host access waiting,
pc kept where it is inside IMEM and 0 where it is not. It stands for the host's load and START (70_reset_and_hazards.md
R395, log 6). -/
def State.withFetchWord (s : State) (nbits w : Nat) : State :=
  let pc : Imm := if s.pc.toNat < s.build.imemWords then s.pc else 0
  { s with
    busy := true
    pc := pc
    imem := Memory.write s.imem pc.toNat (BitVec.ofNat 32 (w % 2 ^ nbits))
    env := { s.env with moves := [] } }

end Sys2Proof.Machine
end

