-- ==== Sys2Proof/Machine/Assembler.lean ====
section
/-! DEFINITION. The assembler (30_encoding.md R113 to R122): the pseudo-instructions as the commands they stand for, and the
text of a program as its IMEM words. The core never reads it: a program reaches the machine as words (70_reset_and_hazards.md
R395). Text is a list of characters. -/

namespace Sys2Proof

/-- Why the assembler refuses a line (R113, R117, R122; log 18). -/
inductive AsmError where
  /-- the mnemonic is neither of R114 nor of R116 to R121 (R122) -/
  | unknownMnemonic
  /-- more or fewer operands than the form has -/
  | operandCount
  /-- a register operand that is not the file letter of the slot and an index 0 to 15 (R113) -/
  | badRegister
  /-- an immediate that is neither a number nor a label of the program (R113) -/
  | badImmediate
  /-- an immediate outside the range of its use (R104, R105) -/
  | immOutOfRange
  /-- FSUB with d = a (R117) -/
  | subtractOverwrites
  /-- a label that is empty or not one word, or a second `:` in a line -/
  | badLabel
  /-- a label defined twice -/
  | duplicateLabel
deriving DecidableEq, Repr

/-- The pseudo-instructions (R116 to R121); there are no others (R122). -/
inductive Pseudo where
  /-- FZERO Fd (R116) -/
  | fzero (d : Reg)
  /-- FONE Fd (R116) -/
  | fone (d : Reg)
  /-- FSUB Fd, Fa, Fb, m (R117) -/
  | fsub (d a b : Reg) (m : Imm)
  /-- FISEVEN Cd, Fa (R118) -/
  | fiseven (d a : Reg)
  /-- SMUL Sd, Sa, Sb, Wt (R119) -/
  | smul (d a b t : Reg)
  /-- CMOV Cd, Ca (R120) -/
  | cmov (d a : Reg)
  /-- PSMULA Pd, Aa, Sb (R121) -/
  | psmula (d a b : Reg)
deriving DecidableEq, Repr

/-- The commands a pseudo-instruction expands to. FSUB is refused when d = a, because the first command would overwrite
Fa before the second reads it (R117). -/
def Pseudo.expand : Pseudo → Except AsmError (List Instr)
  | .fzero d => .ok [.fldi d 0]
  | .fone d => .ok [.fldi d 1]
  | .fsub d a b m => if d = a then .error .subtractOverwrites else .ok [.fneg d b m, .fadd d a d]
  | .fiseven d a => .ok [.fisodd d a, .cnot d d]
  | .smul d a b t => .ok [.smulw t a b, .sred d t]
  | .cmov d a => .ok [.cor d a a]
  | .psmula d a b => .ok [.pa2p d a, .psmul d d b]

/-- How many words a pseudo-instruction takes, by its mnemonic; none for a mnemonic that is not one (R116 to R121). -/
def pseudoWords (mnemonic : List Char) : Option Nat :=
  if mnemonic = "FZERO".toList then some 1
  else if mnemonic = "FONE".toList then some 1
  else if mnemonic = "FSUB".toList then some 2
  else if mnemonic = "FISEVEN".toList then some 2
  else if mnemonic = "SMUL".toList then some 2
  else if mnemonic = "CMOV".toList then some 1
  else if mnemonic = "PSMULA".toList then some 2
  else none

/-- The mnemonic of a command (R108, R114). -/
def Op.mnemonic : Op → String
  | .nop => "NOP"
  | .halt => "HALT"
  | .jmp => "JMP"
  | .ldlc => "LDLC"
  | .loop => "LOOP"
  | .cldi => "CLDI"
  | .cnot => "CNOT"
  | .cand => "CAND"
  | .cor => "COR"
  | .cxor => "CXOR"
  | .fldb => "FLDB"
  | .fldbu => "FLDBU"
  | .fstb => "FSTB"
  | .fldi => "FLDI"
  | .fmov => "FMOV"
  | .fadd => "FADD"
  | .fmuls => "FMULS"
  | .fneg => "FNEG"
  | .fmul => "FMUL"
  | .fsqr => "FSQR"
  | .fnorm => "FNORM"
  | .fnormw => "FNORMW"
  | .fsel => "FSEL"
  | .feq => "FEQ"
  | .fisz => "FISZ"
  | .fisodd => "FISODD"
  | .finv => "FINV"
  | .fsqrt => "FSQRT"
  | .sldb => "SLDB"
  | .sstb => "SSTB"
  | .sldi => "SLDI"
  | .smov => "SMOV"
  | .sadd => "SADD"
  | .smulw => "SMULW"
  | .sred => "SRED"
  | .wldb => "WLDB"
  | .seq => "SEQ"
  | .slt => "SLT"
  | .ssel => "SSEL"
  | .wstb => "WSTB"
  | .amk => "AMK"
  | .aid => "AID"
  | .agen => "AGEN"
  | .agetx => "AGETX"
  | .agety => "AGETY"
  | .aisid => "AISID"
  | .aeq => "AEQ"
  | .asel => "ASEL"
  | .aonc => "AONC"
  | .amov => "AMOV"
  | .pa2p => "PA2P"
  | .ptoa => "PTOA"
  | .pid => "PID"
  | .pgen => "PGEN"
  | .pisid => "PISID"
  | .psel => "PSEL"
  | .pmov => "PMOV"
  | .pdbl => "PDBL"
  | .padd => "PADD"
  | .pmadd => "PMADD"
  | .psmul => "PSMUL"

/-- The command with a mnemonic. -/
def opOfMnemonic (mnemonic : List Char) : Option Op := Op.all.find? (fun op => op.mnemonic.toList == mnemonic)

/-! ### Characters -/

/-- The letter of a register file (R113). -/
def File.letter : File → Char
  | .F => 'F'
  | .S => 'S'
  | .W => 'W'
  | .A => 'A'
  | .P => 'P'
  | .C => 'C'
  | .L => 'L'

def isBlank (c : Char) : Bool := c == ' ' || c == '\t' || c == '\r'

/-- A text without the blanks at its ends. -/
def trimBlanks (t : List Char) : List Char := ((t.dropWhile isBlank).reverse.dropWhile isBlank).reverse

/-- The parts of a text between occurrences of a character. -/
def splitAtChar (sep : Char) : List Char → List (List Char)
  | [] => [[]]
  | c :: cs =>
    if c = sep then [] :: splitAtChar sep cs
    else
      match splitAtChar sep cs with
      | [] => [[c]]
      | p :: ps => (c :: p) :: ps

def digitOf (c : Char) : Option Nat := if c.isDigit then some (c.toNat - '0'.toNat) else none

def hexDigitOf (c : Char) : Option Nat :=
  if c.isDigit then some (c.toNat - '0'.toNat)
  else if 'a' ≤ c ∧ c ≤ 'f' then some (c.toNat - 'a'.toNat + 10)
  else if 'A' ≤ c ∧ c ≤ 'F' then some (c.toNat - 'A'.toNat + 10)
  else none

/-- The number of a text of digits in a base, none for an empty text or another character. -/
def digitsValue (base : Nat) (digit : Char → Option Nat) : List Char → Option Nat
  | [] => none
  | cs => cs.foldl (fun acc c => match acc, digit c with | some n, some d => some (n * base + d) | _, _ => none) (some 0)

/-- A decimal or 0x hexadecimal number (R113). -/
def numberOf : List Char → Option Nat
  | '0' :: 'x' :: cs => digitsValue 16 hexDigitOf cs
  | cs => digitsValue 10 digitOf cs

/-! ### Operands -/

/-- The labels of a program with their IMEM word indices (R113). -/
abbrev Labels := List (List Char × Nat)

/-- A register operand of a file: its letter and an index 0 to 15 (R113). DESIGN CHOICE (log 18): the index is read as a number,
so leading zeros are accepted (F01 is F1). -/
def registerOf (f : File) : List Char → Except AsmError Reg
  | [] => .error .badRegister
  | c :: cs =>
    if c = f.letter then
      match digitsValue 10 digitOf cs with
      | some n => if h : n < 16 then .ok ⟨n, h⟩ else .error .badRegister
      | none => .error .badRegister
    else .error .badRegister

/-- An immediate operand: a number, or a label, below 2^16 (R104, R113). DESIGN CHOICE (log 18): a text that is a number is that
number, also where a label has that name, and label names are compared letter for letter, upper and lower case apart. -/
def immediateOf (labels : Labels) (t : List Char) : Except AsmError Imm :=
  match numberOf t with
  | some n => if n < 2 ^ 16 then .ok (BitVec.ofNat 16 n) else .error .immOutOfRange
  | none =>
    match labels.find? (fun l => l.1 == t) with
    | some l => if l.2 < 2 ^ 16 then .ok (BitVec.ofNat 16 l.2) else .error .immOutOfRange
    | none => .error .badImmediate

/-- The next operand as a register of a file. -/
def takeRegister (f : File) : List (List Char) → Except AsmError (Reg × List (List Char))
  | [] => .error .operandCount
  | t :: ts => do
    let r ← registerOf f t
    return (r, ts)

/-- The operand of a slot; a slot the command does not use takes none and is 0 (R113). -/
def takeSlot (f : Option File) (ts : List (List Char)) : Except AsmError (Reg × List (List Char)) :=
  match f with
  | none => .ok (0, ts)
  | some f => takeRegister f ts

/-- The immediate, where the command has one; it comes last (R113). -/
def takeImmediate (labels : Labels) (u : ImmUse) (ts : List (List Char)) : Except AsmError (Imm × List (List Char)) :=
  match u, ts with
  | .none, ts => .ok (0, ts)
  | _, [] => .error .operandCount
  | _, t :: ts => do
    let v ← immediateOf labels t
    return (v, ts)

/-- No operand is left over. -/
def noMore (ts : List (List Char)) : Except AsmError Unit := if ts.isEmpty then .ok () else .error .operandCount

/-- A command from its operands, in slot order d, a, b, c, then the immediate (R113, R114). -/
def commandOf (labels : Labels) (op : Op) (ts : List (List Char)) : Except AsmError Instr := do
  let (d, ts) ← takeSlot op.sig.d ts
  let (a, ts) ← takeSlot op.sig.a ts
  let (b, ts) ← takeSlot op.sig.b ts
  let (c, ts) ← takeSlot op.sig.c ts
  let (imm, ts) ← takeImmediate labels op.sig.imm ts
  noMore ts
  let i := op.build ⟨d, a, b, c, imm⟩
  if i.wf then .ok i else .error .immOutOfRange

/-- A pseudo-instruction from its operands (R116 to R121). -/
def pseudoOf (labels : Labels) (mnemonic : List Char) (ts : List (List Char)) : Except AsmError Pseudo :=
  if mnemonic = "FZERO".toList then do
    let (d, ts) ← takeRegister .F ts
    noMore ts
    return .fzero d
  else if mnemonic = "FONE".toList then do
    let (d, ts) ← takeRegister .F ts
    noMore ts
    return .fone d
  else if mnemonic = "FSUB".toList then do
    let (d, ts) ← takeRegister .F ts
    let (a, ts) ← takeRegister .F ts
    let (b, ts) ← takeRegister .F ts
    let (m, ts) ← takeImmediate labels .m ts
    noMore ts
    if m.toNat ≤ ImmUse.m.top then .ok (.fsub d a b m) else .error .immOutOfRange
  else if mnemonic = "FISEVEN".toList then do
    let (d, ts) ← takeRegister .C ts
    let (a, ts) ← takeRegister .F ts
    noMore ts
    return .fiseven d a
  else if mnemonic = "SMUL".toList then do
    let (d, ts) ← takeRegister .S ts
    let (a, ts) ← takeRegister .S ts
    let (b, ts) ← takeRegister .S ts
    let (t, ts) ← takeRegister .W ts
    noMore ts
    return .smul d a b t
  else if mnemonic = "CMOV".toList then do
    let (d, ts) ← takeRegister .C ts
    let (a, ts) ← takeRegister .C ts
    noMore ts
    return .cmov d a
  else if mnemonic = "PSMULA".toList then do
    let (d, ts) ← takeRegister .P ts
    let (a, ts) ← takeRegister .A ts
    let (b, ts) ← takeRegister .S ts
    noMore ts
    return .psmula d a b
  else .error .unknownMnemonic

/-! ### Lines and programs -/

/-- What a line of a program holds (R113). -/
inductive Line where
  | label (name : List Char)
  | command (mnemonic : List Char) (operands : List (List Char))
deriving DecidableEq, Repr

/-- A command, if there is one: a mnemonic, case-insensitive, and operands between commas (R113). -/
def commandLine (t : List Char) : List Line :=
  if t.isEmpty then []
  else
    let mnemonic := (t.takeWhile (fun c => !isBlank c)).map Char.toUpper
    let rest := trimBlanks (t.dropWhile (fun c => !isBlank c))
    [.command mnemonic (if rest.isEmpty then [] else (splitAtChar ',' rest).map trimBlanks)]

/-- A line: the text before `;`, a label where it has a `:`, then a command, each of them optional (R113; log 18). -/
def lineOf (t : List Char) : Except AsmError (List Line) :=
  let t := trimBlanks (t.takeWhile (· != ';'))
  if t.any (· == ':') then
    let name := t.takeWhile (· != ':')
    let rest := trimBlanks ((t.dropWhile (· != ':')).drop 1)
    if name.isEmpty || name.any (fun c => isBlank c || c == ',') || rest.any (· == ':') then .error .badLabel
    else .ok (.label name :: commandLine rest)
  else .ok (commandLine t)

/-- The words a line takes. -/
def Line.words : Line → Nat
  | .label _ => 0
  | .command mnemonic _ => (pseudoWords mnemonic).getD 1

/-- The labels of a program from a word index on: each is the index of the next command (R113). -/
def labelsFrom : Nat → List Line → Except AsmError Labels
  | _, [] => .ok []
  | i, .label name :: ls => do
    let rest ← labelsFrom i ls
    if rest.any (fun l => l.1 == name) then .error .duplicateLabel else return (name, i) :: rest
  | i, l :: ls => labelsFrom (i + l.words) ls

/-- The commands of a line (R114, R116 to R122). -/
def Line.commands (labels : Labels) : Line → Except AsmError (List Instr)
  | .label _ => .ok []
  | .command mnemonic operands =>
    match opOfMnemonic mnemonic with
    | some op => do
      let i ← commandOf labels op operands
      return [i]
    | none => do
      let q ← pseudoOf labels mnemonic operands
      q.expand

/-- The commands of a program, line by line. -/
def commandsOf (labels : Labels) : List Line → Except AsmError (List Instr)
  | [] => .ok []
  | l :: ls => do
    let i ← l.commands labels
    let is ← commandsOf labels ls
    return i ++ is

/-- The lines of a text. -/
def linesOf : List (List Char) → Except AsmError (List Line)
  | [] => .ok []
  | t :: ts => do
    let l ← lineOf t
    let ls ← linesOf ts
    return l ++ ls

/-- A program text as IMEM words (R113 to R122). DESIGN CHOICE (log 18): the first command has word index 0, so labels count from
there. -/
def assemble (text : List Char) : Except AsmError (List Word) := do
  let ls ← linesOf (splitAtChar '\n' text)
  let labels ← labelsFrom 0 ls
  let is ← commandsOf labels ls
  return is.map encode

end Sys2Proof
end

