-- ==== Sys2Proof/Safety.lean ====
section
/-! DEFINITION. What counts as a sound state and a command that may run, in the terms the statements use: the invariant of
10_state.md, the entries and DMEM bytes each command names, and its contract. -/

namespace Sys2Proof.Machine

/-- The invariant of a field register: mag ≤ MAG_MAX (10_state.md R31), the magnitude invariant (R32), the normalization
invariant (R33). -/
abbrev FElem.ok (x : FElem) : Prop :=
  x.mag ≤ Config.magMax ∧ x.limb.bounded x.mag ∧ (x.norm = true → x.limb = canon x.limb.value)

/-- inf = 1 implies x = y = 0 (10_state.md R38). -/
abbrev APoint.ok (q : APoint) : Prop := q.inf = true → q.x = 0 ∧ q.y = 0

/-- The invariant of the state: what 10_state.md says of the VALID entries of each file (R32, R33, R35, R38), of the memories
(20_memory.md R70 and the canonical form), and of STATUS and the fault record (R51, R54, R55, R58). The ranges of P
and A coordinates, of C and of L hold by their types (R37, R39, R40, R41). -/
structure State.Inv (s : State) : Prop where
  build : s.build.wf
  field : ∀ i : Reg, (s.F.get i).valid = true → (s.F.get i).val.ok
  scalar : ∀ i : Reg, (s.S.get i).valid = true → (s.S.get i).val.toNat < s.build.n
  affine : ∀ i : Reg, (s.A.get i).valid = true → (s.A.get i).val.ok
  imemForm : Memory.wf s.imem
  dmemForm : Memory.wf s.dmem
  imemRange : ∀ c ∈ s.imem, c.1 < s.build.imemWords
  dmemRange : ∀ c ∈ s.dmem, c.1 < s.build.dmemBytes
  oneEnd : ¬(s.done = true ∧ s.fault = true)
  running : s.busy = true → s.done = false ∧ s.fault = false
  noFault : s.busy = true ∨ s.done = true → s.cause = 0 ∧ s.fpc = 0 ∧ s.finstr = 0
  causeCode : s.cause.toNat ≤ 7
  faultCode : s.fault = true → s.cause ≠ 0

/-- A triple that stands for the identity: on the curve, so not (0, 0, 0), with Z = 0 (10_state.md R39, 43_point.md R271). -/
abbrev PPoint.standsForIdentity (b : Fp) (q : PPoint) : Prop := q.onCurve b = true ∧ q.z = 0

/-- The conditions of 00_scope.md R10: `Build.wf`, N is prime, and N·G is the identity. Where the formulas of 43_point.md are
not complete, as for a G of order 2, they give (0, 0, 0), which stands for no point. -/
def validCurve (b : Build) : Prop :=
  b.wf ∧ b.n.Prime ∧ (smul b.b (PPoint.generator b) (BitVec.ofNat 256 b.n)).standsForIdentity b.b

/-- An entry of a register file. -/
abbrev Entry := File × Reg

/-- The VALID bit of an entry (10_state.md R43). -/
def State.validAt (s : State) : Entry → Bool
  | (.F, i) => (s.F.get i).valid
  | (.S, i) => (s.S.get i).valid
  | (.W, i) => (s.W.get i).valid
  | (.A, i) => (s.A.get i).valid
  | (.P, i) => (s.P.get i).valid
  | (.C, i) => (s.C.get i).valid
  | (.L, i) => (s.L.get i).valid

/-- An entry, VALID bit and contents, is the same in two states. -/
def State.sameAt (s t : State) : Entry → Prop
  | (.F, i) => s.F.get i = t.F.get i
  | (.S, i) => s.S.get i = t.S.get i
  | (.W, i) => s.W.get i = t.W.get i
  | (.A, i) => s.A.get i = t.A.get i
  | (.P, i) => s.P.get i = t.P.get i
  | (.C, i) => s.C.get i = t.C.get i
  | (.L, i) => s.L.get i = t.L.get i

/-- All seven register files are the same in two states. -/
def State.sameFiles (s t : State) : Prop :=
  s.F = t.F ∧ s.S = t.S ∧ s.W = t.W ∧ s.A = t.A ∧ s.P = t.P ∧ s.C = t.C ∧ s.L = t.L

/-- The source registers of a command in slot order a, b, c (30_encoding.md R108, 60_exceptions.md R341); LOOP reads its
counter (40_control.md R135). -/
def sources : Instr → List Entry
  | .nop => []
  | .halt => []
  | .jmp _ => []
  | .ldlc _ _ => []
  | .loop d _ => [(.L, d)]
  | .cldi _ _ => []
  | .cnot _ a => [(.C, a)]
  | .cand _ a b => [(.C, a), (.C, b)]
  | .cor _ a b => [(.C, a), (.C, b)]
  | .cxor _ a b => [(.C, a), (.C, b)]
  | .fldb _ _ _ => []
  | .fldbu _ _ => []
  | .fstb a _ => [(.F, a)]
  | .fldi _ _ => []
  | .fmov _ a => [(.F, a)]
  | .fadd _ a b => [(.F, a), (.F, b)]
  | .fmuls _ a _ => [(.F, a)]
  | .fneg _ a _ => [(.F, a)]
  | .fmul _ a b => [(.F, a), (.F, b)]
  | .fsqr _ a => [(.F, a)]
  | .fnorm _ a => [(.F, a)]
  | .fnormw _ a => [(.F, a)]
  | .fsel _ a b c => [(.F, a), (.F, b), (.C, c)]
  | .feq _ a b => [(.F, a), (.F, b)]
  | .fisz _ a => [(.F, a)]
  | .fisodd _ a => [(.F, a)]
  | .finv _ a => [(.F, a)]
  | .fsqrt _ a _ => [(.F, a)]
  | .sldb _ _ _ => []
  | .sstb a _ => [(.S, a)]
  | .sldi _ _ => []
  | .smov _ a => [(.S, a)]
  | .sadd _ a b => [(.S, a), (.S, b)]
  | .smulw _ a b => [(.S, a), (.S, b)]
  | .sred _ a => [(.W, a)]
  | .wldb _ _ => []
  | .seq _ a b => [(.S, a), (.S, b)]
  | .slt _ a b => [(.S, a), (.S, b)]
  | .ssel _ a b c => [(.S, a), (.S, b), (.C, c)]
  | .wstb a _ => [(.W, a)]
  | .amk _ a b => [(.F, a), (.F, b)]
  | .aid _ => []
  | .agen _ => []
  | .agetx _ a => [(.A, a)]
  | .agety _ a => [(.A, a)]
  | .aisid _ a => [(.A, a)]
  | .aeq _ a b => [(.A, a), (.A, b)]
  | .asel _ a b c => [(.A, a), (.A, b), (.C, c)]
  | .aonc _ a => [(.A, a)]
  | .amov _ a => [(.A, a)]
  | .pa2p _ a => [(.A, a)]
  | .ptoa _ a => [(.P, a)]
  | .pid _ => []
  | .pgen _ => []
  | .pisid _ a => [(.P, a)]
  | .psel _ a b c => [(.P, a), (.P, b), (.C, c)]
  | .pmov _ a => [(.P, a)]
  | .pdbl _ a => [(.P, a)]
  | .padd _ a b => [(.P, a), (.P, b)]
  | .pmadd _ a b => [(.P, a), (.A, b)]
  | .psmul _ a b => [(.P, a), (.S, b)]

/-- The destination registers of a command (30_encoding.md R108). -/
def dests : Instr → List Entry
  | .nop => []
  | .halt => []
  | .jmp _ => []
  | .ldlc d _ => [(.L, d)]
  | .loop d _ => [(.L, d)]
  | .cldi d _ => [(.C, d)]
  | .cnot d _ => [(.C, d)]
  | .cand d _ _ => [(.C, d)]
  | .cor d _ _ => [(.C, d)]
  | .cxor d _ _ => [(.C, d)]
  | .fldb d a _ => [(.F, d), (.C, a)]
  | .fldbu d _ => [(.F, d)]
  | .fstb _ _ => []
  | .fldi d _ => [(.F, d)]
  | .fmov d _ => [(.F, d)]
  | .fadd d _ _ => [(.F, d)]
  | .fmuls d _ _ => [(.F, d)]
  | .fneg d _ _ => [(.F, d)]
  | .fmul d _ _ => [(.F, d)]
  | .fsqr d _ => [(.F, d)]
  | .fnorm d _ => [(.F, d)]
  | .fnormw d _ => [(.F, d)]
  | .fsel d _ _ _ => [(.F, d)]
  | .feq d _ _ => [(.C, d)]
  | .fisz d _ => [(.C, d)]
  | .fisodd d _ => [(.C, d)]
  | .finv d _ => [(.F, d)]
  | .fsqrt d _ c => [(.F, d), (.C, c)]
  | .sldb d a _ => [(.S, d), (.C, a)]
  | .sstb _ _ => []
  | .sldi d _ => [(.S, d)]
  | .smov d _ => [(.S, d)]
  | .sadd d _ _ => [(.S, d)]
  | .smulw d _ _ => [(.W, d)]
  | .sred d _ => [(.S, d)]
  | .wldb d _ => [(.W, d)]
  | .seq d _ _ => [(.C, d)]
  | .slt d _ _ => [(.C, d)]
  | .ssel d _ _ _ => [(.S, d)]
  | .wstb _ _ => []
  | .amk d _ _ => [(.A, d)]
  | .aid d => [(.A, d)]
  | .agen d => [(.A, d)]
  | .agetx d _ => [(.F, d)]
  | .agety d _ => [(.F, d)]
  | .aisid d _ => [(.C, d)]
  | .aeq d _ _ => [(.C, d)]
  | .asel d _ _ _ => [(.A, d)]
  | .aonc d _ => [(.C, d)]
  | .amov d _ => [(.A, d)]
  | .pa2p d _ => [(.P, d)]
  | .ptoa d _ => [(.A, d)]
  | .pid d => [(.P, d)]
  | .pgen d => [(.P, d)]
  | .pisid d _ => [(.C, d)]
  | .psel d _ _ _ => [(.P, d)]
  | .pmov d _ => [(.P, d)]
  | .pdbl d _ => [(.P, d)]
  | .padd d _ _ => [(.P, d)]
  | .pmadd d _ _ => [(.P, d)]
  | .psmul d _ _ => [(.P, d)]

/-- The DMEM access of a command: first address and length in bytes (20_memory.md R79). No other command touches DMEM. -/
def dataAccess : Instr → Option (Nat × Nat)
  | .nop => none
  | .halt => none
  | .jmp _ => none
  | .ldlc _ _ => none
  | .loop _ _ => none
  | .cldi _ _ => none
  | .cnot _ _ => none
  | .cand _ _ _ => none
  | .cor _ _ _ => none
  | .cxor _ _ _ => none
  | .fldb _ _ addr => some (addr.toNat, 28)
  | .fldbu _ addr => some (addr.toNat, 28)
  | .fstb _ addr => some (addr.toNat, 28)
  | .fldi _ _ => none
  | .fmov _ _ => none
  | .fadd _ _ _ => none
  | .fmuls _ _ _ => none
  | .fneg _ _ _ => none
  | .fmul _ _ _ => none
  | .fsqr _ _ => none
  | .fnorm _ _ => none
  | .fnormw _ _ => none
  | .fsel _ _ _ _ => none
  | .feq _ _ _ => none
  | .fisz _ _ => none
  | .fisodd _ _ => none
  | .finv _ _ => none
  | .fsqrt _ _ _ => none
  | .sldb _ _ addr => some (addr.toNat, 32)
  | .sstb _ addr => some (addr.toNat, 32)
  | .sldi _ _ => none
  | .smov _ _ => none
  | .sadd _ _ _ => none
  | .smulw _ _ _ => none
  | .sred _ _ => none
  | .wldb _ addr => some (addr.toNat, 64)
  | .seq _ _ _ => none
  | .slt _ _ _ => none
  | .ssel _ _ _ _ => none
  | .wstb _ addr => some (addr.toNat, 64)
  | .amk _ _ _ => none
  | .aid _ => none
  | .agen _ => none
  | .agetx _ _ => none
  | .agety _ _ => none
  | .aisid _ _ => none
  | .aeq _ _ _ => none
  | .asel _ _ _ _ => none
  | .aonc _ _ => none
  | .amov _ _ => none
  | .pa2p _ _ => none
  | .ptoa _ _ => none
  | .pid _ => none
  | .pgen _ => none
  | .pisid _ _ => none
  | .psel _ _ _ _ => none
  | .pmov _ _ => none
  | .pdbl _ _ => none
  | .padd _ _ _ => none
  | .pmadd _ _ _ => none
  | .psmul _ _ _ => none

/-- The DMEM bytes a command stores to: first address and length (20_memory.md R79). -/
def dataStore : Instr → Option (Nat × Nat)
  | .nop => none
  | .halt => none
  | .jmp _ => none
  | .ldlc _ _ => none
  | .loop _ _ => none
  | .cldi _ _ => none
  | .cnot _ _ => none
  | .cand _ _ _ => none
  | .cor _ _ _ => none
  | .cxor _ _ _ => none
  | .fldb _ _ _ => none
  | .fldbu _ _ => none
  | .fstb _ addr => some (dataAddr addr, 28)
  | .fldi _ _ => none
  | .fmov _ _ => none
  | .fadd _ _ _ => none
  | .fmuls _ _ _ => none
  | .fneg _ _ _ => none
  | .fmul _ _ _ => none
  | .fsqr _ _ => none
  | .fnorm _ _ => none
  | .fnormw _ _ => none
  | .fsel _ _ _ _ => none
  | .feq _ _ _ => none
  | .fisz _ _ => none
  | .fisodd _ _ => none
  | .finv _ _ => none
  | .fsqrt _ _ _ => none
  | .sldb _ _ _ => none
  | .sstb _ addr => some (dataAddr addr, 32)
  | .sldi _ _ => none
  | .smov _ _ => none
  | .sadd _ _ _ => none
  | .smulw _ _ _ => none
  | .sred _ _ => none
  | .wldb _ _ => none
  | .seq _ _ _ => none
  | .slt _ _ _ => none
  | .ssel _ _ _ _ => none
  | .wstb _ addr => some (dataAddr addr, 64)
  | .amk _ _ _ => none
  | .aid _ => none
  | .agen _ => none
  | .agetx _ _ => none
  | .agety _ _ => none
  | .aisid _ _ => none
  | .aeq _ _ _ => none
  | .asel _ _ _ _ => none
  | .aonc _ _ => none
  | .amov _ _ => none
  | .pa2p _ _ => none
  | .ptoa _ _ => none
  | .pid _ => none
  | .pgen _ => none
  | .pisid _ _ => none
  | .psel _ _ _ _ => none
  | .pmov _ _ => none
  | .pdbl _ _ => none
  | .padd _ _ _ => none
  | .pmadd _ _ _ => none
  | .psmul _ _ _ => none

/-- The DMEM access of a command lies inside DMEM (20_memory.md R76). -/
abbrev inDmem (i : Instr) (s : State) : Prop := ∀ r ∈ dataAccess i, r.1 + r.2 ≤ s.build.dmemBytes

/-- Every source register of a command is VALID (60_exceptions.md R341). -/
abbrev sourcesValid (i : Instr) (s : State) : Prop := ∀ e ∈ sources i, s.validAt e = true

end Sys2Proof.Machine
end

