-- ==== Sys2Proof/Certificates/Slice0/Obligations.lean ====
section
/-! DEFINITION. The statements for the provers. Each docstring names the rules it rests on. A next state is written as an update
of the state before, so that a statement says everything a command changes and that nothing else changes. -/

namespace Sys2Proof.Claims

open Sys2Proof.Machine

/-- A register file with an entry written and its VALID bit set (10_state.md R43). -/
abbrev put {α : Type} (r : RegFile α) (d : Reg) (v : α) : RegFile α := r.set d.val ⟨true, v⟩ d.isLt

/-- The integer that n bytes of DMEM encode, the byte at the lowest address the most significant (20_memory.md R73, R74). -/
def beValue (s : State) (a n : Nat) : Nat :=
  ∑ k ∈ Finset.range n, (s.dmemByte (a + k)).toNat * 256 ^ (n - 1 - k)

/-- What fault entry leaves, with the code of the exception (60_exceptions.md R340, R350). -/
abbrev faulted (s : State) (code : BitVec 8) : State :=
  { s with busy := false, fault := true, cause := code, fpc := s.pc, finstr := s.imemWord s.pc.toNat }

/-- The next turn is the core's. -/
abbrev coreMoves (s : State) : Prop := s.env.moves = [] ∨ ∃ rest, s.env.moves = .core :: rest

/-- The state in which a running core executes the command at pc: the turn is off the script, and pc is one of the pcs the
run has reached (log 5, log 6). Nothing of the block differs. -/
abbrev atCommand (s : State) : State := { s with env := { s.env with
  moves := s.env.moves.tail
  reached := if s.pc ∈ s.env.reached then s.env.reached else s.pc :: s.env.reached } }

/-- The next turn is a 32-bit host write to the register at an offset. -/
abbrev registerWrite (s : State) (off : Nat) (d : BitVec 32) : Prop :=
  ∃ rest, s.env.moves = .write (s.build.hostBase + off) 4 d :: rest

/-- The next turn is a host write of START (10_state.md R50, 60_exceptions.md R371). -/
abbrev startWrite (s : State) : Prop :=
  ∃ d, registerWrite s 0x8 d ∧ d.getLsbD 0 = true ∧ d.getLsbD 2 = false

/-- The next turn is a host write of SRST (10_state.md R50, 70_reset_and_hazards.md R391). -/
abbrev resetWrite (s : State) : Prop := ∃ d, registerWrite s 0x8 d ∧ d.getLsbD 2 = true

/-- The next turn is a power-on reset (70_reset_and_hazards.md R390; log 6). -/
abbrev powerOnMove (s : State) : Prop := ∃ draw rest, s.env.moves = .powerOn draw :: rest

/-- The residue a field register stands for, and its contents. -/
abbrev F (s : State) (a : Reg) : FElem := (s.F.get a).val

/-- The FMUL class of 41_field.md R162: bounded by magnitude 1, standing for r, mag 1, norm 0. -/
abbrev standsFor (x : FElem) (r : Nat) : Prop :=
  x.limb.bounded 1 ∧ x.residue = r ∧ x.mag = 1 ∧ x.norm = false

/-- env after a command that used up a bit of the script of R162's choice (log 4). -/
abbrev usedChoice (s : State) : Env := { s.env with redundant := s.env.redundant.tail }

/-- The commands of the FMUL class (41_field.md R162). -/
def multiplierOps : List Op := [.fmul, .fsqr, .finv, .fsqrt, .fnormw]

/-- The rows of spec/opcode_table.json: command, match, mask, and the largest legal imm16 (30_encoding.md R105). -/
structure Row where
  op : Op
  pattern : Word
  mask : Word
  immTop : Nat

def rowsControl : List Row :=
  [⟨.nop, 0x02000000, 0xFFFFFFFF, 0xFFFF⟩,
   ⟨.halt, 0x04000000, 0xFFFFFFFF, 0xFFFF⟩,
   ⟨.jmp, 0x06000000, 0xFFFF0000, 0xFFFF⟩,
   ⟨.ldlc, 0x08000000, 0xFE1F0000, 0xFFFF⟩,
   ⟨.loop, 0x0A000000, 0xFE1F0000, 0xFFFF⟩,
   ⟨.cldi, 0x10000000, 0xFE1F0000, 1⟩,
   ⟨.cnot, 0x12000000, 0xFE01FFFF, 0xFFFF⟩,
   ⟨.cand, 0x14000000, 0xFE001FFF, 0xFFFF⟩,
   ⟨.cor, 0x16000000, 0xFE001FFF, 0xFFFF⟩,
   ⟨.cxor, 0x18000000, 0xFE001FFF, 0xFFFF⟩]

def rowsField : List Row :=
  [⟨.fldb, 0x20000000, 0xFE010000, 0xFFFF⟩,
   ⟨.fldbu, 0x22000000, 0xFE1F0000, 0xFFFF⟩,
   ⟨.fstb, 0x24000000, 0xFFE10000, 0xFFFF⟩,
   ⟨.fldi, 0x26000000, 0xFE1F0000, 0xFFFF⟩,
   ⟨.fmov, 0x28000000, 0xFE01FFFF, 0xFFFF⟩,
   ⟨.fadd, 0x2A000000, 0xFE001FFF, 0xFFFF⟩,
   ⟨.fmuls, 0x2C000000, 0xFE010000, 32⟩,
   ⟨.fneg, 0x2E000000, 0xFE010000, 31⟩,
   ⟨.fmul, 0x30000000, 0xFE001FFF, 0xFFFF⟩,
   ⟨.fsqr, 0x32000000, 0xFE01FFFF, 0xFFFF⟩,
   ⟨.fnorm, 0x34000000, 0xFE01FFFF, 0xFFFF⟩,
   ⟨.fnormw, 0x36000000, 0xFE01FFFF, 0xFFFF⟩,
   ⟨.fsel, 0x38000000, 0xFE0001FF, 0xFFFF⟩,
   ⟨.feq, 0x3A000000, 0xFE001FFF, 0xFFFF⟩,
   ⟨.fisz, 0x3C000000, 0xFE01FFFF, 0xFFFF⟩,
   ⟨.fisodd, 0x3E000000, 0xFE01FFFF, 0xFFFF⟩,
   ⟨.finv, 0x40000000, 0xFE01FFFF, 0xFFFF⟩,
   ⟨.fsqrt, 0x42000000, 0xFE01E1FF, 0xFFFF⟩]

def rowsScalar : List Row :=
  [⟨.sldb, 0x60000000, 0xFE010000, 0xFFFF⟩,
   ⟨.sstb, 0x62000000, 0xFFE10000, 0xFFFF⟩,
   ⟨.sldi, 0x64000000, 0xFE1F0000, 0xFFFF⟩,
   ⟨.smov, 0x66000000, 0xFE01FFFF, 0xFFFF⟩,
   ⟨.sadd, 0x68000000, 0xFE001FFF, 0xFFFF⟩,
   ⟨.smulw, 0x6A000000, 0xFE001FFF, 0xFFFF⟩,
   ⟨.sred, 0x6C000000, 0xFE01FFFF, 0xFFFF⟩,
   ⟨.wldb, 0x6E000000, 0xFE1F0000, 0xFFFF⟩,
   ⟨.seq, 0x70000000, 0xFE001FFF, 0xFFFF⟩,
   ⟨.slt, 0x72000000, 0xFE001FFF, 0xFFFF⟩,
   ⟨.ssel, 0x74000000, 0xFE0001FF, 0xFFFF⟩,
   ⟨.wstb, 0x76000000, 0xFFE10000, 0xFFFF⟩]

def rowsAffine : List Row :=
  [⟨.amk, 0x80000000, 0xFE001FFF, 0xFFFF⟩,
   ⟨.aid, 0x82000000, 0xFE1FFFFF, 0xFFFF⟩,
   ⟨.agen, 0x84000000, 0xFE1FFFFF, 0xFFFF⟩,
   ⟨.agetx, 0x86000000, 0xFE01FFFF, 0xFFFF⟩,
   ⟨.agety, 0x88000000, 0xFE01FFFF, 0xFFFF⟩,
   ⟨.aisid, 0x8A000000, 0xFE01FFFF, 0xFFFF⟩,
   ⟨.aeq, 0x8C000000, 0xFE001FFF, 0xFFFF⟩,
   ⟨.asel, 0x8E000000, 0xFE0001FF, 0xFFFF⟩,
   ⟨.aonc, 0x90000000, 0xFE01FFFF, 0xFFFF⟩,
   ⟨.amov, 0x92000000, 0xFE01FFFF, 0xFFFF⟩]

def rowsProjective : List Row :=
  [⟨.pa2p, 0xA0000000, 0xFE01FFFF, 0xFFFF⟩,
   ⟨.ptoa, 0xA2000000, 0xFE01FFFF, 0xFFFF⟩,
   ⟨.pid, 0xA4000000, 0xFE1FFFFF, 0xFFFF⟩,
   ⟨.pgen, 0xA6000000, 0xFE1FFFFF, 0xFFFF⟩,
   ⟨.pisid, 0xA8000000, 0xFE01FFFF, 0xFFFF⟩,
   ⟨.psel, 0xAA000000, 0xFE0001FF, 0xFFFF⟩,
   ⟨.pmov, 0xAC000000, 0xFE01FFFF, 0xFFFF⟩,
   ⟨.pdbl, 0xAE000000, 0xFE01FFFF, 0xFFFF⟩,
   ⟨.padd, 0xB0000000, 0xFE001FFF, 0xFFFF⟩,
   ⟨.pmadd, 0xB2000000, 0xFE001FFF, 0xFFFF⟩,
   ⟨.psmul, 0xB4000000, 0xFE001FFF, 0xFFFF⟩]

def opcodeTable : List Row := rowsControl ++ rowsField ++ rowsScalar ++ rowsAffine ++ rowsProjective

/-- Words the spec writes out, with the commands they stand for: the examples of 40_control.md, 41_field.md, 42_scalar.md and
43_point.md. -/
def specWords : List (Word × Instr) :=
  [(0x02000000, .nop), (0x04000000, .halt), (0x0600000A, .jmp 10), (0x08400005, .ldlc 2 5), (0x0A000004, .loop 0 4),
   (0x10200001, .cldi 1 1), (0x14624000, .cand 3 1 2), (0x20200040, .fldb 1 0 0x40), (0x24060080, .fstb 3 0x80),
   (0x2A624000, .fadd 3 1 2), (0x2CA20003, .fmuls 5 1 3), (0x39624200, .fsel 11 1 2 1), (0x43A20A00, .fsqrt 13 1 5),
   (0x60200100, .sldb 1 0 0x100), (0x6A226000, .smulw 1 1 3), (0x76020240, .wstb 1 0x240), (0x74E26200, .ssel 7 1 3 1),
   (0x80224000, .amk 1 1 2), (0x8E624200, .asel 3 1 2 1), (0xA2A20000, .ptoa 5 1), (0xB2E44000, .pmadd 7 2 2),
   (0xB5046000, .psmul 8 2 3)]

/-- R110's reserved opcodes. -/
def reservedOpcode (n : Nat) : Bool :=
  n == 0 || n == 6 || n == 7 || (0x0D ≤ n && n ≤ 0x0F) || (0x22 ≤ n && n ≤ 0x2F) || (0x3C ≤ n && n ≤ 0x3F) ||
    (0x4A ≤ n && n ≤ 0x4F) || (0x5B ≤ n && n ≤ 0x7F)

/-- The closed form of 43_point.md R276 (ADD): the formula lines multiplied out. -/
def addForm (b : Fp) (q r : PPoint) : PPoint :=
  let xy := q.x * r.y + r.x * q.y
  let yz := q.y * r.z + r.y * q.z
  let xz := q.x * r.z + r.x * q.z
  let lo := q.y * r.y - 3 * b * (q.z * r.z)
  let hi := q.y * r.y + 3 * b * (q.z * r.z)
  ⟨xy * lo - 3 * b * (yz * xz), hi * lo + 9 * b * (q.x * r.x * xz), yz * hi + 3 * (q.x * r.x * xy)⟩

/-- The closed form of 43_point.md R275 (DBL). -/
def dblForm (b : Fp) (q : PPoint) : PPoint :=
  let yy := q.y * q.y
  let t := 3 * b * (q.z * q.z)
  ⟨2 * ((yy - 3 * t) * (q.x * q.y)), 8 * (t * yy) + (yy - 3 * t) * (yy + t), 8 * (yy * (q.y * q.z))⟩

/-- The curve equation of 43_point.md R271, projective. -/
def onEquation (b : Fp) (q : PPoint) : Prop := q.y * q.y * q.z = q.x * q.x * q.x + b * (q.z * q.z * q.z)

/-- onP of 43_point.md R271. -/
def onP (b : Fp) (q : PPoint) : Prop := onEquation b q ∧ ¬(q.x = 0 ∧ q.y = 0 ∧ q.z = 0)

/-- onA of 43_point.md R271. -/
def onA (b : Fp) (q : APoint) : Prop := q.inf = true ∨ q.y * q.y = q.x * q.x * q.x + b

/-- The offsets the core alone uses while BUSY = 1 (20_memory.md R82, R85): ENTRY, the IMEM window, the DMEM window. -/
def idleOnlyOffset (b : Build) (off : Nat) : Prop :=
  off = 0x10 ∨ (0x40000 ≤ off ∧ off < 0x40000 + 4 * b.imemWords) ∨ (0x80000 ≤ off ∧ off < 0x80000 + b.dmemBytes)

/-- The next turn is a host access that 60_exceptions.md R370 refuses: not 4 bytes at a multiple of 4, or ENTRY, IMEM or DMEM
while BUSY = 1, or START while BUSY = 1. (At a reserved offset its item 3 is read for every access: log 11.) -/
def refusedAccess (s : State) : Prop :=
  (∃ (off bytes : Nat) (rest : List HostMove), off < 2 ^ 20 ∧
      (s.env.moves = .read (s.build.hostBase + off) bytes :: rest ∨
        ∃ d, s.env.moves = .write (s.build.hostBase + off) bytes d :: rest) ∧
      (bytes ≠ 4 ∨ off % 4 ≠ 0 ∨ (s.busy = true ∧ idleOnlyOffset s.build off))) ∨
    (s.busy = true ∧ startWrite s)

/-- The offsets that hold nothing (10_state.md R59, 20_memory.md R82). -/
def reservedOffset (b : Build) (off : Nat) : Prop :=
  (0x24 ≤ off ∧ off < 0x40000) ∨ (0x40000 + 4 * b.imemWords ≤ off ∧ off < 0x80000) ∨
    (0x80000 + b.dmemBytes ≤ off ∧ off < 2 ^ 20)

/-- The offsets of the read-only registers ID, CONFIG, PCR, CAUSE, FPC and FINSTR (10_state.md R49). -/
def readOnlyOffset (off : Nat) : Prop := off = 0x0 ∨ off = 0x4 ∨ off = 0x14 ∨ off = 0x18 ∨ off = 0x1C ∨ off = 0x20

/-- Two states in which a run begins alike: the same program and pc, the same loop counters where an earlier run left any
VALID, BUSY, no fault, no host access to come. Everything else may differ. -/
structure SameProgram (s t : State) : Prop where
  size : s.build.imemLog2 = t.build.imemLog2
  imem : s.imem = t.imem
  draw : s.env.powerOn = t.env.powerOn
  pc : s.pc = t.pc
  counters : ∀ i : Reg, s.L.get i = t.L.get i ∨ (s.L.get i).valid = false ∧ (t.L.get i).valid = false
  busy : s.busy = t.busy
  noMoves : s.env.moves = [] ∧ t.env.moves = []
  noFault : s.fault = false ∧ t.fault = false

end Sys2Proof.Claims

open Sys2Proof Sys2Proof.Machine Sys2Proof.Claims

/-- Decoding the word of a well-formed command gives the command back. Rests on 30_encoding.md R101, 30_encoding.md
R102, 30_encoding.md R106, 30_encoding.md R108, 30_encoding.md R115 (derived). -/
def Obligations.DecodeOfEncodeIsTheCommand : Prop :=
  ∀ i : Instr, i.wf = true → decode (encode i) = .ok i

/-- A word that decodes is the encoding of the command it decodes to. Rests on 30_encoding.md R101, 30_encoding.md R102,
30_encoding.md R103, 30_encoding.md R106, 30_encoding.md R110 (derived). -/
def Obligations.EncodeOfDecodeIsTheWord : Prop :=
  ∀ (w : Word) (i : Instr), decode w = .ok i → i.wf = true ∧ encode i = w

/-- A word is legal exactly when it matches its row of the opcode table, and its fields are the operands. Rests on
30_encoding.md R106. -/
def Obligations.LegalWordsAreThoseOfTheTable : Prop :=
  opcodeTable.map (fun r => r.op) = Op.all ∧
    ∀ r ∈ opcodeTable, ∀ w : Word,
      ((w &&& r.mask = r.pattern ∧ (w.extractLsb' 0 16).toNat ≤ r.immTop) ↔ ∃ i : Instr, decode w = .ok i ∧ i.op = r.op) ∧
      ∀ i : Instr, decode w = .ok i → i.op = r.op →
        i.fields.d.val = w.toNat / 2 ^ 21 % 16 ∧ i.fields.a.val = w.toNat / 2 ^ 17 % 16 ∧
        (r.op.sig.layout = .R → i.fields.b.val = w.toNat / 2 ^ 13 % 16 ∧ i.fields.c.val = w.toNat / 2 ^ 9 % 16) ∧
        (r.op.sig.layout = .I → i.fields.imm.toNat = w.toNat % 2 ^ 16)

/-- The words the spec writes out decode to the commands it writes beside them. Rests on 30_encoding.md R115,
30_encoding.md section 1, 95_test_vectors.md section 2 (derived). -/
def Obligations.SpecExampleWordsDecode : Prop :=
  ∀ c ∈ specWords, decode c.1 = .ok c.2

/-- Every word with a reserved opcode is illegal, and every other opcode has a legal word. Rests on 30_encoding.md R109,
R110 (derived). -/
def Obligations.ReservedOpcodesAreIllegal : Prop :=
  ∀ w : Word, (reservedOpcode (w.extractLsb' 25 7).toNat = true → ∀ i, decode w ≠ .ok i) ∧
    (reservedOpcode (w.extractLsb' 25 7).toNat = false →
      ∃ (w' : Word) (i : Instr), w'.extractLsb' 25 7 = w.extractLsb' 25 7 ∧ decode w' = .ok i)

/-- A step of the running core executes the command at pc. Rests on 40_control.md R130 (derived). -/
def Obligations.StepRunsTheDecodedCommand : Prop :=
  ∀ (s : State) (i : Instr), s.busy = true → coreMoves s → s.pc.toNat < s.build.imemWords →
    decode (s.imemWord s.pc.toNat) = .ok i →
    step s = exec i (atCommand s)

/-- A fetch beyond IMEM is E_FETCH, an illegal word is E_ILLEGAL, and both are taken. Rests on 60_exceptions.md R342,
60_exceptions.md R343. -/
def Obligations.FetchFaultsAndIllegalWordsAreTaken : Prop :=
  ∀ s : State, s.busy = true → coreMoves s →
    (s.build.imemWords ≤ s.pc.toNat → step s = .next { atCommand s with
      busy := false, fault := true, cause := 2, fpc := s.pc, finstr := 0 }) ∧
    (s.pc.toNat < s.build.imemWords → (∀ i, decode (s.imemWord s.pc.toNat) ≠ .ok i) →
      step s = .next (faulted (atCommand s) 1))

/-- An idle core executes nothing and keeps its state until the host writes START or SRST. Rests on 60_exceptions.md
R351, 60_exceptions.md R381 (derived). R381 says what an idle core does, R351 the same of a faulted one; that the idle
turn is a step, after which only the script has moved on, is the model's choice (log 8, DEDUCED). -/
def Obligations.IdleCoreWaitsForTheHost : Prop :=
  ∀ s : State, s.busy = false →
    (coreMoves s → step s = .next { s with env := { s.env with moves := s.env.moves.tail } }) ∧
    ∀ t : State, step s = .next t → t.busy = true → startWrite s

/-- The machine never stops: every step has a next state. Rests on 40_control.md R130, 60_exceptions.md R350,
30_encoding.md R106, 60_exceptions.md R381 (derived). That the turn of an idle core (R381) is a step too, and so answers
a next state, is the model's choice (log 8, DEDUCED). -/
def Obligations.EveryStepAnswersANextState : Prop :=
  ∀ s : State, ∃ t : State, step s = .next t

/-- A command that raises an exception writes only the fault record and STATUS. Rests on 60_exceptions.md R350. -/
def Obligations.FaultEntryIsPrecise : Prop :=
  (∀ (i : Instr) (s t : State), exec i s = .next t → s.fault = false → t.fault = true →
      ∃ c ∈ ([3, 4, 5, 6, 7] : List (BitVec 8)), t = faulted s c) ∧
    ∀ s t : State, s.busy = true → coreMoves s → step s = .next t → s.fault = false → t.fault = true →
      (∃ c ∈ ([1, 2, 3, 4, 5, 6, 7] : List (BitVec 8)), t = { atCommand s with
        busy := false, fault := true, cause := c, fpc := s.pc
        finstr := if c = 2 then 0 else s.imemWord s.pc.toNat }) ∧
      (s.irqEn = true → t.irq = true)

/-- A command takes E_UNINIT exactly when one of its source registers is not VALID. Rests on 60_exceptions.md R341. -/
def Obligations.UninitializedSourceFaults : Prop :=
  ∀ (i : Instr) (s : State), inDmem i s → s.fault = false → (exec i s = .next (faulted s 4) ↔ ¬ sourcesValid i s)

/-- A load or store takes E_DADDR exactly when it leaves DMEM, before any register is read. Rests on 60_exceptions.md
R344. -/
def Obligations.DataRangeIsCheckedFirst : Prop :=
  ∀ (i : Instr) (s : State), s.fault = false → (exec i s = .next (faulted s 3) ↔ ¬ inDmem i s)

/-- A command takes E_MAG exactly when its magnitude precondition fails. Rests on 60_exceptions.md R345,
60_exceptions.md R346 (derived). In a CHECKED = 0 build the hardware tests nothing, and the fault is the reading of
undefined results that R345 gives a model (log 8). FMULS with k above 32 and FNEG with m above 31 have no word; what
exec does with them is the model's choice (log 17). -/
def Obligations.MagnitudeContractsFault : Prop :=
  ∀ (s : State) (d a b c : Reg) (k m : Imm), s.fault = false → s.validAt (.F, a) = true →
    (s.validAt (.F, b) = true →
      (exec (.fadd d a b) s = .next (faulted s 5) ↔ 32 < (F s a).mag + (F s b).mag) ∧
      (exec (.fmul d a b) s = .next (faulted s 5) ↔ (8 < (F s a).mag ∨ 8 < (F s b).mag))) ∧
    (exec (.fmuls d a k) s = .next (faulted s 5) ↔ 32 < (F s a).mag * k.toNat) ∧
    (exec (.fneg d a m) s = .next (faulted s 5) ↔ m.toNat < (F s a).mag) ∧
    (exec (.fsqr d a) s = .next (faulted s 5) ↔ 8 < (F s a).mag) ∧
    (exec (.finv d a) s = .next (faulted s 5) ↔ 8 < (F s a).mag) ∧
    (exec (.fsqrt d a c) s = .next (faulted s 5) ↔ 8 < (F s a).mag)

/-- A command takes E_NORM exactly when its normalization precondition fails. Rests on 60_exceptions.md R345,
60_exceptions.md R347 (derived). In a CHECKED = 0 build the hardware tests nothing, and the fault is the reading of
undefined results that R345 gives a model (log 8). -/
def Obligations.NormalizationContractsFault : Prop :=
  ∀ (s : State) (d a b : Reg) (addr : Imm), s.fault = false →
    (s.validAt (.F, a) = true →
      (addr.toNat + 28 ≤ s.build.dmemBytes → (exec (.fstb a addr) s = .next (faulted s 6) ↔ (F s a).norm = false)) ∧
      (exec (.fisz d a) s = .next (faulted s 6) ↔ (F s a).norm = false) ∧
      (exec (.fisodd d a) s = .next (faulted s 6) ↔ (F s a).norm = false) ∧
      (s.validAt (.F, b) = true →
        (exec (.feq d a b) s = .next (faulted s 6) ↔ ((F s a).norm = false ∨ (F s b).norm = false)) ∧
        (exec (.amk d a b) s = .next (faulted s 6) ↔ ((F s a).norm = false ∨ (F s b).norm = false)))) ∧
    (addr.toNat + 28 ≤ s.build.dmemBytes →
      (exec (.fldbu d addr) s = .next (faulted s 6) ↔ Config.p ≤ beValue s addr.toNat 28))

/-- A group command takes E_CURVE exactly when an operand is off the curve. Rests on 43_point.md R271, 43_point.md R272,
60_exceptions.md R345, 60_exceptions.md R348 (derived). In a CHECKED = 0 build the hardware tests nothing, and the fault
is the reading of undefined results that R345 gives a model (log 8). -/
def Obligations.CurveContractFaults : Prop :=
  ∀ (s : State) (d a b : Reg), s.fault = false → s.validAt (.P, a) = true →
    (exec (.pdbl d a) s = .next (faulted s 7) ↔ ¬ onP s.build.b (s.P.get a).val) ∧
    (s.validAt (.S, b) = true → (exec (.psmul d a b) s = .next (faulted s 7) ↔ ¬ onP s.build.b (s.P.get a).val)) ∧
    (s.validAt (.P, b) = true → (exec (.padd d a b) s = .next (faulted s 7) ↔
      ¬ (onP s.build.b (s.P.get a).val ∧ onP s.build.b (s.P.get b).val))) ∧
    (s.validAt (.A, b) = true → (exec (.pmadd d a b) s = .next (faulted s 7) ↔
      ¬ (onP s.build.b (s.P.get a).val ∧ onA s.build.b (s.A.get b).val)))

/-- Every command leaves every register entry outside its destinations unchanged. Rests on 10_state.md R44, 41_field.md
R165, 42_scalar.md R234, 30_encoding.md R108 (derived). -/
def Obligations.RegistersOutsideTheDestinationsAreUnchanged : Prop :=
  ∀ (i : Instr) (s t : State), exec i s = .next t → ∀ e : Entry, e ∉ dests i → s.sameAt t e

/-- No command writes the build, IMEM, ENTRY, IRQ_EN or HERR; only HALT and exceptions write STATUS and the fault
record. Rests on 10_state.md R61, 20_memory.md R71, 40_control.md R132, R144, 60_exceptions.md R350 (derived). -/
def Obligations.ControlStateOutsideTheCommandIsUnchanged : Prop :=
  ∀ (i : Instr) (s t : State), exec i s = .next t →
    t.build = s.build ∧ t.imem = s.imem ∧ t.entry = s.entry ∧ t.irqEn = s.irqEn ∧ t.herr = s.herr ∧
    (t.env = s.env ∨ (i.op ∈ multiplierOps ∧ t.env = usedChoice s)) ∧
    ((i ≠ .halt ∧ t.busy = s.busy ∧ t.done = s.done ∧ t.fault = s.fault ∧ t.cause = s.cause ∧ t.fpc = s.fpc ∧
        t.finstr = s.finstr) ∨
      (i = .halt ∧ t = { s with busy := false, done := true }) ∨
      ∃ c : BitVec 8, t = faulted s c)

/-- Every byte of DMEM outside the bytes a store names is unchanged. Rests on 20_memory.md R76, R79 (derived). -/
def Obligations.DataMemoryOutsideTheStoreIsUnchanged : Prop :=
  ∀ (i : Instr) (s t : State), exec i s = .next t →
    (dataStore i = none → t.dmem = s.dmem ∧ ∀ a, t.dmemByte a = s.dmemByte a) ∧
    (∀ r : Nat × Nat, dataStore i = some r → ∀ a, (a < r.1 ∨ r.1 + r.2 ≤ a) → t.dmemByte a = s.dmemByte a)

/-- Only HALT, JMP, LOOP and exceptions set pc otherwise than to pc + 1. Rests on 10_state.md R45 (derived). -/
def Obligations.OtherCommandsAdvanceThePc : Prop :=
  ∀ (i : Instr) (s t : State), exec i s = .next t → (i.op ≠ .halt ∧ i.op ≠ .jmp ∧ i.op ≠ .loop) →
    s.fault = false → t.fault = false → t.pc = s.pc + 1 ∧ t.pc.toNat = (s.pc.toNat + 1) % 2 ^ 16

/-- NOP, HALT, JMP and LDLC. Rests on 40_control.md R131, 40_control.md R132, 40_control.md R133, 40_control.md R134
(derived). -/
def Obligations.SequencerCommandsComplete : Prop :=
  ∀ (s : State) (d : Reg) (target count : Imm),
    exec .nop s = .next { s with pc := s.pc + 1 } ∧
    (∃ t, exec .halt s = .next t ∧ t = { s with busy := false, done := true } ∧ (s.irqEn = true → t.irq = true)) ∧
    exec (.jmp target) s = .next { s with pc := target } ∧
    exec (.ldlc d count) s = .next { s with L := put s.L d count, pc := s.pc + 1 }

/-- LOOP decrements its counter mod 2^16 and branches unless it reaches 0. Rests on 40_control.md R135 (derived). -/
def Obligations.LoopDecrementsAndBranches : Prop :=
  ∀ (s : State) (d : Reg) (target : Imm), s.validAt (.L, d) = true →
    ∃ v : BitVec 16, v.toNat = ((s.L.get d).val.toNat + 65535) % 65536 ∧
      exec (.loop d target) s = .next { s with
        L := put s.L d v
        pc := if (s.L.get d).val.toNat = 1 then s.pc + 1 else target }

/-- CLDI, CNOT, CAND, COR and CXOR. Rests on 40_control.md R136, 40_control.md R137, 40_control.md R138, 40_control.md
R139, 40_control.md R140 (derived). -/
def Obligations.ChoiceCommandsComplete : Prop :=
  ∀ (s : State) (d a b : Reg) (bit : Imm),
    (bit.toNat ≤ 1 → exec (.cldi d bit) s = .next { s with C := put s.C d (decide (bit.toNat = 1)), pc := s.pc + 1 }) ∧
    (s.validAt (.C, a) = true →
      exec (.cnot d a) s = .next { s with C := put s.C d (decide ((s.C.get a).val.toNat = 0)), pc := s.pc + 1 } ∧
      (s.validAt (.C, b) = true →
        exec (.cand d a b) s = .next { s with
          C := put s.C d (decide ((s.C.get a).val.toNat + (s.C.get b).val.toNat = 2)), pc := s.pc + 1 } ∧
        exec (.cor d a b) s = .next { s with
          C := put s.C d (decide (0 < (s.C.get a).val.toNat + (s.C.get b).val.toNat)), pc := s.pc + 1 } ∧
        exec (.cxor d a b) s = .next { s with
          C := put s.C d (decide ((s.C.get a).val.toNat + (s.C.get b).val.toNat = 1)), pc := s.pc + 1 }))

/-- FLDB and FLDBU decode 28 big-endian bytes. Rests on 41_field.md R170, 41_field.md R171 (derived). -/
def Obligations.FieldLoadsDecode : Prop :=
  ∀ (s : State) (d a : Reg) (addr : Imm), addr.toNat + 28 ≤ s.build.dmemBytes →
    let v := beValue s addr.toNat 28
    (∃ x : FElem, exec (.fldb d a addr) s = .next { s with
        F := put s.F d x, C := put s.C a (decide (v < Config.p)), pc := s.pc + 1 } ∧
      x.limb.value = (if v < Config.p then v else 0) ∧ x.limb.bounded 1 ∧ x.mag = 1 ∧ x.norm = true) ∧
    (v < Config.p → ∃ x : FElem, exec (.fldbu d addr) s = .next { s with F := put s.F d x, pc := s.pc + 1 } ∧
      x.limb.value = v ∧ x.limb.bounded 1 ∧ x.mag = 1 ∧ x.norm = true)

/-- FSTB stores the 28 big-endian bytes of a normalized element and nothing else. Rests on 41_field.md R172 (derived).
-/
def Obligations.FieldStoreEncodes : Prop :=
  ∀ (s : State) (a : Reg) (addr : Imm), addr.toNat + 28 ≤ s.build.dmemBytes → s.validAt (.F, a) = true →
    (F s a).norm = true → (F s a).ok →
    ∃ m : Memory 8, exec (.fstb a addr) s = .next { s with dmem := m, pc := s.pc + 1 } ∧
      (∀ k < 28, ({ s with dmem := m } : State).dmemByte (dataAddr addr + k) =
        BitVec.ofNat 8 ((F s a).residue / 256 ^ (27 - k))) ∧
      ∀ b, (b < dataAddr addr ∨ dataAddr addr + 28 ≤ b) → ({ s with dmem := m } : State).dmemByte b = s.dmemByte b

/-- FLDI, FMOV and FSEL. Rests on 41_field.md R173, 41_field.md R174, 41_field.md R182 (derived). -/
def Obligations.FieldLiteralMoveAndSelect : Prop :=
  ∀ (s : State) (d a b c : Reg) (literal : Imm),
    (∃ x : FElem, exec (.fldi d literal) s = .next { s with F := put s.F d x, pc := s.pc + 1 } ∧
      x.limb.l0.toNat = literal.toNat ∧ x.limb.l1 = 0 ∧ x.limb.l2 = 0 ∧ x.limb.l3 = 0 ∧ x.limb.l4 = 0 ∧
      x.residue = literal.toNat ∧ x.mag = 1 ∧ x.norm = true) ∧
    (s.validAt (.F, a) = true →
      exec (.fmov d a) s = .next { s with F := put s.F d (F s a), pc := s.pc + 1 } ∧
      (s.validAt (.F, b) = true → s.validAt (.C, c) = true →
        ∃ x : FElem, exec (.fsel d a b c) s = .next { s with F := put s.F d x, pc := s.pc + 1 } ∧
          ((s.C.get c).val = true → x.limb = (F s b).limb ∧ x.norm = (F s b).norm) ∧
          ((s.C.get c).val = false → x.limb = (F s a).limb ∧ x.norm = (F s a).norm) ∧
          (F s a).mag ≤ x.mag ∧ (F s b).mag ≤ x.mag ∧ (x.mag = (F s a).mag ∨ x.mag = (F s b).mag)))

/-- FADD and FMULS are exact in every lane and mod p. Rests on 41_field.md R175, 41_field.md R176 (derived). -/
def Obligations.LimbwiseAddAndScale : Prop :=
  ∀ (s : State) (d a b : Reg) (k : Imm), s.validAt (.F, a) = true → (F s a).ok →
    (s.validAt (.F, b) = true → (F s b).ok → (F s a).mag + (F s b).mag ≤ 32 →
      ∃ x : FElem, exec (.fadd d a b) s = .next { s with F := put s.F d x, pc := s.pc + 1 } ∧
        x.limb.l0.toNat = (F s a).limb.l0.toNat + (F s b).limb.l0.toNat ∧
        x.limb.l1.toNat = (F s a).limb.l1.toNat + (F s b).limb.l1.toNat ∧
        x.limb.l2.toNat = (F s a).limb.l2.toNat + (F s b).limb.l2.toNat ∧
        x.limb.l3.toNat = (F s a).limb.l3.toNat + (F s b).limb.l3.toNat ∧
        x.limb.l4.toNat = (F s a).limb.l4.toNat + (F s b).limb.l4.toNat ∧
        x.residue = ((F s a).residue + (F s b).residue) % Config.p ∧
        x.mag = (F s a).mag + (F s b).mag ∧ x.norm = false) ∧
    ((F s a).mag * k.toNat ≤ 32 → k.toNat ≤ 32 →
      ∃ x : FElem, exec (.fmuls d a k) s = .next { s with F := put s.F d x, pc := s.pc + 1 } ∧
        x.limb.l0.toNat = (F s a).limb.l0.toNat * k.toNat ∧
        x.limb.l1.toNat = (F s a).limb.l1.toNat * k.toNat ∧
        x.limb.l2.toNat = (F s a).limb.l2.toNat * k.toNat ∧
        x.limb.l3.toNat = (F s a).limb.l3.toNat * k.toNat ∧
        x.limb.l4.toNat = (F s a).limb.l4.toNat * k.toNat ∧
        x.residue = (F s a).residue * k.toNat % Config.p ∧
        x.mag = (F s a).mag * k.toNat ∧ x.norm = false)

/-- FNEG writes (m + 1)·PL - x, lane by lane, and stands for -x. Rests on 41_field.md R177 (derived). -/
def Obligations.NegationIsExact : Prop :=
  ∀ (s : State) (d a : Reg) (m : Imm), s.validAt (.F, a) = true → (F s a).ok → (F s a).mag ≤ m.toNat → m.toNat ≤ 31 →
    ∃ x : FElem, exec (.fneg d a m) s = .next { s with F := put s.F d x, pc := s.pc + 1 } ∧
      x.limb.l0.toNat + (F s a).limb.l0.toNat = (m.toNat + 1) * 0xFFFFEFFFFE56D ∧
      x.limb.l1.toNat + (F s a).limb.l1.toNat = (m.toNat + 1) * 0xFFFFFFFFFFFFF ∧
      x.limb.l2.toNat + (F s a).limb.l2.toNat = (m.toNat + 1) * 0xFFFFFFFFFFFFF ∧
      x.limb.l3.toNat + (F s a).limb.l3.toNat = (m.toNat + 1) * 0xFFFFFFFFFFFFF ∧
      x.limb.l4.toNat + (F s a).limb.l4.toNat = (m.toNat + 1) * 0xFFFF ∧
      x.limb.bounded (m.toNat + 1) ∧ (x.residue + (F s a).residue) % Config.p = 0 ∧
      x.mag = m.toNat + 1 ∧ x.norm = false

/-- FMUL, FSQR, FINV and FNORMW write a vector of magnitude 1 that stands for the result mod p. Rests on 41_field.md
R162, 41_field.md R178, 41_field.md R179, 41_field.md R181, 41_field.md R186 (derived). -/
def Obligations.MultiplierResultsStandForTheProduct : Prop :=
  ∀ (s : State) (d a b : Reg), s.validAt (.F, a) = true →
    (s.validAt (.F, b) = true → (F s a).mag ≤ 8 → (F s b).mag ≤ 8 →
      ∃ x : FElem, exec (.fmul d a b) s = .next { s with F := put s.F d x, pc := s.pc + 1, env := usedChoice s } ∧
        standsFor x ((F s a).limb.value * (F s b).limb.value % Config.p)) ∧
    ((F s a).mag ≤ 8 →
      (∃ x : FElem, exec (.fsqr d a) s = .next { s with F := put s.F d x, pc := s.pc + 1, env := usedChoice s } ∧
        standsFor x ((F s a).limb.value ^ 2 % Config.p)) ∧
      (∃ x : FElem, exec (.finv d a) s = .next { s with F := put s.F d x, pc := s.pc + 1, env := usedChoice s } ∧
        standsFor x ((F s a).limb.value ^ (Config.p - 2) % Config.p))) ∧
    (∃ x : FElem, exec (.fnormw d a) s = .next { s with F := put s.F d x, pc := s.pc + 1, env := usedChoice s } ∧
      standsFor x ((F s a).limb.value % Config.p))

/-- FSQRT writes the candidate of Atkin's formula and whether its square is the operand. Rests on 41_field.md R187
(derived). -/
def Obligations.SquareRootCandidateAndFlag : Prop :=
  ∀ (s : State) (d a c : Reg), s.validAt (.F, a) = true → (F s a).mag ≤ 8 →
    let u : Nat := (F s a).limb.value % Config.p
    let v : Nat := (2 * u) ^ ((Config.p - 5) / 8) % Config.p
    let i : Nat := 2 * u * v ^ 2 % Config.p
    ∃ (x : FElem) (r : Nat), r < Config.p ∧ (r : Int) ≡ u * v * (i - 1) [ZMOD Config.p] ∧ standsFor x r ∧
      exec (.fsqrt d a c) s = .next { s with
        F := put s.F d x, C := put s.C c (decide (r ^ 2 % Config.p = u)), pc := s.pc + 1, env := usedChoice s }

/-- FNORM writes the canonical vector of the operand's residue. Rests on 41_field.md R180 (derived). -/
def Obligations.NormalizationIsCanonical : Prop :=
  ∀ (s : State) (d a : Reg), s.validAt (.F, a) = true →
    ∃ x : FElem, exec (.fnorm d a) s = .next { s with F := put s.F d x, pc := s.pc + 1 } ∧
      x.limb.value = (F s a).limb.value % Config.p ∧ x.limb.bounded 1 ∧ x.mag = 1 ∧ x.norm = true

/-- FEQ, FISZ and FISODD decide equality, zero and parity of residues. Rests on 41_field.md R183, 41_field.md R184,
41_field.md R185 (derived). -/
def Obligations.FieldPredicatesDecideResidues : Prop :=
  ∀ (s : State) (d a b : Reg), s.validAt (.F, a) = true → (F s a).ok → (F s a).norm = true →
    (s.validAt (.F, b) = true → (F s b).ok → (F s b).norm = true →
      exec (.feq d a b) s = .next { s with
        C := put s.C d (decide ((F s a).residue = (F s b).residue)), pc := s.pc + 1 }) ∧
    exec (.fisz d a) s = .next { s with C := put s.C d (decide ((F s a).residue = 0)), pc := s.pc + 1 } ∧
    exec (.fisodd d a) s = .next { s with C := put s.C d (decide ((F s a).residue % 2 = 1)), pc := s.pc + 1 }

/-- FLDB then FSTB of a valid encoding writes back the same bytes. Rests on 41_field.md R192. -/
def Obligations.FieldRoundTrip : Prop :=
  ∀ (s : State) (d c : Reg) (addr addr2 : Imm), addr.toNat + 28 ≤ s.build.dmemBytes →
    addr2.toNat + 28 ≤ s.build.dmemBytes → beValue s addr.toNat 28 < Config.p →
    ∃ t u : State, exec (.fldb d c addr) s = .next t ∧ exec (.fstb d addr2) t = .next u ∧
      u.C.get c = ⟨true, true⟩ ∧ u.fault = s.fault ∧ ∀ k < 28, u.dmemByte (addr2.toNat + k) = s.dmemByte (addr.toNat + k)

/-- x + (-x) normalizes to 0. Rests on 41_field.md R193. -/
def Obligations.NegationLaw : Prop :=
  ∀ (s : State) (x t r : Reg) (m : Imm), x ≠ t → s.validAt (.F, x) = true → (F s x).ok → (F s x).mag ≤ m.toNat →
    (F s x).mag + m.toNat + 1 ≤ 32 →
    ∃ s1 s2 s3 : State, exec (.fneg t x m) s = .next s1 ∧ exec (.fadd r x t) s1 = .next s2 ∧
      exec (.fnorm r r) s2 = .next s3 ∧ s3.F.get r = ⟨true, ⟨⟨0, 0, 0, 0, 0⟩, 1, true⟩⟩

/-- FSUB expands to FNEG and FADD, is refused when d = a, and subtracts. Rests on 30_encoding.md R117. -/
def Obligations.SubtractionPseudoInstruction : Prop :=
  ∀ (s : State) (d a b : Reg) (m : Imm),
    (d = a → (Pseudo.fsub d a b m).expand = .error .subtractOverwrites) ∧
    (d ≠ a → (Pseudo.fsub d a b m).expand = .ok [.fneg d b m, .fadd d a d] ∧
      (s.validAt (.F, a) = true → s.validAt (.F, b) = true → (F s a).ok → (F s b).ok → (F s b).mag ≤ m.toNat →
        (F s a).mag + m.toNat + 1 ≤ 32 →
        ∃ t u : State, exec (.fneg d b m) s = .next t ∧ exec (.fadd d a d) t = .next u ∧ u.validAt (.F, d) = true ∧
          (F u d).mag = (F s a).mag + m.toNat + 1 ∧
          ((F u d).residue + (F s b).residue) % Config.p = (F s a).residue))

/-- SLDB and WLDB decode 32 and 64 big-endian bytes. Rests on 42_scalar.md R240, 42_scalar.md R247 (derived). -/
def Obligations.ScalarLoadsDecode : Prop :=
  ∀ (s : State) (d a : Reg) (addr : Imm), s.build.wf →
    (addr.toNat + 32 ≤ s.build.dmemBytes →
      ∃ x : BitVec 256, exec (.sldb d a addr) s = .next { s with
          S := put s.S d x, C := put s.C a (decide (beValue s addr.toNat 32 < s.build.n)), pc := s.pc + 1 } ∧
        x.toNat = if beValue s addr.toNat 32 < s.build.n then beValue s addr.toNat 32 else 0) ∧
    (addr.toNat + 64 ≤ s.build.dmemBytes →
      ∃ x : BitVec 512, exec (.wldb d addr) s = .next { s with W := put s.W d x, pc := s.pc + 1 } ∧
        x.toNat = beValue s addr.toNat 64)

/-- SSTB and WSTB store 32 and 64 big-endian bytes and nothing else. Rests on 42_scalar.md R241, 42_scalar.md R248
(derived). -/
def Obligations.ScalarStoresEncode : Prop :=
  ∀ (s : State) (a : Reg) (addr : Imm),
    (addr.toNat + 32 ≤ s.build.dmemBytes → s.validAt (.S, a) = true →
      ∃ m : Memory 8, exec (.sstb a addr) s = .next { s with dmem := m, pc := s.pc + 1 } ∧
        (∀ k < 32, ({ s with dmem := m } : State).dmemByte (dataAddr addr + k) =
          BitVec.ofNat 8 ((s.S.get a).val.toNat / 256 ^ (31 - k))) ∧
        ∀ b, (b < dataAddr addr ∨ dataAddr addr + 32 ≤ b) → ({ s with dmem := m } : State).dmemByte b = s.dmemByte b) ∧
    (addr.toNat + 64 ≤ s.build.dmemBytes → s.validAt (.W, a) = true →
      ∃ m : Memory 8, exec (.wstb a addr) s = .next { s with dmem := m, pc := s.pc + 1 } ∧
        (∀ k < 64, ({ s with dmem := m } : State).dmemByte (dataAddr addr + k) =
          BitVec.ofNat 8 ((s.W.get a).val.toNat / 256 ^ (63 - k))) ∧
        ∀ b, (b < dataAddr addr ∨ dataAddr addr + 64 ≤ b) → ({ s with dmem := m } : State).dmemByte b = s.dmemByte b)

/-- SLDI, SMOV, SSEL, SEQ and SLT. Rests on 42_scalar.md R242, 42_scalar.md R243, 42_scalar.md R249, 42_scalar.md R250,
42_scalar.md R251 (derived). -/
def Obligations.ScalarMovesSelectAndCompare : Prop :=
  ∀ (s : State) (d a b c : Reg) (literal : Imm),
    (∃ x : BitVec 256, exec (.sldi d literal) s = .next { s with S := put s.S d x, pc := s.pc + 1 } ∧
      x.toNat = literal.toNat) ∧
    (s.validAt (.S, a) = true →
      exec (.smov d a) s = .next { s with S := put s.S d (s.S.get a).val, pc := s.pc + 1 } ∧
      (s.validAt (.S, b) = true →
        (s.validAt (.C, c) = true → exec (.ssel d a b c) s = .next { s with
          S := put s.S d (if (s.C.get c).val = true then (s.S.get b).val else (s.S.get a).val), pc := s.pc + 1 }) ∧
        exec (.seq d a b) s = .next { s with
          C := put s.C d (decide ((s.S.get a).val.toNat = (s.S.get b).val.toNat)), pc := s.pc + 1 } ∧
        exec (.slt d a b) s = .next { s with
          C := put s.C d (decide ((s.S.get a).val.toNat < (s.S.get b).val.toNat)), pc := s.pc + 1 }))

/-- SADD and SRED are exact mod N, SMULW is the exact product. Rests on 42_scalar.md R244, 42_scalar.md R245,
42_scalar.md R246 (derived). -/
def Obligations.ScalarArithmeticIsExact : Prop :=
  ∀ (s : State) (d a b : Reg), s.build.wf →
    (s.validAt (.S, a) = true → s.validAt (.S, b) = true →
      (∃ x : BitVec 256, exec (.sadd d a b) s = .next { s with S := put s.S d x, pc := s.pc + 1 } ∧
        x.toNat = ((s.S.get a).val.toNat + (s.S.get b).val.toNat) % s.build.n) ∧
      (∃ x : BitVec 512, exec (.smulw d a b) s = .next { s with W := put s.W d x, pc := s.pc + 1 } ∧
        x.toNat = (s.S.get a).val.toNat * (s.S.get b).val.toNat)) ∧
    (s.validAt (.W, a) = true →
      ∃ x : BitVec 256, exec (.sred d a) s = .next { s with S := put s.S d x, pc := s.pc + 1 } ∧
        x.toNat = (s.W.get a).val.toNat % s.build.n)

/-- Reducing the product gives the same scalar in either order, below N. Rests on 42_scalar.md R256. -/
def Obligations.CommutativeReduction : Prop :=
  ∀ (s : State) (a b x y u v : Reg), s.build.wf → s.validAt (.S, a) = true → s.validAt (.S, b) = true →
    ∃ s1 s2 t1 t2 : State, exec (.smulw x a b) s = .next s1 ∧ exec (.sred u x) s1 = .next s2 ∧
      exec (.smulw y b a) s = .next t1 ∧ exec (.sred v y) t1 = .next t2 ∧ s2.S.get u = t2.S.get v ∧
      (s2.S.get u).valid = true ∧
      (s2.S.get u).val.toNat = (s.S.get a).val.toNat * (s.S.get b).val.toNat % s.build.n ∧
      (s2.S.get u).val.toNat < s.build.n

/-- SLDB then SSTB writes back a valid encoding, and 32 zero bytes for an invalid one. Rests on 42_scalar.md R257. -/
def Obligations.ScalarRoundTrip : Prop :=
  ∀ (s : State) (d c : Reg) (addr addr2 : Imm), s.build.wf → addr.toNat + 32 ≤ s.build.dmemBytes →
    addr2.toNat + 32 ≤ s.build.dmemBytes →
    ∃ t u : State, exec (.sldb d c addr) s = .next t ∧ exec (.sstb d addr2) t = .next u ∧ u.fault = s.fault ∧
      (beValue s addr.toNat 32 < s.build.n → u.C.get c = ⟨true, true⟩ ∧
        ∀ k < 32, u.dmemByte (addr2.toNat + k) = s.dmemByte (addr.toNat + k)) ∧
      (s.build.n ≤ beValue s addr.toNat 32 → u.C.get c = ⟨true, false⟩ ∧ ∀ k < 32, u.dmemByte (addr2.toNat + k) = 0)

/-- AMK builds a finite point from coordinates; AGETX and AGETY read them out. Rests on 43_point.md R280, 43_point.md
R283, 43_point.md R284 (derived). -/
def Obligations.CoordinatesInAndOut : Prop :=
  ∀ (s : State) (d a b : Reg),
    (s.validAt (.F, a) = true → s.validAt (.F, b) = true → (F s a).ok → (F s b).ok → (F s a).norm = true →
      (F s b).norm = true →
      ∃ q : APoint, exec (.amk d a b) s = .next { s with A := put s.A d q, pc := s.pc + 1 } ∧
        q.x.val = (F s a).limb.value ∧ q.y.val = (F s b).limb.value ∧ q.inf = false) ∧
    (s.validAt (.A, a) = true →
      (∃ x : FElem, exec (.agetx d a) s = .next { s with F := put s.F d x, pc := s.pc + 1 } ∧
        x.limb.value = (s.A.get a).val.x.val ∧ x.limb.bounded 1 ∧ x.mag = 1 ∧ x.norm = true) ∧
      (∃ x : FElem, exec (.agety d a) s = .next { s with F := put s.F d x, pc := s.pc + 1 } ∧
        x.limb.value = (s.A.get a).val.y.val ∧ x.limb.bounded 1 ∧ x.mag = 1 ∧ x.norm = true))

/-- AID, AGEN, AMOV, ASEL, PID, PGEN, PMOV and PSEL. Rests on 43_point.md R281, 43_point.md R282, 43_point.md R287,
43_point.md R289, 43_point.md R292, 43_point.md R293, 43_point.md R295, 43_point.md R296 (derived). -/
def Obligations.PointConstantsMovesAndSelects : Prop :=
  ∀ (s : State) (d a b c : Reg),
    exec (.aid d) s = .next { s with A := put s.A d ⟨0, 0, true⟩, pc := s.pc + 1 } ∧
    exec (.pid d) s = .next { s with P := put s.P d ⟨0, 1, 0⟩, pc := s.pc + 1 } ∧
    exec (.agen d) s = .next { s with A := put s.A d ⟨s.build.gx, s.build.gy, false⟩, pc := s.pc + 1 } ∧
    exec (.pgen d) s = .next { s with P := put s.P d ⟨s.build.gx, s.build.gy, 1⟩, pc := s.pc + 1 } ∧
    (s.validAt (.A, a) = true →
      exec (.amov d a) s = .next { s with A := put s.A d (s.A.get a).val, pc := s.pc + 1 } ∧
      (s.validAt (.A, b) = true → s.validAt (.C, c) = true → exec (.asel d a b c) s = .next { s with
        A := put s.A d (if (s.C.get c).val = true then (s.A.get b).val else (s.A.get a).val), pc := s.pc + 1 })) ∧
    (s.validAt (.P, a) = true →
      exec (.pmov d a) s = .next { s with P := put s.P d (s.P.get a).val, pc := s.pc + 1 } ∧
      (s.validAt (.P, b) = true → s.validAt (.C, c) = true → exec (.psel d a b c) s = .next { s with
        P := put s.P d (if (s.C.get c).val = true then (s.P.get b).val else (s.P.get a).val), pc := s.pc + 1 }))

/-- AISID, AEQ, AONC and PISID. Rests on 43_point.md R285, 43_point.md R286, 43_point.md R288, 43_point.md R294
(derived). -/
def Obligations.PointPredicatesComplete : Prop :=
  ∀ (s : State) (d a b : Reg),
    (s.validAt (.A, a) = true →
      exec (.aisid d a) s = .next { s with C := put s.C d (s.A.get a).val.inf, pc := s.pc + 1 } ∧
      (∃ v : Bool, exec (.aonc d a) s = .next { s with C := put s.C d v, pc := s.pc + 1 } ∧
        (v = true ↔ onA s.build.b (s.A.get a).val)) ∧
      (s.validAt (.A, b) = true →
        ∃ v : Bool, exec (.aeq d a b) s = .next { s with C := put s.C d v, pc := s.pc + 1 } ∧
          (v = true ↔ (s.A.get a).val.x = (s.A.get b).val.x ∧ (s.A.get a).val.y = (s.A.get b).val.y))) ∧
    (s.validAt (.P, a) = true →
      exec (.pisid d a) s = .next { s with C := put s.C d (decide ((s.P.get a).val.z = 0)), pc := s.pc + 1 })

/-- PA2P lifts an affine point, PTOA recovers affine coordinates with one inversion. Rests on 43_point.md R290,
43_point.md R291 (derived). -/
def Obligations.PointConversions : Prop :=
  ∀ (s : State) (d a : Reg),
    (s.validAt (.A, a) = true → exec (.pa2p d a) s = .next { s with
      P := put s.P d (if (s.A.get a).val.inf = true then ⟨0, 1, 0⟩ else ⟨(s.A.get a).val.x, (s.A.get a).val.y, 1⟩),
      pc := s.pc + 1 }) ∧
    (s.validAt (.P, a) = true →
      ∃ q : APoint, exec (.ptoa d a) s = .next { s with A := put s.A d q, pc := s.pc + 1 } ∧
        q.x.val = (s.P.get a).val.x.val * (s.P.get a).val.z.val ^ (Config.p - 2) % Config.p ∧
        q.y.val = (s.P.get a).val.y.val * (s.P.get a).val.z.val ^ (Config.p - 2) % Config.p ∧
        q.inf = decide ((s.P.get a).val.z = 0) ∧ ((s.P.get a).val.z = 0 → q = ⟨0, 0, true⟩))

/-- PDBL of an on-curve triple writes the doubling formula. Rests on 43_point.md R275, 43_point.md R297 (derived). -/
def Obligations.DoublingFormula : Prop :=
  ∀ (s : State) (d a : Reg), s.validAt (.P, a) = true → onP s.build.b (s.P.get a).val →
    exec (.pdbl d a) s = .next { s with P := put s.P d (dblForm s.build.b (s.P.get a).val), pc := s.pc + 1 }

/-- PADD and PMADD of on-curve operands write the unified addition formula. Rests on 43_point.md R276, 43_point.md R277,
43_point.md R298, 43_point.md R299 (derived). -/
def Obligations.AdditionFormulas : Prop :=
  ∀ (s : State) (d a b : Reg), s.validAt (.P, a) = true → onP s.build.b (s.P.get a).val →
    (s.validAt (.P, b) = true → onP s.build.b (s.P.get b).val → exec (.padd d a b) s = .next { s with
      P := put s.P d (addForm s.build.b (s.P.get a).val (s.P.get b).val), pc := s.pc + 1 }) ∧
    (s.validAt (.A, b) = true → onA s.build.b (s.A.get b).val → exec (.pmadd d a b) s = .next { s with
      P := put s.P d (if (s.A.get b).val.inf = true then (s.P.get a).val
        else addForm s.build.b (s.P.get a).val ⟨(s.A.get b).val.x, (s.A.get b).val.y, 1⟩), pc := s.pc + 1 })

/-- PSMUL is double-and-add-always over the 256 bits, most significant first. Rests on 43_point.md R300 (derived). -/
def Obligations.ScalarMultiplicationScansAllBits : Prop :=
  ∀ (s : State) (d a b : Reg), s.validAt (.P, a) = true → s.validAt (.S, b) = true → onP s.build.b (s.P.get a).val →
    ∃ q : PPoint, exec (.psmul d a b) s = .next { s with P := put s.P d q, pc := s.pc + 1 } ∧
      q = (List.range 256).foldl (fun r k =>
        if (s.S.get b).val.toNat / 2 ^ (255 - k) % 2 = 1
        then addForm s.build.b (dblForm s.build.b r) (s.P.get a).val else dblForm s.build.b r) ⟨0, 1, 0⟩ ∧
      ((s.S.get b).val = 0 → q = ⟨0, 1, 0⟩)

/-- PDBL of an on-curve triple gives a triple that satisfies the curve equation. Rests on 43_point.md R271, 43_point.md
R275, 43_point.md R278 (derived). -/
def Obligations.DoublingKeepsTheCurveEquation : Prop :=
  ∀ (s t : State) (d a : Reg), s.validAt (.P, a) = true → onP s.build.b (s.P.get a).val →
    exec (.pdbl d a) s = .next t → t.validAt (.P, d) = true ∧ onEquation s.build.b (t.P.get d).val

/-- A write of CTRL.START while idle begins a run at ENTRY. Rests on 60_exceptions.md R371. -/
def Obligations.StartBeginsARun : Prop :=
  ∀ (s : State) (d : BitVec 32) (rest : List HostMove),
    s.env.moves = .write (s.build.hostBase + 0x8) 4 d :: rest → s.busy = false → d.getLsbD 0 = true →
    d.getLsbD 2 = false →
    step s = .next { s with
      done := false, fault := false, cause := 0, fpc := 0, finstr := 0, pc := s.entry, busy := true
      irqEn := d.getLsbD 1
      env := { s.env with moves := rest, reached := [] } }

/-- A write of CTRL.SRST clears every VALID bit and the control registers, and keeps both memories. Rests on 10_state.md
R63, 70_reset_and_hazards.md R391 (derived). That the register contents stay as they were is the model's choice (log 2,
DESIGN CHOICE): R63 calls them unspecified after a soft reset. -/
def Obligations.SoftResetClearsValidAndControl : Prop :=
  ∀ (s : State) (d : BitVec 32), registerWrite s 0x8 d → d.getLsbD 2 = true →
    ∃ t : State, step s = .next t ∧ (∀ e : Entry, t.validAt e = false) ∧ t.pc = 0 ∧ t.entry = 0 ∧ t.irqEn = false ∧
      t.busy = false ∧ t.done = false ∧ t.fault = false ∧ t.herr = false ∧ t.cause = 0 ∧ t.fpc = 0 ∧ t.finstr = 0 ∧
      t.imem = s.imem ∧ t.dmem = s.dmem ∧ t.env.powerOn = s.env.powerOn ∧ t.build = s.build ∧
      ∀ i : Reg, (t.F.get i).val = (s.F.get i).val ∧ (t.S.get i).val = (s.S.get i).val ∧
        (t.W.get i).val = (s.W.get i).val ∧ (t.A.get i).val = (s.A.get i).val ∧ (t.P.get i).val = (s.P.get i).val ∧
        (t.C.get i).val = (s.C.get i).val ∧ (t.L.get i).val = (s.L.get i).val

/-- A refused host access changes nothing but HERR, and a refused read returns 0. Rests on 10_state.md R50, 10_state.md
R59, 20_memory.md R86, 60_exceptions.md R370 (derived). That an access that is not an aligned 32-bit access is refused
at reserved offsets too, and that a refused START leaves IRQ_EN, is the model's choice (log 11, DEDUCED). -/
def Obligations.RefusedAccessesOnlySetHerr : Prop :=
  ∀ (s : State) (off bytes : Nat) (d : BitVec 32) (rest : List HostMove), off < 2 ^ 20 →
    ((bytes ≠ 4 ∨ off % 4 ≠ 0 ∨ (s.busy = true ∧ idleOnlyOffset s.build off)) →
      (s.env.moves = .write (s.build.hostBase + off) bytes d :: rest →
        step s = .next { s with herr := true, env := { s.env with moves := rest } }) ∧
      (s.env.moves = .read (s.build.hostBase + off) bytes :: rest →
        step s = .next { s with herr := true, env := { s.env with moves := rest, busData := 0 } })) ∧
    (s.env.moves = .write (s.build.hostBase + 0x8) 4 d :: rest → s.busy = true → d.getLsbD 0 = true →
      d.getLsbD 2 = false → step s = .next { s with herr := true, env := { s.env with moves := rest } }) ∧
    ∀ t : State, step s = .next t → s.herr = true → t.herr = false →
      (∃ d', registerWrite s 0xC d' ∧ d'.getLsbD 3 = true) ∨ resetWrite s ∨ powerOnMove s

/-- What sets and what clears BUSY, DONE, FAULT and HERR. Rests on 10_state.md R50, 10_state.md R51, 40_control.md R132,
40_control.md R143, 60_exceptions.md R350, 60_exceptions.md R370, 60_exceptions.md R371 (derived). Which accesses are
refused at reserved offsets is log 11 (DEDUCED); that an idle turn changes no bit is log 8 (DEDUCED). -/
def Obligations.StatusBitsChangeOnlyAsTheTableSays : Prop :=
  (∀ (s : State) (d : BitVec 32) (rest : List HostMove), s.env.moves = .write (s.build.hostBase + 0xC) 4 d :: rest →
      step s = .next { s with
        done := if d.getLsbD 1 = true then false else s.done
        fault := if d.getLsbD 2 = true then false else s.fault
        herr := if d.getLsbD 3 = true then false else s.herr
        env := { s.env with moves := rest } }) ∧
    ∀ s t : State, step s = .next t →
      (s.busy = false → t.busy = true → startWrite s) ∧
      (s.busy = true → t.busy = false → (coreMoves s ∧ (t.done = true ∨ t.fault = true)) ∨ resetWrite s ∨ powerOnMove s) ∧
      (s.done = false → t.done = true →
        s.busy = true ∧ coreMoves s ∧ decode (s.imemWord s.pc.toNat) = .ok .halt ∧ t.busy = false) ∧
      (s.fault = false → t.fault = true → s.busy = true ∧ coreMoves s ∧ t.busy = false ∧ t.cause ≠ 0) ∧
      (s.herr = false → t.herr = true → refusedAccess s) ∧
      (s.done = true → t.done = false →
        startWrite s ∨ resetWrite s ∨ powerOnMove s ∨ ∃ d, registerWrite s 0xC d ∧ d.getLsbD 1 = true) ∧
      (s.fault = true → t.fault = false →
        startWrite s ∨ resetWrite s ∨ powerOnMove s ∨ ∃ d, registerWrite s 0xC d ∧ d.getLsbD 2 = true) ∧
      (s.herr = true → t.herr = false → resetWrite s ∨ powerOnMove s ∨ ∃ d, registerWrite s 0xC d ∧ d.getLsbD 3 = true)

/-- What an idle host reads from and writes to the IMEM and DMEM windows, DMEM in big-endian lanes. Rests on
20_memory.md R83, 20_memory.md R84. -/
def Obligations.HostWindowReadsAndWrites : Prop :=
  ∀ (s : State) (j i : Nat) (d : BitVec 32) (rest : List HostMove), s.busy = false →
    (4 * j < s.build.dmemBytes → 6 ≤ s.build.dmemLog2.val →
      (s.env.moves = .write (s.build.hostBase + 0x80000 + 4 * j) 4 d :: rest →
        ∃ t : State, step s = .next t ∧ t = { s with dmem := t.dmem, env := { s.env with moves := rest } } ∧
          (t.dmemByte (4 * j)).toNat = d.toNat / 2 ^ 24 ∧ (t.dmemByte (4 * j + 1)).toNat = d.toNat / 2 ^ 16 % 256 ∧
          (t.dmemByte (4 * j + 2)).toNat = d.toNat / 2 ^ 8 % 256 ∧ (t.dmemByte (4 * j + 3)).toNat = d.toNat % 256 ∧
          ∀ a, (a < 4 * j ∨ 4 * j + 4 ≤ a) → t.dmemByte a = s.dmemByte a) ∧
      (s.env.moves = .read (s.build.hostBase + 0x80000 + 4 * j) 4 :: rest →
        ∃ v : BitVec 32, step s = .next { s with env := { s.env with moves := rest, busData := v } } ∧
          v.toNat = beValue s (4 * j) 4)) ∧
    (i < s.build.imemWords →
      (s.env.moves = .write (s.build.hostBase + 0x40000 + 4 * i) 4 d :: rest →
        ∃ t : State, step s = .next t ∧ t = { s with imem := t.imem, env := { s.env with moves := rest } } ∧
          t.imemWord i = d ∧ ∀ k, k ≠ i → t.imemWord k = s.imemWord k) ∧
      (s.env.moves = .read (s.build.hostBase + 0x40000 + 4 * i) 4 :: rest →
        step s = .next { s with env := { s.env with moves := rest, busData := s.imemWord i } }))

/-- What an aligned 32-bit host read of a register or a reserved offset returns, and what a write of one does. Rests on
10_state.md R49, 10_state.md R50, 10_state.md R51, 10_state.md R52, 10_state.md R53, 10_state.md R54, 10_state.md R55,
10_state.md R56, 10_state.md R57, 10_state.md R58, 10_state.md R59, 20_memory.md R82 (derived). The value of PCR while
BUSY = 1 is a free value among the pcs reached (log 5, DEDUCED that the next pc is one); that a write to a read-only
register changes nothing and leaves HERR is the model's choice (log 9, DEDUCED). -/
def Obligations.HostAccessesToTheRegisters : Prop :=
  ∀ (s : State) (off : Nat) (d : BitVec 32) (rest : List HostMove), off % 4 = 0 →
    (s.env.moves = .read (s.build.hostBase + off) 4 :: rest →
      (off = 0x8 ∨ off = 0xC ∨ (off = 0x10 ∧ s.busy = false) ∨ readOnlyOffset off ∨ reservedOffset s.build off) →
      ∃ v : BitVec 32,
        step s = .next { s with env := { s.env with
          moves := rest
          busData := v
          draws := if off = 0x14 ∧ s.busy = true then s.env.draws + 1 else s.env.draws } } ∧
        (off = 0x0 → v = 0xEC220100) ∧
        (off = 0x4 → v.toNat = s.build.checked.toNat + 2 ^ 8 * s.build.imemLog2.val + 2 ^ 16 * s.build.dmemLog2.val + 2 ^ 24 * 32) ∧
        (off = 0x8 → v.toNat = 2 * s.irqEn.toNat) ∧
        (off = 0xC → v.toNat = s.busy.toNat + 2 * s.done.toNat + 4 * s.fault.toNat + 8 * s.herr.toNat) ∧
        (off = 0x10 → v.toNat = s.entry.toNat) ∧
        (off = 0x14 → (s.busy = false → v.toNat = s.pc.toNat) ∧
          (s.busy = true → ∃ q : Imm, (q = s.pc ∨ q ∈ s.env.reached) ∧ v.toNat = q.toNat)) ∧
        (off = 0x18 → v.toNat = s.cause.toNat) ∧ (off = 0x1C → v.toNat = s.fpc.toNat) ∧ (off = 0x20 → v = s.finstr) ∧
        (reservedOffset s.build off → v = 0)) ∧
    (s.env.moves = .write (s.build.hostBase + off) 4 d :: rest →
      (off = 0x10 → s.busy = false → ∃ e : Imm, e.toNat = d.toNat % 2 ^ 16 ∧
        step s = .next { s with entry := e, env := { s.env with moves := rest } }) ∧
      (off = 0x8 → d.getLsbD 0 = false → d.getLsbD 2 = false →
        step s = .next { s with irqEn := d.getLsbD 1, env := { s.env with moves := rest } }) ∧
      (readOnlyOffset off ∨ reservedOffset s.build off → step s = .next { s with env := { s.env with moves := rest } }))

/-- Power-on reset leaves every VALID bit and every control register 0. Rests on 10_state.md R63, 40_control.md R143,
70_reset_and_hazards.md R390 (derived). That unwritten IMEM and DMEM read as a named power-on draw is the model's choice
(log 3, DESIGN CHOICE; R390 leaves them unspecified); the idle step after State.reset rests on its empty script (log 6,
DESIGN CHOICE). -/
def Obligations.ResetValues : Prop :=
  (∀ e : Entry, State.reset.validAt e = false) ∧ State.reset.pc = 0 ∧ State.reset.irqEn = false ∧
    State.reset.statusWord = 0 ∧ State.reset.entry = 0 ∧ State.reset.cause = 0 ∧ State.reset.fpc = 0 ∧
    State.reset.finstr = 0 ∧ State.reset.irq = false ∧
    (∀ a, State.reset.dmemByte a = Config.powerOnByte State.reset.env.powerOn a) ∧
    (∀ i, State.reset.imemWord i = Config.powerOnWord State.reset.env.powerOn i) ∧
    (∀ t : State, step State.reset = .next t → t.busy = false) ∧
    ∀ (s : State) (draw : Nat) (rest : List HostMove), s.env.moves = .powerOn draw :: rest →
      ∃ t : State, step s = .next t ∧ t.build = s.build ∧ (∀ e : Entry, t.validAt e = false) ∧ t.pc = 0 ∧ t.irqEn = false ∧
        t.busy = false ∧ t.done = false ∧ t.fault = false ∧ t.herr = false ∧ t.entry = 0 ∧ t.cause = 0 ∧ t.fpc = 0 ∧
        t.finstr = 0 ∧ t.irq = false ∧ t.env.moves = rest ∧ (∀ a, t.dmemByte a = Config.powerOnByte draw a) ∧
        ∀ i, t.imemWord i = Config.powerOnWord draw i

/-- The state after power-on reset meets the invariant. Rests on 10_state.md R63, 70_reset_and_hazards.md R390,
00_scope.md R10 (derived). -/
def Obligations.ResetMeetsTheInvariant : Prop :=
  State.reset.Inv

/-- Every step of the core or the host keeps the invariant. Rests on 10_state.md R32, 10_state.md R33, 10_state.md R35,
10_state.md R38, 10_state.md R51, 10_state.md R54 (derived). -/
def Obligations.EveryStepKeepsTheInvariant : Prop :=
  ∀ s t : State, s.Inv → step s = .next t → t.Inv

/-- The path of pcs does not depend on data. Rests on 10_state.md R41, 40_control.md R142, 70_reset_and_hazards.md R396
(derived). Weaker than R142 by two premises: loop counters that an earlier run left VALID are equal (R396), and no host
access is to come (the script of log 6, DESIGN CHOICE). -/
def Obligations.PcPathIsAFunctionOfTheProgram : Prop :=
  ∀ (k : Nat) (s1 s2 t1 t2 : State), SameProgram s1 s2 → Sys2Proof.core.run k s1 = .next t1 → Sys2Proof.core.run k s2 = .next t2 →
    t1.fault = false → t2.fault = false → t1.pc = t2.pc ∧ t1.busy = t2.busy

/-- A command does the same in a CHECKED = 1 and a CHECKED = 0 build. Rests on 41_field.md R161, 41_field.md R191,
60_exceptions.md R345 (derived). -/
def Obligations.BothBuildsRunAlike : Prop :=
  ∀ (i : Instr) (s t : State) (c : Bool), exec i s = .next t →
    exec i { s with build := { s.build with checked := c } } = .next { t with build := { t.build with checked := c } }

/-- A command's result does not depend on DMEM outside the bytes its word names. Rests on 20_memory.md R79,
70_reset_and_hazards.md R405, 00_scope.md R18 (derived). -/
def Obligations.CommandsReadOnlyTheirOwnBytes : Prop :=
  ∀ (i : Instr) (s t : State) (m : Memory 8),
    (∀ r ∈ dataAccess i, ∀ a, r.1 ≤ a → a < r.1 + r.2 → ({ s with dmem := m } : State).dmemByte a = s.dmemByte a) →
    exec i s = .next t →
    ∃ t' : State, exec i { s with dmem := m } = .next t' ∧ { t' with dmem := t.dmem } = t
end

