-- ==== Sys2Proof/Laws/State.lean ====
section
/-! SUPPORT. What each update of State does to each field: one lemma a field and update, so that no proof unfolds a record
update. -/

namespace Sys2Proof.Machine

variable (s : State)

/-! writeF -/

@[simp] theorem State.writeF_build (d : Reg) (v : FElem) : (s.writeF d v).build = s.build := rfl
@[simp] theorem State.writeF_F (d : Reg) (v : FElem) : (s.writeF d v).F = s.F.write d v := rfl
@[simp] theorem State.writeF_S (d : Reg) (v : FElem) : (s.writeF d v).S = s.S := rfl
@[simp] theorem State.writeF_W (d : Reg) (v : FElem) : (s.writeF d v).W = s.W := rfl
@[simp] theorem State.writeF_A (d : Reg) (v : FElem) : (s.writeF d v).A = s.A := rfl
@[simp] theorem State.writeF_P (d : Reg) (v : FElem) : (s.writeF d v).P = s.P := rfl
@[simp] theorem State.writeF_C (d : Reg) (v : FElem) : (s.writeF d v).C = s.C := rfl
@[simp] theorem State.writeF_L (d : Reg) (v : FElem) : (s.writeF d v).L = s.L := rfl
@[simp] theorem State.writeF_pc (d : Reg) (v : FElem) : (s.writeF d v).pc = s.pc := rfl
@[simp] theorem State.writeF_irqEn (d : Reg) (v : FElem) : (s.writeF d v).irqEn = s.irqEn := rfl
@[simp] theorem State.writeF_busy (d : Reg) (v : FElem) : (s.writeF d v).busy = s.busy := rfl
@[simp] theorem State.writeF_done (d : Reg) (v : FElem) : (s.writeF d v).done = s.done := rfl
@[simp] theorem State.writeF_fault (d : Reg) (v : FElem) : (s.writeF d v).fault = s.fault := rfl
@[simp] theorem State.writeF_herr (d : Reg) (v : FElem) : (s.writeF d v).herr = s.herr := rfl
@[simp] theorem State.writeF_entry (d : Reg) (v : FElem) : (s.writeF d v).entry = s.entry := rfl
@[simp] theorem State.writeF_cause (d : Reg) (v : FElem) : (s.writeF d v).cause = s.cause := rfl
@[simp] theorem State.writeF_fpc (d : Reg) (v : FElem) : (s.writeF d v).fpc = s.fpc := rfl
@[simp] theorem State.writeF_finstr (d : Reg) (v : FElem) : (s.writeF d v).finstr = s.finstr := rfl
@[simp] theorem State.writeF_imem (d : Reg) (v : FElem) : (s.writeF d v).imem = s.imem := rfl
@[simp] theorem State.writeF_dmem (d : Reg) (v : FElem) : (s.writeF d v).dmem = s.dmem := rfl
@[simp] theorem State.writeF_env (d : Reg) (v : FElem) : (s.writeF d v).env = s.env := rfl

/-! writeS -/

@[simp] theorem State.writeS_build (d : Reg) (v : BitVec 256) : (s.writeS d v).build = s.build := rfl
@[simp] theorem State.writeS_F (d : Reg) (v : BitVec 256) : (s.writeS d v).F = s.F := rfl
@[simp] theorem State.writeS_S (d : Reg) (v : BitVec 256) : (s.writeS d v).S = s.S.write d v := rfl
@[simp] theorem State.writeS_W (d : Reg) (v : BitVec 256) : (s.writeS d v).W = s.W := rfl
@[simp] theorem State.writeS_A (d : Reg) (v : BitVec 256) : (s.writeS d v).A = s.A := rfl
@[simp] theorem State.writeS_P (d : Reg) (v : BitVec 256) : (s.writeS d v).P = s.P := rfl
@[simp] theorem State.writeS_C (d : Reg) (v : BitVec 256) : (s.writeS d v).C = s.C := rfl
@[simp] theorem State.writeS_L (d : Reg) (v : BitVec 256) : (s.writeS d v).L = s.L := rfl
@[simp] theorem State.writeS_pc (d : Reg) (v : BitVec 256) : (s.writeS d v).pc = s.pc := rfl
@[simp] theorem State.writeS_irqEn (d : Reg) (v : BitVec 256) : (s.writeS d v).irqEn = s.irqEn := rfl
@[simp] theorem State.writeS_busy (d : Reg) (v : BitVec 256) : (s.writeS d v).busy = s.busy := rfl
@[simp] theorem State.writeS_done (d : Reg) (v : BitVec 256) : (s.writeS d v).done = s.done := rfl
@[simp] theorem State.writeS_fault (d : Reg) (v : BitVec 256) : (s.writeS d v).fault = s.fault := rfl
@[simp] theorem State.writeS_herr (d : Reg) (v : BitVec 256) : (s.writeS d v).herr = s.herr := rfl
@[simp] theorem State.writeS_entry (d : Reg) (v : BitVec 256) : (s.writeS d v).entry = s.entry := rfl
@[simp] theorem State.writeS_cause (d : Reg) (v : BitVec 256) : (s.writeS d v).cause = s.cause := rfl
@[simp] theorem State.writeS_fpc (d : Reg) (v : BitVec 256) : (s.writeS d v).fpc = s.fpc := rfl
@[simp] theorem State.writeS_finstr (d : Reg) (v : BitVec 256) : (s.writeS d v).finstr = s.finstr := rfl
@[simp] theorem State.writeS_imem (d : Reg) (v : BitVec 256) : (s.writeS d v).imem = s.imem := rfl
@[simp] theorem State.writeS_dmem (d : Reg) (v : BitVec 256) : (s.writeS d v).dmem = s.dmem := rfl
@[simp] theorem State.writeS_env (d : Reg) (v : BitVec 256) : (s.writeS d v).env = s.env := rfl

/-! writeW -/

@[simp] theorem State.writeW_build (d : Reg) (v : BitVec 512) : (s.writeW d v).build = s.build := rfl
@[simp] theorem State.writeW_F (d : Reg) (v : BitVec 512) : (s.writeW d v).F = s.F := rfl
@[simp] theorem State.writeW_S (d : Reg) (v : BitVec 512) : (s.writeW d v).S = s.S := rfl
@[simp] theorem State.writeW_W (d : Reg) (v : BitVec 512) : (s.writeW d v).W = s.W.write d v := rfl
@[simp] theorem State.writeW_A (d : Reg) (v : BitVec 512) : (s.writeW d v).A = s.A := rfl
@[simp] theorem State.writeW_P (d : Reg) (v : BitVec 512) : (s.writeW d v).P = s.P := rfl
@[simp] theorem State.writeW_C (d : Reg) (v : BitVec 512) : (s.writeW d v).C = s.C := rfl
@[simp] theorem State.writeW_L (d : Reg) (v : BitVec 512) : (s.writeW d v).L = s.L := rfl
@[simp] theorem State.writeW_pc (d : Reg) (v : BitVec 512) : (s.writeW d v).pc = s.pc := rfl
@[simp] theorem State.writeW_irqEn (d : Reg) (v : BitVec 512) : (s.writeW d v).irqEn = s.irqEn := rfl
@[simp] theorem State.writeW_busy (d : Reg) (v : BitVec 512) : (s.writeW d v).busy = s.busy := rfl
@[simp] theorem State.writeW_done (d : Reg) (v : BitVec 512) : (s.writeW d v).done = s.done := rfl
@[simp] theorem State.writeW_fault (d : Reg) (v : BitVec 512) : (s.writeW d v).fault = s.fault := rfl
@[simp] theorem State.writeW_herr (d : Reg) (v : BitVec 512) : (s.writeW d v).herr = s.herr := rfl
@[simp] theorem State.writeW_entry (d : Reg) (v : BitVec 512) : (s.writeW d v).entry = s.entry := rfl
@[simp] theorem State.writeW_cause (d : Reg) (v : BitVec 512) : (s.writeW d v).cause = s.cause := rfl
@[simp] theorem State.writeW_fpc (d : Reg) (v : BitVec 512) : (s.writeW d v).fpc = s.fpc := rfl
@[simp] theorem State.writeW_finstr (d : Reg) (v : BitVec 512) : (s.writeW d v).finstr = s.finstr := rfl
@[simp] theorem State.writeW_imem (d : Reg) (v : BitVec 512) : (s.writeW d v).imem = s.imem := rfl
@[simp] theorem State.writeW_dmem (d : Reg) (v : BitVec 512) : (s.writeW d v).dmem = s.dmem := rfl
@[simp] theorem State.writeW_env (d : Reg) (v : BitVec 512) : (s.writeW d v).env = s.env := rfl

/-! writeA -/

@[simp] theorem State.writeA_build (d : Reg) (v : APoint) : (s.writeA d v).build = s.build := rfl
@[simp] theorem State.writeA_F (d : Reg) (v : APoint) : (s.writeA d v).F = s.F := rfl
@[simp] theorem State.writeA_S (d : Reg) (v : APoint) : (s.writeA d v).S = s.S := rfl
@[simp] theorem State.writeA_W (d : Reg) (v : APoint) : (s.writeA d v).W = s.W := rfl
@[simp] theorem State.writeA_A (d : Reg) (v : APoint) : (s.writeA d v).A = s.A.write d v := rfl
@[simp] theorem State.writeA_P (d : Reg) (v : APoint) : (s.writeA d v).P = s.P := rfl
@[simp] theorem State.writeA_C (d : Reg) (v : APoint) : (s.writeA d v).C = s.C := rfl
@[simp] theorem State.writeA_L (d : Reg) (v : APoint) : (s.writeA d v).L = s.L := rfl
@[simp] theorem State.writeA_pc (d : Reg) (v : APoint) : (s.writeA d v).pc = s.pc := rfl
@[simp] theorem State.writeA_irqEn (d : Reg) (v : APoint) : (s.writeA d v).irqEn = s.irqEn := rfl
@[simp] theorem State.writeA_busy (d : Reg) (v : APoint) : (s.writeA d v).busy = s.busy := rfl
@[simp] theorem State.writeA_done (d : Reg) (v : APoint) : (s.writeA d v).done = s.done := rfl
@[simp] theorem State.writeA_fault (d : Reg) (v : APoint) : (s.writeA d v).fault = s.fault := rfl
@[simp] theorem State.writeA_herr (d : Reg) (v : APoint) : (s.writeA d v).herr = s.herr := rfl
@[simp] theorem State.writeA_entry (d : Reg) (v : APoint) : (s.writeA d v).entry = s.entry := rfl
@[simp] theorem State.writeA_cause (d : Reg) (v : APoint) : (s.writeA d v).cause = s.cause := rfl
@[simp] theorem State.writeA_fpc (d : Reg) (v : APoint) : (s.writeA d v).fpc = s.fpc := rfl
@[simp] theorem State.writeA_finstr (d : Reg) (v : APoint) : (s.writeA d v).finstr = s.finstr := rfl
@[simp] theorem State.writeA_imem (d : Reg) (v : APoint) : (s.writeA d v).imem = s.imem := rfl
@[simp] theorem State.writeA_dmem (d : Reg) (v : APoint) : (s.writeA d v).dmem = s.dmem := rfl
@[simp] theorem State.writeA_env (d : Reg) (v : APoint) : (s.writeA d v).env = s.env := rfl

/-! writeP -/

@[simp] theorem State.writeP_build (d : Reg) (v : PPoint) : (s.writeP d v).build = s.build := rfl
@[simp] theorem State.writeP_F (d : Reg) (v : PPoint) : (s.writeP d v).F = s.F := rfl
@[simp] theorem State.writeP_S (d : Reg) (v : PPoint) : (s.writeP d v).S = s.S := rfl
@[simp] theorem State.writeP_W (d : Reg) (v : PPoint) : (s.writeP d v).W = s.W := rfl
@[simp] theorem State.writeP_A (d : Reg) (v : PPoint) : (s.writeP d v).A = s.A := rfl
@[simp] theorem State.writeP_P (d : Reg) (v : PPoint) : (s.writeP d v).P = s.P.write d v := rfl
@[simp] theorem State.writeP_C (d : Reg) (v : PPoint) : (s.writeP d v).C = s.C := rfl
@[simp] theorem State.writeP_L (d : Reg) (v : PPoint) : (s.writeP d v).L = s.L := rfl
@[simp] theorem State.writeP_pc (d : Reg) (v : PPoint) : (s.writeP d v).pc = s.pc := rfl
@[simp] theorem State.writeP_irqEn (d : Reg) (v : PPoint) : (s.writeP d v).irqEn = s.irqEn := rfl
@[simp] theorem State.writeP_busy (d : Reg) (v : PPoint) : (s.writeP d v).busy = s.busy := rfl
@[simp] theorem State.writeP_done (d : Reg) (v : PPoint) : (s.writeP d v).done = s.done := rfl
@[simp] theorem State.writeP_fault (d : Reg) (v : PPoint) : (s.writeP d v).fault = s.fault := rfl
@[simp] theorem State.writeP_herr (d : Reg) (v : PPoint) : (s.writeP d v).herr = s.herr := rfl
@[simp] theorem State.writeP_entry (d : Reg) (v : PPoint) : (s.writeP d v).entry = s.entry := rfl
@[simp] theorem State.writeP_cause (d : Reg) (v : PPoint) : (s.writeP d v).cause = s.cause := rfl
@[simp] theorem State.writeP_fpc (d : Reg) (v : PPoint) : (s.writeP d v).fpc = s.fpc := rfl
@[simp] theorem State.writeP_finstr (d : Reg) (v : PPoint) : (s.writeP d v).finstr = s.finstr := rfl
@[simp] theorem State.writeP_imem (d : Reg) (v : PPoint) : (s.writeP d v).imem = s.imem := rfl
@[simp] theorem State.writeP_dmem (d : Reg) (v : PPoint) : (s.writeP d v).dmem = s.dmem := rfl
@[simp] theorem State.writeP_env (d : Reg) (v : PPoint) : (s.writeP d v).env = s.env := rfl

/-! writeC -/

@[simp] theorem State.writeC_build (d : Reg) (v : Bool) : (s.writeC d v).build = s.build := rfl
@[simp] theorem State.writeC_F (d : Reg) (v : Bool) : (s.writeC d v).F = s.F := rfl
@[simp] theorem State.writeC_S (d : Reg) (v : Bool) : (s.writeC d v).S = s.S := rfl
@[simp] theorem State.writeC_W (d : Reg) (v : Bool) : (s.writeC d v).W = s.W := rfl
@[simp] theorem State.writeC_A (d : Reg) (v : Bool) : (s.writeC d v).A = s.A := rfl
@[simp] theorem State.writeC_P (d : Reg) (v : Bool) : (s.writeC d v).P = s.P := rfl
@[simp] theorem State.writeC_C (d : Reg) (v : Bool) : (s.writeC d v).C = s.C.write d v := rfl
@[simp] theorem State.writeC_L (d : Reg) (v : Bool) : (s.writeC d v).L = s.L := rfl
@[simp] theorem State.writeC_pc (d : Reg) (v : Bool) : (s.writeC d v).pc = s.pc := rfl
@[simp] theorem State.writeC_irqEn (d : Reg) (v : Bool) : (s.writeC d v).irqEn = s.irqEn := rfl
@[simp] theorem State.writeC_busy (d : Reg) (v : Bool) : (s.writeC d v).busy = s.busy := rfl
@[simp] theorem State.writeC_done (d : Reg) (v : Bool) : (s.writeC d v).done = s.done := rfl
@[simp] theorem State.writeC_fault (d : Reg) (v : Bool) : (s.writeC d v).fault = s.fault := rfl
@[simp] theorem State.writeC_herr (d : Reg) (v : Bool) : (s.writeC d v).herr = s.herr := rfl
@[simp] theorem State.writeC_entry (d : Reg) (v : Bool) : (s.writeC d v).entry = s.entry := rfl
@[simp] theorem State.writeC_cause (d : Reg) (v : Bool) : (s.writeC d v).cause = s.cause := rfl
@[simp] theorem State.writeC_fpc (d : Reg) (v : Bool) : (s.writeC d v).fpc = s.fpc := rfl
@[simp] theorem State.writeC_finstr (d : Reg) (v : Bool) : (s.writeC d v).finstr = s.finstr := rfl
@[simp] theorem State.writeC_imem (d : Reg) (v : Bool) : (s.writeC d v).imem = s.imem := rfl
@[simp] theorem State.writeC_dmem (d : Reg) (v : Bool) : (s.writeC d v).dmem = s.dmem := rfl
@[simp] theorem State.writeC_env (d : Reg) (v : Bool) : (s.writeC d v).env = s.env := rfl

/-! writeL -/

@[simp] theorem State.writeL_build (d : Reg) (v : BitVec 16) : (s.writeL d v).build = s.build := rfl
@[simp] theorem State.writeL_F (d : Reg) (v : BitVec 16) : (s.writeL d v).F = s.F := rfl
@[simp] theorem State.writeL_S (d : Reg) (v : BitVec 16) : (s.writeL d v).S = s.S := rfl
@[simp] theorem State.writeL_W (d : Reg) (v : BitVec 16) : (s.writeL d v).W = s.W := rfl
@[simp] theorem State.writeL_A (d : Reg) (v : BitVec 16) : (s.writeL d v).A = s.A := rfl
@[simp] theorem State.writeL_P (d : Reg) (v : BitVec 16) : (s.writeL d v).P = s.P := rfl
@[simp] theorem State.writeL_C (d : Reg) (v : BitVec 16) : (s.writeL d v).C = s.C := rfl
@[simp] theorem State.writeL_L (d : Reg) (v : BitVec 16) : (s.writeL d v).L = s.L.write d v := rfl
@[simp] theorem State.writeL_pc (d : Reg) (v : BitVec 16) : (s.writeL d v).pc = s.pc := rfl
@[simp] theorem State.writeL_irqEn (d : Reg) (v : BitVec 16) : (s.writeL d v).irqEn = s.irqEn := rfl
@[simp] theorem State.writeL_busy (d : Reg) (v : BitVec 16) : (s.writeL d v).busy = s.busy := rfl
@[simp] theorem State.writeL_done (d : Reg) (v : BitVec 16) : (s.writeL d v).done = s.done := rfl
@[simp] theorem State.writeL_fault (d : Reg) (v : BitVec 16) : (s.writeL d v).fault = s.fault := rfl
@[simp] theorem State.writeL_herr (d : Reg) (v : BitVec 16) : (s.writeL d v).herr = s.herr := rfl
@[simp] theorem State.writeL_entry (d : Reg) (v : BitVec 16) : (s.writeL d v).entry = s.entry := rfl
@[simp] theorem State.writeL_cause (d : Reg) (v : BitVec 16) : (s.writeL d v).cause = s.cause := rfl
@[simp] theorem State.writeL_fpc (d : Reg) (v : BitVec 16) : (s.writeL d v).fpc = s.fpc := rfl
@[simp] theorem State.writeL_finstr (d : Reg) (v : BitVec 16) : (s.writeL d v).finstr = s.finstr := rfl
@[simp] theorem State.writeL_imem (d : Reg) (v : BitVec 16) : (s.writeL d v).imem = s.imem := rfl
@[simp] theorem State.writeL_dmem (d : Reg) (v : BitVec 16) : (s.writeL d v).dmem = s.dmem := rfl
@[simp] theorem State.writeL_env (d : Reg) (v : BitVec 16) : (s.writeL d v).env = s.env := rfl

/-! setPc -/

@[simp] theorem State.setPc_build (t : Imm) : (s.setPc t).build = s.build := rfl
@[simp] theorem State.setPc_F (t : Imm) : (s.setPc t).F = s.F := rfl
@[simp] theorem State.setPc_S (t : Imm) : (s.setPc t).S = s.S := rfl
@[simp] theorem State.setPc_W (t : Imm) : (s.setPc t).W = s.W := rfl
@[simp] theorem State.setPc_A (t : Imm) : (s.setPc t).A = s.A := rfl
@[simp] theorem State.setPc_P (t : Imm) : (s.setPc t).P = s.P := rfl
@[simp] theorem State.setPc_C (t : Imm) : (s.setPc t).C = s.C := rfl
@[simp] theorem State.setPc_L (t : Imm) : (s.setPc t).L = s.L := rfl
@[simp] theorem State.setPc_pc (t : Imm) : (s.setPc t).pc = t := rfl
@[simp] theorem State.setPc_irqEn (t : Imm) : (s.setPc t).irqEn = s.irqEn := rfl
@[simp] theorem State.setPc_busy (t : Imm) : (s.setPc t).busy = s.busy := rfl
@[simp] theorem State.setPc_done (t : Imm) : (s.setPc t).done = s.done := rfl
@[simp] theorem State.setPc_fault (t : Imm) : (s.setPc t).fault = s.fault := rfl
@[simp] theorem State.setPc_herr (t : Imm) : (s.setPc t).herr = s.herr := rfl
@[simp] theorem State.setPc_entry (t : Imm) : (s.setPc t).entry = s.entry := rfl
@[simp] theorem State.setPc_cause (t : Imm) : (s.setPc t).cause = s.cause := rfl
@[simp] theorem State.setPc_fpc (t : Imm) : (s.setPc t).fpc = s.fpc := rfl
@[simp] theorem State.setPc_finstr (t : Imm) : (s.setPc t).finstr = s.finstr := rfl
@[simp] theorem State.setPc_imem (t : Imm) : (s.setPc t).imem = s.imem := rfl
@[simp] theorem State.setPc_dmem (t : Imm) : (s.setPc t).dmem = s.dmem := rfl
@[simp] theorem State.setPc_env (t : Imm) : (s.setPc t).env = s.env := rfl

/-! advance -/

@[simp] theorem State.advance_build : (s.advance).build = s.build := rfl
@[simp] theorem State.advance_F : (s.advance).F = s.F := rfl
@[simp] theorem State.advance_S : (s.advance).S = s.S := rfl
@[simp] theorem State.advance_W : (s.advance).W = s.W := rfl
@[simp] theorem State.advance_A : (s.advance).A = s.A := rfl
@[simp] theorem State.advance_P : (s.advance).P = s.P := rfl
@[simp] theorem State.advance_C : (s.advance).C = s.C := rfl
@[simp] theorem State.advance_L : (s.advance).L = s.L := rfl
@[simp] theorem State.advance_pc : (s.advance).pc = s.pc + 1 := rfl
@[simp] theorem State.advance_irqEn : (s.advance).irqEn = s.irqEn := rfl
@[simp] theorem State.advance_busy : (s.advance).busy = s.busy := rfl
@[simp] theorem State.advance_done : (s.advance).done = s.done := rfl
@[simp] theorem State.advance_fault : (s.advance).fault = s.fault := rfl
@[simp] theorem State.advance_herr : (s.advance).herr = s.herr := rfl
@[simp] theorem State.advance_entry : (s.advance).entry = s.entry := rfl
@[simp] theorem State.advance_cause : (s.advance).cause = s.cause := rfl
@[simp] theorem State.advance_fpc : (s.advance).fpc = s.fpc := rfl
@[simp] theorem State.advance_finstr : (s.advance).finstr = s.finstr := rfl
@[simp] theorem State.advance_imem : (s.advance).imem = s.imem := rfl
@[simp] theorem State.advance_dmem : (s.advance).dmem = s.dmem := rfl
@[simp] theorem State.advance_env : (s.advance).env = s.env := rfl

/-! storeBytes -/

@[simp] theorem State.storeBytes_build (a : Nat) (bs : List Byte) : (s.storeBytes a bs).build = s.build := rfl
@[simp] theorem State.storeBytes_F (a : Nat) (bs : List Byte) : (s.storeBytes a bs).F = s.F := rfl
@[simp] theorem State.storeBytes_S (a : Nat) (bs : List Byte) : (s.storeBytes a bs).S = s.S := rfl
@[simp] theorem State.storeBytes_W (a : Nat) (bs : List Byte) : (s.storeBytes a bs).W = s.W := rfl
@[simp] theorem State.storeBytes_A (a : Nat) (bs : List Byte) : (s.storeBytes a bs).A = s.A := rfl
@[simp] theorem State.storeBytes_P (a : Nat) (bs : List Byte) : (s.storeBytes a bs).P = s.P := rfl
@[simp] theorem State.storeBytes_C (a : Nat) (bs : List Byte) : (s.storeBytes a bs).C = s.C := rfl
@[simp] theorem State.storeBytes_L (a : Nat) (bs : List Byte) : (s.storeBytes a bs).L = s.L := rfl
@[simp] theorem State.storeBytes_pc (a : Nat) (bs : List Byte) : (s.storeBytes a bs).pc = s.pc := rfl
@[simp] theorem State.storeBytes_irqEn (a : Nat) (bs : List Byte) : (s.storeBytes a bs).irqEn = s.irqEn := rfl
@[simp] theorem State.storeBytes_busy (a : Nat) (bs : List Byte) : (s.storeBytes a bs).busy = s.busy := rfl
@[simp] theorem State.storeBytes_done (a : Nat) (bs : List Byte) : (s.storeBytes a bs).done = s.done := rfl
@[simp] theorem State.storeBytes_fault (a : Nat) (bs : List Byte) : (s.storeBytes a bs).fault = s.fault := rfl
@[simp] theorem State.storeBytes_herr (a : Nat) (bs : List Byte) : (s.storeBytes a bs).herr = s.herr := rfl
@[simp] theorem State.storeBytes_entry (a : Nat) (bs : List Byte) : (s.storeBytes a bs).entry = s.entry := rfl
@[simp] theorem State.storeBytes_cause (a : Nat) (bs : List Byte) : (s.storeBytes a bs).cause = s.cause := rfl
@[simp] theorem State.storeBytes_fpc (a : Nat) (bs : List Byte) : (s.storeBytes a bs).fpc = s.fpc := rfl
@[simp] theorem State.storeBytes_finstr (a : Nat) (bs : List Byte) : (s.storeBytes a bs).finstr = s.finstr := rfl
@[simp] theorem State.storeBytes_imem (a : Nat) (bs : List Byte) : (s.storeBytes a bs).imem = s.imem := rfl
@[simp] theorem State.storeBytes_dmem (a : Nat) (bs : List Byte) : (s.storeBytes a bs).dmem = Memory.writeSeq s.dmem a bs := rfl
@[simp] theorem State.storeBytes_env (a : Nat) (bs : List Byte) : (s.storeBytes a bs).env = s.env := rfl

/-! storeInt -/

@[simp] theorem State.storeInt_build (a : Imm) (n v : Nat) : (s.storeInt a n v).build = s.build := rfl
@[simp] theorem State.storeInt_F (a : Imm) (n v : Nat) : (s.storeInt a n v).F = s.F := rfl
@[simp] theorem State.storeInt_S (a : Imm) (n v : Nat) : (s.storeInt a n v).S = s.S := rfl
@[simp] theorem State.storeInt_W (a : Imm) (n v : Nat) : (s.storeInt a n v).W = s.W := rfl
@[simp] theorem State.storeInt_A (a : Imm) (n v : Nat) : (s.storeInt a n v).A = s.A := rfl
@[simp] theorem State.storeInt_P (a : Imm) (n v : Nat) : (s.storeInt a n v).P = s.P := rfl
@[simp] theorem State.storeInt_C (a : Imm) (n v : Nat) : (s.storeInt a n v).C = s.C := rfl
@[simp] theorem State.storeInt_L (a : Imm) (n v : Nat) : (s.storeInt a n v).L = s.L := rfl
@[simp] theorem State.storeInt_pc (a : Imm) (n v : Nat) : (s.storeInt a n v).pc = s.pc := rfl
@[simp] theorem State.storeInt_irqEn (a : Imm) (n v : Nat) : (s.storeInt a n v).irqEn = s.irqEn := rfl
@[simp] theorem State.storeInt_busy (a : Imm) (n v : Nat) : (s.storeInt a n v).busy = s.busy := rfl
@[simp] theorem State.storeInt_done (a : Imm) (n v : Nat) : (s.storeInt a n v).done = s.done := rfl
@[simp] theorem State.storeInt_fault (a : Imm) (n v : Nat) : (s.storeInt a n v).fault = s.fault := rfl
@[simp] theorem State.storeInt_herr (a : Imm) (n v : Nat) : (s.storeInt a n v).herr = s.herr := rfl
@[simp] theorem State.storeInt_entry (a : Imm) (n v : Nat) : (s.storeInt a n v).entry = s.entry := rfl
@[simp] theorem State.storeInt_cause (a : Imm) (n v : Nat) : (s.storeInt a n v).cause = s.cause := rfl
@[simp] theorem State.storeInt_fpc (a : Imm) (n v : Nat) : (s.storeInt a n v).fpc = s.fpc := rfl
@[simp] theorem State.storeInt_finstr (a : Imm) (n v : Nat) : (s.storeInt a n v).finstr = s.finstr := rfl
@[simp] theorem State.storeInt_imem (a : Imm) (n v : Nat) : (s.storeInt a n v).imem = s.imem := rfl
@[simp] theorem State.storeInt_dmem (a : Imm) (n v : Nat) : (s.storeInt a n v).dmem = Memory.writeSeq s.dmem (dataAddr a) (beBytes v n) := rfl
@[simp] theorem State.storeInt_env (a : Imm) (n v : Nat) : (s.storeInt a n v).env = s.env := rfl

/-! storeWord -/

@[simp] theorem State.storeWord_build (k : Nat) (w : Word) : (s.storeWord k w).build = s.build := rfl
@[simp] theorem State.storeWord_F (k : Nat) (w : Word) : (s.storeWord k w).F = s.F := rfl
@[simp] theorem State.storeWord_S (k : Nat) (w : Word) : (s.storeWord k w).S = s.S := rfl
@[simp] theorem State.storeWord_W (k : Nat) (w : Word) : (s.storeWord k w).W = s.W := rfl
@[simp] theorem State.storeWord_A (k : Nat) (w : Word) : (s.storeWord k w).A = s.A := rfl
@[simp] theorem State.storeWord_P (k : Nat) (w : Word) : (s.storeWord k w).P = s.P := rfl
@[simp] theorem State.storeWord_C (k : Nat) (w : Word) : (s.storeWord k w).C = s.C := rfl
@[simp] theorem State.storeWord_L (k : Nat) (w : Word) : (s.storeWord k w).L = s.L := rfl
@[simp] theorem State.storeWord_pc (k : Nat) (w : Word) : (s.storeWord k w).pc = s.pc := rfl
@[simp] theorem State.storeWord_irqEn (k : Nat) (w : Word) : (s.storeWord k w).irqEn = s.irqEn := rfl
@[simp] theorem State.storeWord_busy (k : Nat) (w : Word) : (s.storeWord k w).busy = s.busy := rfl
@[simp] theorem State.storeWord_done (k : Nat) (w : Word) : (s.storeWord k w).done = s.done := rfl
@[simp] theorem State.storeWord_fault (k : Nat) (w : Word) : (s.storeWord k w).fault = s.fault := rfl
@[simp] theorem State.storeWord_herr (k : Nat) (w : Word) : (s.storeWord k w).herr = s.herr := rfl
@[simp] theorem State.storeWord_entry (k : Nat) (w : Word) : (s.storeWord k w).entry = s.entry := rfl
@[simp] theorem State.storeWord_cause (k : Nat) (w : Word) : (s.storeWord k w).cause = s.cause := rfl
@[simp] theorem State.storeWord_fpc (k : Nat) (w : Word) : (s.storeWord k w).fpc = s.fpc := rfl
@[simp] theorem State.storeWord_finstr (k : Nat) (w : Word) : (s.storeWord k w).finstr = s.finstr := rfl
@[simp] theorem State.storeWord_imem (k : Nat) (w : Word) : (s.storeWord k w).imem = Memory.write s.imem k w := rfl
@[simp] theorem State.storeWord_dmem (k : Nat) (w : Word) : (s.storeWord k w).dmem = s.dmem := rfl
@[simp] theorem State.storeWord_env (k : Nat) (w : Word) : (s.storeWord k w).env = s.env := rfl

/-! dropRedundant -/

@[simp] theorem State.dropRedundant_build : (s.dropRedundant).build = s.build := rfl
@[simp] theorem State.dropRedundant_F : (s.dropRedundant).F = s.F := rfl
@[simp] theorem State.dropRedundant_S : (s.dropRedundant).S = s.S := rfl
@[simp] theorem State.dropRedundant_W : (s.dropRedundant).W = s.W := rfl
@[simp] theorem State.dropRedundant_A : (s.dropRedundant).A = s.A := rfl
@[simp] theorem State.dropRedundant_P : (s.dropRedundant).P = s.P := rfl
@[simp] theorem State.dropRedundant_C : (s.dropRedundant).C = s.C := rfl
@[simp] theorem State.dropRedundant_L : (s.dropRedundant).L = s.L := rfl
@[simp] theorem State.dropRedundant_pc : (s.dropRedundant).pc = s.pc := rfl
@[simp] theorem State.dropRedundant_irqEn : (s.dropRedundant).irqEn = s.irqEn := rfl
@[simp] theorem State.dropRedundant_busy : (s.dropRedundant).busy = s.busy := rfl
@[simp] theorem State.dropRedundant_done : (s.dropRedundant).done = s.done := rfl
@[simp] theorem State.dropRedundant_fault : (s.dropRedundant).fault = s.fault := rfl
@[simp] theorem State.dropRedundant_herr : (s.dropRedundant).herr = s.herr := rfl
@[simp] theorem State.dropRedundant_entry : (s.dropRedundant).entry = s.entry := rfl
@[simp] theorem State.dropRedundant_cause : (s.dropRedundant).cause = s.cause := rfl
@[simp] theorem State.dropRedundant_fpc : (s.dropRedundant).fpc = s.fpc := rfl
@[simp] theorem State.dropRedundant_finstr : (s.dropRedundant).finstr = s.finstr := rfl
@[simp] theorem State.dropRedundant_imem : (s.dropRedundant).imem = s.imem := rfl
@[simp] theorem State.dropRedundant_dmem : (s.dropRedundant).dmem = s.dmem := rfl
@[simp] theorem State.dropRedundant_env : (s.dropRedundant).env = { s.env with redundant := s.env.redundant.tail } := rfl

/-! writeMultiplier -/

@[simp] theorem State.writeMultiplier_build (d : Reg) (r : Nat) : (s.writeMultiplier d r).build = s.build := rfl
@[simp] theorem State.writeMultiplier_F (d : Reg) (r : Nat) : (s.writeMultiplier d r).F = s.F.write d (FElem.ofMultiplier r s.nextRedundant) := rfl
@[simp] theorem State.writeMultiplier_S (d : Reg) (r : Nat) : (s.writeMultiplier d r).S = s.S := rfl
@[simp] theorem State.writeMultiplier_W (d : Reg) (r : Nat) : (s.writeMultiplier d r).W = s.W := rfl
@[simp] theorem State.writeMultiplier_A (d : Reg) (r : Nat) : (s.writeMultiplier d r).A = s.A := rfl
@[simp] theorem State.writeMultiplier_P (d : Reg) (r : Nat) : (s.writeMultiplier d r).P = s.P := rfl
@[simp] theorem State.writeMultiplier_C (d : Reg) (r : Nat) : (s.writeMultiplier d r).C = s.C := rfl
@[simp] theorem State.writeMultiplier_L (d : Reg) (r : Nat) : (s.writeMultiplier d r).L = s.L := rfl
@[simp] theorem State.writeMultiplier_pc (d : Reg) (r : Nat) : (s.writeMultiplier d r).pc = s.pc := rfl
@[simp] theorem State.writeMultiplier_irqEn (d : Reg) (r : Nat) : (s.writeMultiplier d r).irqEn = s.irqEn := rfl
@[simp] theorem State.writeMultiplier_busy (d : Reg) (r : Nat) : (s.writeMultiplier d r).busy = s.busy := rfl
@[simp] theorem State.writeMultiplier_done (d : Reg) (r : Nat) : (s.writeMultiplier d r).done = s.done := rfl
@[simp] theorem State.writeMultiplier_fault (d : Reg) (r : Nat) : (s.writeMultiplier d r).fault = s.fault := rfl
@[simp] theorem State.writeMultiplier_herr (d : Reg) (r : Nat) : (s.writeMultiplier d r).herr = s.herr := rfl
@[simp] theorem State.writeMultiplier_entry (d : Reg) (r : Nat) : (s.writeMultiplier d r).entry = s.entry := rfl
@[simp] theorem State.writeMultiplier_cause (d : Reg) (r : Nat) : (s.writeMultiplier d r).cause = s.cause := rfl
@[simp] theorem State.writeMultiplier_fpc (d : Reg) (r : Nat) : (s.writeMultiplier d r).fpc = s.fpc := rfl
@[simp] theorem State.writeMultiplier_finstr (d : Reg) (r : Nat) : (s.writeMultiplier d r).finstr = s.finstr := rfl
@[simp] theorem State.writeMultiplier_imem (d : Reg) (r : Nat) : (s.writeMultiplier d r).imem = s.imem := rfl
@[simp] theorem State.writeMultiplier_dmem (d : Reg) (r : Nat) : (s.writeMultiplier d r).dmem = s.dmem := rfl
@[simp] theorem State.writeMultiplier_env (d : Reg) (r : Nat) : (s.writeMultiplier d r).env = { s.env with redundant := s.env.redundant.tail } := rfl

/-! takeException -/

@[simp] theorem takeException_build (e : Cause) : (takeException e s).build = s.build := rfl
@[simp] theorem takeException_F (e : Cause) : (takeException e s).F = s.F := rfl
@[simp] theorem takeException_S (e : Cause) : (takeException e s).S = s.S := rfl
@[simp] theorem takeException_W (e : Cause) : (takeException e s).W = s.W := rfl
@[simp] theorem takeException_A (e : Cause) : (takeException e s).A = s.A := rfl
@[simp] theorem takeException_P (e : Cause) : (takeException e s).P = s.P := rfl
@[simp] theorem takeException_C (e : Cause) : (takeException e s).C = s.C := rfl
@[simp] theorem takeException_L (e : Cause) : (takeException e s).L = s.L := rfl
@[simp] theorem takeException_pc (e : Cause) : (takeException e s).pc = s.pc := rfl
@[simp] theorem takeException_irqEn (e : Cause) : (takeException e s).irqEn = s.irqEn := rfl
@[simp] theorem takeException_busy (e : Cause) : (takeException e s).busy = false := rfl
@[simp] theorem takeException_done (e : Cause) : (takeException e s).done = s.done := rfl
@[simp] theorem takeException_fault (e : Cause) : (takeException e s).fault = true := rfl
@[simp] theorem takeException_herr (e : Cause) : (takeException e s).herr = s.herr := rfl
@[simp] theorem takeException_entry (e : Cause) : (takeException e s).entry = s.entry := rfl
@[simp] theorem takeException_cause (e : Cause) : (takeException e s).cause = e.code := rfl
@[simp] theorem takeException_fpc (e : Cause) : (takeException e s).fpc = s.pc := rfl
@[simp] theorem takeException_finstr (e : Cause) : (takeException e s).finstr = if e = .fetch then 0 else s.imemWord s.pc.toNat := rfl
@[simp] theorem takeException_imem (e : Cause) : (takeException e s).imem = s.imem := rfl
@[simp] theorem takeException_dmem (e : Cause) : (takeException e s).dmem = s.dmem := rfl
@[simp] theorem takeException_env (e : Cause) : (takeException e s).env = s.env := rfl

/-! finish -/

@[simp] theorem State.finish_build : (s.finish).build = s.build := rfl
@[simp] theorem State.finish_F : (s.finish).F = s.F := rfl
@[simp] theorem State.finish_S : (s.finish).S = s.S := rfl
@[simp] theorem State.finish_W : (s.finish).W = s.W := rfl
@[simp] theorem State.finish_A : (s.finish).A = s.A := rfl
@[simp] theorem State.finish_P : (s.finish).P = s.P := rfl
@[simp] theorem State.finish_C : (s.finish).C = s.C := rfl
@[simp] theorem State.finish_L : (s.finish).L = s.L := rfl
@[simp] theorem State.finish_pc : (s.finish).pc = s.pc := rfl
@[simp] theorem State.finish_irqEn : (s.finish).irqEn = s.irqEn := rfl
@[simp] theorem State.finish_busy : (s.finish).busy = false := rfl
@[simp] theorem State.finish_done : (s.finish).done = true := rfl
@[simp] theorem State.finish_fault : (s.finish).fault = s.fault := rfl
@[simp] theorem State.finish_herr : (s.finish).herr = s.herr := rfl
@[simp] theorem State.finish_entry : (s.finish).entry = s.entry := rfl
@[simp] theorem State.finish_cause : (s.finish).cause = s.cause := rfl
@[simp] theorem State.finish_fpc : (s.finish).fpc = s.fpc := rfl
@[simp] theorem State.finish_finstr : (s.finish).finstr = s.finstr := rfl
@[simp] theorem State.finish_imem : (s.finish).imem = s.imem := rfl
@[simp] theorem State.finish_dmem : (s.finish).dmem = s.dmem := rfl
@[simp] theorem State.finish_env : (s.finish).env = s.env := rfl

/-! start -/

@[simp] theorem State.start_build (b : Bool) : (s.start b).build = s.build := rfl
@[simp] theorem State.start_F (b : Bool) : (s.start b).F = s.F := rfl
@[simp] theorem State.start_S (b : Bool) : (s.start b).S = s.S := rfl
@[simp] theorem State.start_W (b : Bool) : (s.start b).W = s.W := rfl
@[simp] theorem State.start_A (b : Bool) : (s.start b).A = s.A := rfl
@[simp] theorem State.start_P (b : Bool) : (s.start b).P = s.P := rfl
@[simp] theorem State.start_C (b : Bool) : (s.start b).C = s.C := rfl
@[simp] theorem State.start_L (b : Bool) : (s.start b).L = s.L := rfl
@[simp] theorem State.start_pc (b : Bool) : (s.start b).pc = s.entry := rfl
@[simp] theorem State.start_irqEn (b : Bool) : (s.start b).irqEn = b := rfl
@[simp] theorem State.start_busy (b : Bool) : (s.start b).busy = true := rfl
@[simp] theorem State.start_done (b : Bool) : (s.start b).done = false := rfl
@[simp] theorem State.start_fault (b : Bool) : (s.start b).fault = false := rfl
@[simp] theorem State.start_herr (b : Bool) : (s.start b).herr = s.herr := rfl
@[simp] theorem State.start_entry (b : Bool) : (s.start b).entry = s.entry := rfl
@[simp] theorem State.start_cause (b : Bool) : (s.start b).cause = 0 := rfl
@[simp] theorem State.start_fpc (b : Bool) : (s.start b).fpc = 0 := rfl
@[simp] theorem State.start_finstr (b : Bool) : (s.start b).finstr = 0 := rfl
@[simp] theorem State.start_imem (b : Bool) : (s.start b).imem = s.imem := rfl
@[simp] theorem State.start_dmem (b : Bool) : (s.start b).dmem = s.dmem := rfl
@[simp] theorem State.start_env (b : Bool) : (s.start b).env = { s.env with reached := [] } := rfl

/-! softReset -/

@[simp] theorem State.softReset_build : (s.softReset).build = s.build := rfl
@[simp] theorem State.softReset_F : (s.softReset).F = s.F.invalidate := rfl
@[simp] theorem State.softReset_S : (s.softReset).S = s.S.invalidate := rfl
@[simp] theorem State.softReset_W : (s.softReset).W = s.W.invalidate := rfl
@[simp] theorem State.softReset_A : (s.softReset).A = s.A.invalidate := rfl
@[simp] theorem State.softReset_P : (s.softReset).P = s.P.invalidate := rfl
@[simp] theorem State.softReset_C : (s.softReset).C = s.C.invalidate := rfl
@[simp] theorem State.softReset_L : (s.softReset).L = s.L.invalidate := rfl
@[simp] theorem State.softReset_pc : (s.softReset).pc = 0 := rfl
@[simp] theorem State.softReset_irqEn : (s.softReset).irqEn = false := rfl
@[simp] theorem State.softReset_busy : (s.softReset).busy = false := rfl
@[simp] theorem State.softReset_done : (s.softReset).done = false := rfl
@[simp] theorem State.softReset_fault : (s.softReset).fault = false := rfl
@[simp] theorem State.softReset_herr : (s.softReset).herr = false := rfl
@[simp] theorem State.softReset_entry : (s.softReset).entry = 0 := rfl
@[simp] theorem State.softReset_cause : (s.softReset).cause = 0 := rfl
@[simp] theorem State.softReset_fpc : (s.softReset).fpc = 0 := rfl
@[simp] theorem State.softReset_finstr : (s.softReset).finstr = 0 := rfl
@[simp] theorem State.softReset_imem : (s.softReset).imem = s.imem := rfl
@[simp] theorem State.softReset_dmem : (s.softReset).dmem = s.dmem := rfl
@[simp] theorem State.softReset_env : (s.softReset).env = { s.env with reached := [] } := rfl

/-! powerOnReset -/

@[simp] theorem State.powerOnReset_build (k : Nat) : (s.powerOnReset k).build = s.build := rfl
@[simp] theorem State.powerOnReset_F (k : Nat) : (s.powerOnReset k).F = (State.resetOf s.build).F := rfl
@[simp] theorem State.powerOnReset_S (k : Nat) : (s.powerOnReset k).S = (State.resetOf s.build).S := rfl
@[simp] theorem State.powerOnReset_W (k : Nat) : (s.powerOnReset k).W = (State.resetOf s.build).W := rfl
@[simp] theorem State.powerOnReset_A (k : Nat) : (s.powerOnReset k).A = (State.resetOf s.build).A := rfl
@[simp] theorem State.powerOnReset_P (k : Nat) : (s.powerOnReset k).P = (State.resetOf s.build).P := rfl
@[simp] theorem State.powerOnReset_C (k : Nat) : (s.powerOnReset k).C = (State.resetOf s.build).C := rfl
@[simp] theorem State.powerOnReset_L (k : Nat) : (s.powerOnReset k).L = (State.resetOf s.build).L := rfl
@[simp] theorem State.powerOnReset_pc (k : Nat) : (s.powerOnReset k).pc = 0 := rfl
@[simp] theorem State.powerOnReset_irqEn (k : Nat) : (s.powerOnReset k).irqEn = false := rfl
@[simp] theorem State.powerOnReset_busy (k : Nat) : (s.powerOnReset k).busy = false := rfl
@[simp] theorem State.powerOnReset_done (k : Nat) : (s.powerOnReset k).done = false := rfl
@[simp] theorem State.powerOnReset_fault (k : Nat) : (s.powerOnReset k).fault = false := rfl
@[simp] theorem State.powerOnReset_herr (k : Nat) : (s.powerOnReset k).herr = false := rfl
@[simp] theorem State.powerOnReset_entry (k : Nat) : (s.powerOnReset k).entry = 0 := rfl
@[simp] theorem State.powerOnReset_cause (k : Nat) : (s.powerOnReset k).cause = 0 := rfl
@[simp] theorem State.powerOnReset_fpc (k : Nat) : (s.powerOnReset k).fpc = 0 := rfl
@[simp] theorem State.powerOnReset_finstr (k : Nat) : (s.powerOnReset k).finstr = 0 := rfl
@[simp] theorem State.powerOnReset_imem (k : Nat) : (s.powerOnReset k).imem = [] := rfl
@[simp] theorem State.powerOnReset_dmem (k : Nat) : (s.powerOnReset k).dmem = [] := rfl
@[simp] theorem State.powerOnReset_env (k : Nat) : (s.powerOnReset k).env = { s.env with reached := [], powerOn := k } := rfl

/-! setHerr -/

@[simp] theorem State.setHerr_build : (s.setHerr).build = s.build := rfl
@[simp] theorem State.setHerr_F : (s.setHerr).F = s.F := rfl
@[simp] theorem State.setHerr_S : (s.setHerr).S = s.S := rfl
@[simp] theorem State.setHerr_W : (s.setHerr).W = s.W := rfl
@[simp] theorem State.setHerr_A : (s.setHerr).A = s.A := rfl
@[simp] theorem State.setHerr_P : (s.setHerr).P = s.P := rfl
@[simp] theorem State.setHerr_C : (s.setHerr).C = s.C := rfl
@[simp] theorem State.setHerr_L : (s.setHerr).L = s.L := rfl
@[simp] theorem State.setHerr_pc : (s.setHerr).pc = s.pc := rfl
@[simp] theorem State.setHerr_irqEn : (s.setHerr).irqEn = s.irqEn := rfl
@[simp] theorem State.setHerr_busy : (s.setHerr).busy = s.busy := rfl
@[simp] theorem State.setHerr_done : (s.setHerr).done = s.done := rfl
@[simp] theorem State.setHerr_fault : (s.setHerr).fault = s.fault := rfl
@[simp] theorem State.setHerr_herr : (s.setHerr).herr = true := rfl
@[simp] theorem State.setHerr_entry : (s.setHerr).entry = s.entry := rfl
@[simp] theorem State.setHerr_cause : (s.setHerr).cause = s.cause := rfl
@[simp] theorem State.setHerr_fpc : (s.setHerr).fpc = s.fpc := rfl
@[simp] theorem State.setHerr_finstr : (s.setHerr).finstr = s.finstr := rfl
@[simp] theorem State.setHerr_imem : (s.setHerr).imem = s.imem := rfl
@[simp] theorem State.setHerr_dmem : (s.setHerr).dmem = s.dmem := rfl
@[simp] theorem State.setHerr_env : (s.setHerr).env = s.env := rfl

/-! setBusData -/

@[simp] theorem State.setBusData_build (v : BitVec 32) : (s.setBusData v).build = s.build := rfl
@[simp] theorem State.setBusData_F (v : BitVec 32) : (s.setBusData v).F = s.F := rfl
@[simp] theorem State.setBusData_S (v : BitVec 32) : (s.setBusData v).S = s.S := rfl
@[simp] theorem State.setBusData_W (v : BitVec 32) : (s.setBusData v).W = s.W := rfl
@[simp] theorem State.setBusData_A (v : BitVec 32) : (s.setBusData v).A = s.A := rfl
@[simp] theorem State.setBusData_P (v : BitVec 32) : (s.setBusData v).P = s.P := rfl
@[simp] theorem State.setBusData_C (v : BitVec 32) : (s.setBusData v).C = s.C := rfl
@[simp] theorem State.setBusData_L (v : BitVec 32) : (s.setBusData v).L = s.L := rfl
@[simp] theorem State.setBusData_pc (v : BitVec 32) : (s.setBusData v).pc = s.pc := rfl
@[simp] theorem State.setBusData_irqEn (v : BitVec 32) : (s.setBusData v).irqEn = s.irqEn := rfl
@[simp] theorem State.setBusData_busy (v : BitVec 32) : (s.setBusData v).busy = s.busy := rfl
@[simp] theorem State.setBusData_done (v : BitVec 32) : (s.setBusData v).done = s.done := rfl
@[simp] theorem State.setBusData_fault (v : BitVec 32) : (s.setBusData v).fault = s.fault := rfl
@[simp] theorem State.setBusData_herr (v : BitVec 32) : (s.setBusData v).herr = s.herr := rfl
@[simp] theorem State.setBusData_entry (v : BitVec 32) : (s.setBusData v).entry = s.entry := rfl
@[simp] theorem State.setBusData_cause (v : BitVec 32) : (s.setBusData v).cause = s.cause := rfl
@[simp] theorem State.setBusData_fpc (v : BitVec 32) : (s.setBusData v).fpc = s.fpc := rfl
@[simp] theorem State.setBusData_finstr (v : BitVec 32) : (s.setBusData v).finstr = s.finstr := rfl
@[simp] theorem State.setBusData_imem (v : BitVec 32) : (s.setBusData v).imem = s.imem := rfl
@[simp] theorem State.setBusData_dmem (v : BitVec 32) : (s.setBusData v).dmem = s.dmem := rfl
@[simp] theorem State.setBusData_env (v : BitVec 32) : (s.setBusData v).env = { s.env with busData := v } := rfl

/-! setIrqEn -/

@[simp] theorem State.setIrqEn_build (b : Bool) : (s.setIrqEn b).build = s.build := rfl
@[simp] theorem State.setIrqEn_F (b : Bool) : (s.setIrqEn b).F = s.F := rfl
@[simp] theorem State.setIrqEn_S (b : Bool) : (s.setIrqEn b).S = s.S := rfl
@[simp] theorem State.setIrqEn_W (b : Bool) : (s.setIrqEn b).W = s.W := rfl
@[simp] theorem State.setIrqEn_A (b : Bool) : (s.setIrqEn b).A = s.A := rfl
@[simp] theorem State.setIrqEn_P (b : Bool) : (s.setIrqEn b).P = s.P := rfl
@[simp] theorem State.setIrqEn_C (b : Bool) : (s.setIrqEn b).C = s.C := rfl
@[simp] theorem State.setIrqEn_L (b : Bool) : (s.setIrqEn b).L = s.L := rfl
@[simp] theorem State.setIrqEn_pc (b : Bool) : (s.setIrqEn b).pc = s.pc := rfl
@[simp] theorem State.setIrqEn_irqEn (b : Bool) : (s.setIrqEn b).irqEn = b := rfl
@[simp] theorem State.setIrqEn_busy (b : Bool) : (s.setIrqEn b).busy = s.busy := rfl
@[simp] theorem State.setIrqEn_done (b : Bool) : (s.setIrqEn b).done = s.done := rfl
@[simp] theorem State.setIrqEn_fault (b : Bool) : (s.setIrqEn b).fault = s.fault := rfl
@[simp] theorem State.setIrqEn_herr (b : Bool) : (s.setIrqEn b).herr = s.herr := rfl
@[simp] theorem State.setIrqEn_entry (b : Bool) : (s.setIrqEn b).entry = s.entry := rfl
@[simp] theorem State.setIrqEn_cause (b : Bool) : (s.setIrqEn b).cause = s.cause := rfl
@[simp] theorem State.setIrqEn_fpc (b : Bool) : (s.setIrqEn b).fpc = s.fpc := rfl
@[simp] theorem State.setIrqEn_finstr (b : Bool) : (s.setIrqEn b).finstr = s.finstr := rfl
@[simp] theorem State.setIrqEn_imem (b : Bool) : (s.setIrqEn b).imem = s.imem := rfl
@[simp] theorem State.setIrqEn_dmem (b : Bool) : (s.setIrqEn b).dmem = s.dmem := rfl
@[simp] theorem State.setIrqEn_env (b : Bool) : (s.setIrqEn b).env = s.env := rfl

/-! setEntry -/

@[simp] theorem State.setEntry_build (v : Imm) : (s.setEntry v).build = s.build := rfl
@[simp] theorem State.setEntry_F (v : Imm) : (s.setEntry v).F = s.F := rfl
@[simp] theorem State.setEntry_S (v : Imm) : (s.setEntry v).S = s.S := rfl
@[simp] theorem State.setEntry_W (v : Imm) : (s.setEntry v).W = s.W := rfl
@[simp] theorem State.setEntry_A (v : Imm) : (s.setEntry v).A = s.A := rfl
@[simp] theorem State.setEntry_P (v : Imm) : (s.setEntry v).P = s.P := rfl
@[simp] theorem State.setEntry_C (v : Imm) : (s.setEntry v).C = s.C := rfl
@[simp] theorem State.setEntry_L (v : Imm) : (s.setEntry v).L = s.L := rfl
@[simp] theorem State.setEntry_pc (v : Imm) : (s.setEntry v).pc = s.pc := rfl
@[simp] theorem State.setEntry_irqEn (v : Imm) : (s.setEntry v).irqEn = s.irqEn := rfl
@[simp] theorem State.setEntry_busy (v : Imm) : (s.setEntry v).busy = s.busy := rfl
@[simp] theorem State.setEntry_done (v : Imm) : (s.setEntry v).done = s.done := rfl
@[simp] theorem State.setEntry_fault (v : Imm) : (s.setEntry v).fault = s.fault := rfl
@[simp] theorem State.setEntry_herr (v : Imm) : (s.setEntry v).herr = s.herr := rfl
@[simp] theorem State.setEntry_entry (v : Imm) : (s.setEntry v).entry = v := rfl
@[simp] theorem State.setEntry_cause (v : Imm) : (s.setEntry v).cause = s.cause := rfl
@[simp] theorem State.setEntry_fpc (v : Imm) : (s.setEntry v).fpc = s.fpc := rfl
@[simp] theorem State.setEntry_finstr (v : Imm) : (s.setEntry v).finstr = s.finstr := rfl
@[simp] theorem State.setEntry_imem (v : Imm) : (s.setEntry v).imem = s.imem := rfl
@[simp] theorem State.setEntry_dmem (v : Imm) : (s.setEntry v).dmem = s.dmem := rfl
@[simp] theorem State.setEntry_env (v : Imm) : (s.setEntry v).env = s.env := rfl

/-! countDraw -/

@[simp] theorem State.countDraw_build : (s.countDraw).build = s.build := rfl
@[simp] theorem State.countDraw_F : (s.countDraw).F = s.F := rfl
@[simp] theorem State.countDraw_S : (s.countDraw).S = s.S := rfl
@[simp] theorem State.countDraw_W : (s.countDraw).W = s.W := rfl
@[simp] theorem State.countDraw_A : (s.countDraw).A = s.A := rfl
@[simp] theorem State.countDraw_P : (s.countDraw).P = s.P := rfl
@[simp] theorem State.countDraw_C : (s.countDraw).C = s.C := rfl
@[simp] theorem State.countDraw_L : (s.countDraw).L = s.L := rfl
@[simp] theorem State.countDraw_pc : (s.countDraw).pc = s.pc := rfl
@[simp] theorem State.countDraw_irqEn : (s.countDraw).irqEn = s.irqEn := rfl
@[simp] theorem State.countDraw_busy : (s.countDraw).busy = s.busy := rfl
@[simp] theorem State.countDraw_done : (s.countDraw).done = s.done := rfl
@[simp] theorem State.countDraw_fault : (s.countDraw).fault = s.fault := rfl
@[simp] theorem State.countDraw_herr : (s.countDraw).herr = s.herr := rfl
@[simp] theorem State.countDraw_entry : (s.countDraw).entry = s.entry := rfl
@[simp] theorem State.countDraw_cause : (s.countDraw).cause = s.cause := rfl
@[simp] theorem State.countDraw_fpc : (s.countDraw).fpc = s.fpc := rfl
@[simp] theorem State.countDraw_finstr : (s.countDraw).finstr = s.finstr := rfl
@[simp] theorem State.countDraw_imem : (s.countDraw).imem = s.imem := rfl
@[simp] theorem State.countDraw_dmem : (s.countDraw).dmem = s.dmem := rfl
@[simp] theorem State.countDraw_env : (s.countDraw).env = { s.env with draws := s.env.draws + 1 } := rfl

/-! clearStatus -/

@[simp] theorem State.clearStatus_build (d : BitVec 32) : (s.clearStatus d).build = s.build := rfl
@[simp] theorem State.clearStatus_F (d : BitVec 32) : (s.clearStatus d).F = s.F := rfl
@[simp] theorem State.clearStatus_S (d : BitVec 32) : (s.clearStatus d).S = s.S := rfl
@[simp] theorem State.clearStatus_W (d : BitVec 32) : (s.clearStatus d).W = s.W := rfl
@[simp] theorem State.clearStatus_A (d : BitVec 32) : (s.clearStatus d).A = s.A := rfl
@[simp] theorem State.clearStatus_P (d : BitVec 32) : (s.clearStatus d).P = s.P := rfl
@[simp] theorem State.clearStatus_C (d : BitVec 32) : (s.clearStatus d).C = s.C := rfl
@[simp] theorem State.clearStatus_L (d : BitVec 32) : (s.clearStatus d).L = s.L := rfl
@[simp] theorem State.clearStatus_pc (d : BitVec 32) : (s.clearStatus d).pc = s.pc := rfl
@[simp] theorem State.clearStatus_irqEn (d : BitVec 32) : (s.clearStatus d).irqEn = s.irqEn := rfl
@[simp] theorem State.clearStatus_busy (d : BitVec 32) : (s.clearStatus d).busy = s.busy := rfl
@[simp] theorem State.clearStatus_done (d : BitVec 32) : (s.clearStatus d).done = (s.done && !d.getLsbD 1) := rfl
@[simp] theorem State.clearStatus_fault (d : BitVec 32) : (s.clearStatus d).fault = (s.fault && !d.getLsbD 2) := rfl
@[simp] theorem State.clearStatus_herr (d : BitVec 32) : (s.clearStatus d).herr = (s.herr && !d.getLsbD 3) := rfl
@[simp] theorem State.clearStatus_entry (d : BitVec 32) : (s.clearStatus d).entry = s.entry := rfl
@[simp] theorem State.clearStatus_cause (d : BitVec 32) : (s.clearStatus d).cause = s.cause := rfl
@[simp] theorem State.clearStatus_fpc (d : BitVec 32) : (s.clearStatus d).fpc = s.fpc := rfl
@[simp] theorem State.clearStatus_finstr (d : BitVec 32) : (s.clearStatus d).finstr = s.finstr := rfl
@[simp] theorem State.clearStatus_imem (d : BitVec 32) : (s.clearStatus d).imem = s.imem := rfl
@[simp] theorem State.clearStatus_dmem (d : BitVec 32) : (s.clearStatus d).dmem = s.dmem := rfl
@[simp] theorem State.clearStatus_env (d : BitVec 32) : (s.clearStatus d).env = s.env := rfl

/-! dropMove -/

@[simp] theorem State.dropMove_build : (s.dropMove).build = s.build := rfl
@[simp] theorem State.dropMove_F : (s.dropMove).F = s.F := rfl
@[simp] theorem State.dropMove_S : (s.dropMove).S = s.S := rfl
@[simp] theorem State.dropMove_W : (s.dropMove).W = s.W := rfl
@[simp] theorem State.dropMove_A : (s.dropMove).A = s.A := rfl
@[simp] theorem State.dropMove_P : (s.dropMove).P = s.P := rfl
@[simp] theorem State.dropMove_C : (s.dropMove).C = s.C := rfl
@[simp] theorem State.dropMove_L : (s.dropMove).L = s.L := rfl
@[simp] theorem State.dropMove_pc : (s.dropMove).pc = s.pc := rfl
@[simp] theorem State.dropMove_irqEn : (s.dropMove).irqEn = s.irqEn := rfl
@[simp] theorem State.dropMove_busy : (s.dropMove).busy = s.busy := rfl
@[simp] theorem State.dropMove_done : (s.dropMove).done = s.done := rfl
@[simp] theorem State.dropMove_fault : (s.dropMove).fault = s.fault := rfl
@[simp] theorem State.dropMove_herr : (s.dropMove).herr = s.herr := rfl
@[simp] theorem State.dropMove_entry : (s.dropMove).entry = s.entry := rfl
@[simp] theorem State.dropMove_cause : (s.dropMove).cause = s.cause := rfl
@[simp] theorem State.dropMove_fpc : (s.dropMove).fpc = s.fpc := rfl
@[simp] theorem State.dropMove_finstr : (s.dropMove).finstr = s.finstr := rfl
@[simp] theorem State.dropMove_imem : (s.dropMove).imem = s.imem := rfl
@[simp] theorem State.dropMove_dmem : (s.dropMove).dmem = s.dmem := rfl
@[simp] theorem State.dropMove_env : (s.dropMove).env = { s.env with moves := s.env.moves.tail } := rfl

/-! noteReached -/

@[simp] theorem State.noteReached_build : (s.noteReached).build = s.build := by unfold State.noteReached; split <;> rfl
@[simp] theorem State.noteReached_F : (s.noteReached).F = s.F := by unfold State.noteReached; split <;> rfl
@[simp] theorem State.noteReached_S : (s.noteReached).S = s.S := by unfold State.noteReached; split <;> rfl
@[simp] theorem State.noteReached_W : (s.noteReached).W = s.W := by unfold State.noteReached; split <;> rfl
@[simp] theorem State.noteReached_A : (s.noteReached).A = s.A := by unfold State.noteReached; split <;> rfl
@[simp] theorem State.noteReached_P : (s.noteReached).P = s.P := by unfold State.noteReached; split <;> rfl
@[simp] theorem State.noteReached_C : (s.noteReached).C = s.C := by unfold State.noteReached; split <;> rfl
@[simp] theorem State.noteReached_L : (s.noteReached).L = s.L := by unfold State.noteReached; split <;> rfl
@[simp] theorem State.noteReached_pc : (s.noteReached).pc = s.pc := by unfold State.noteReached; split <;> rfl
@[simp] theorem State.noteReached_irqEn : (s.noteReached).irqEn = s.irqEn := by unfold State.noteReached; split <;> rfl
@[simp] theorem State.noteReached_busy : (s.noteReached).busy = s.busy := by unfold State.noteReached; split <;> rfl
@[simp] theorem State.noteReached_done : (s.noteReached).done = s.done := by unfold State.noteReached; split <;> rfl
@[simp] theorem State.noteReached_fault : (s.noteReached).fault = s.fault := by unfold State.noteReached; split <;> rfl
@[simp] theorem State.noteReached_herr : (s.noteReached).herr = s.herr := by unfold State.noteReached; split <;> rfl
@[simp] theorem State.noteReached_entry : (s.noteReached).entry = s.entry := by unfold State.noteReached; split <;> rfl
@[simp] theorem State.noteReached_cause : (s.noteReached).cause = s.cause := by unfold State.noteReached; split <;> rfl
@[simp] theorem State.noteReached_fpc : (s.noteReached).fpc = s.fpc := by unfold State.noteReached; split <;> rfl
@[simp] theorem State.noteReached_finstr : (s.noteReached).finstr = s.finstr := by unfold State.noteReached; split <;> rfl
@[simp] theorem State.noteReached_imem : (s.noteReached).imem = s.imem := by unfold State.noteReached; split <;> rfl
@[simp] theorem State.noteReached_dmem : (s.noteReached).dmem = s.dmem := by unfold State.noteReached; split <;> rfl

/-! What a memory reads as after an update that does not store to it. -/

@[simp] theorem State.writeF_dmemByte (d : Reg) (v : FElem) (i : Nat) : (s.writeF d v).dmemByte i = s.dmemByte i := rfl
@[simp] theorem State.writeF_imemWord (d : Reg) (v : FElem) (i : Nat) : (s.writeF d v).imemWord i = s.imemWord i := rfl
@[simp] theorem State.writeS_dmemByte (d : Reg) (v : BitVec 256) (i : Nat) : (s.writeS d v).dmemByte i = s.dmemByte i := rfl
@[simp] theorem State.writeS_imemWord (d : Reg) (v : BitVec 256) (i : Nat) : (s.writeS d v).imemWord i = s.imemWord i := rfl
@[simp] theorem State.writeW_dmemByte (d : Reg) (v : BitVec 512) (i : Nat) : (s.writeW d v).dmemByte i = s.dmemByte i := rfl
@[simp] theorem State.writeW_imemWord (d : Reg) (v : BitVec 512) (i : Nat) : (s.writeW d v).imemWord i = s.imemWord i := rfl
@[simp] theorem State.writeA_dmemByte (d : Reg) (v : APoint) (i : Nat) : (s.writeA d v).dmemByte i = s.dmemByte i := rfl
@[simp] theorem State.writeA_imemWord (d : Reg) (v : APoint) (i : Nat) : (s.writeA d v).imemWord i = s.imemWord i := rfl
@[simp] theorem State.writeP_dmemByte (d : Reg) (v : PPoint) (i : Nat) : (s.writeP d v).dmemByte i = s.dmemByte i := rfl
@[simp] theorem State.writeP_imemWord (d : Reg) (v : PPoint) (i : Nat) : (s.writeP d v).imemWord i = s.imemWord i := rfl
@[simp] theorem State.writeC_dmemByte (d : Reg) (v : Bool) (i : Nat) : (s.writeC d v).dmemByte i = s.dmemByte i := rfl
@[simp] theorem State.writeC_imemWord (d : Reg) (v : Bool) (i : Nat) : (s.writeC d v).imemWord i = s.imemWord i := rfl
@[simp] theorem State.writeL_dmemByte (d : Reg) (v : BitVec 16) (i : Nat) : (s.writeL d v).dmemByte i = s.dmemByte i := rfl
@[simp] theorem State.writeL_imemWord (d : Reg) (v : BitVec 16) (i : Nat) : (s.writeL d v).imemWord i = s.imemWord i := rfl
@[simp] theorem State.setPc_dmemByte (t : Imm) (i : Nat) : (s.setPc t).dmemByte i = s.dmemByte i := rfl
@[simp] theorem State.setPc_imemWord (t : Imm) (i : Nat) : (s.setPc t).imemWord i = s.imemWord i := rfl
@[simp] theorem State.advance_dmemByte (i : Nat) : (s.advance).dmemByte i = s.dmemByte i := rfl
@[simp] theorem State.advance_imemWord (i : Nat) : (s.advance).imemWord i = s.imemWord i := rfl
@[simp] theorem State.storeBytes_imemWord (a : Nat) (bs : List Byte) (i : Nat) : (s.storeBytes a bs).imemWord i = s.imemWord i := rfl
@[simp] theorem State.storeWord_dmemByte (k : Nat) (w : Word) (i : Nat) : (s.storeWord k w).dmemByte i = s.dmemByte i := rfl
@[simp] theorem State.dropRedundant_dmemByte (i : Nat) : (s.dropRedundant).dmemByte i = s.dmemByte i := rfl
@[simp] theorem State.dropRedundant_imemWord (i : Nat) : (s.dropRedundant).imemWord i = s.imemWord i := rfl
@[simp] theorem State.writeMultiplier_dmemByte (d : Reg) (r : Nat) (i : Nat) : (s.writeMultiplier d r).dmemByte i = s.dmemByte i := rfl
@[simp] theorem State.writeMultiplier_imemWord (d : Reg) (r : Nat) (i : Nat) : (s.writeMultiplier d r).imemWord i = s.imemWord i := rfl
@[simp] theorem takeException_dmemByte (e : Cause) (i : Nat) : (takeException e s).dmemByte i = s.dmemByte i := rfl
@[simp] theorem takeException_imemWord (e : Cause) (i : Nat) : (takeException e s).imemWord i = s.imemWord i := rfl
@[simp] theorem State.finish_dmemByte (i : Nat) : (s.finish).dmemByte i = s.dmemByte i := rfl
@[simp] theorem State.finish_imemWord (i : Nat) : (s.finish).imemWord i = s.imemWord i := rfl
@[simp] theorem State.start_dmemByte (b : Bool) (i : Nat) : (s.start b).dmemByte i = s.dmemByte i := rfl
@[simp] theorem State.start_imemWord (b : Bool) (i : Nat) : (s.start b).imemWord i = s.imemWord i := rfl
@[simp] theorem State.softReset_dmemByte (i : Nat) : (s.softReset).dmemByte i = s.dmemByte i := rfl
@[simp] theorem State.softReset_imemWord (i : Nat) : (s.softReset).imemWord i = s.imemWord i := rfl
@[simp] theorem State.setHerr_dmemByte (i : Nat) : (s.setHerr).dmemByte i = s.dmemByte i := rfl
@[simp] theorem State.setHerr_imemWord (i : Nat) : (s.setHerr).imemWord i = s.imemWord i := rfl
@[simp] theorem State.setBusData_dmemByte (v : BitVec 32) (i : Nat) : (s.setBusData v).dmemByte i = s.dmemByte i := rfl
@[simp] theorem State.setBusData_imemWord (v : BitVec 32) (i : Nat) : (s.setBusData v).imemWord i = s.imemWord i := rfl
@[simp] theorem State.setIrqEn_dmemByte (b : Bool) (i : Nat) : (s.setIrqEn b).dmemByte i = s.dmemByte i := rfl
@[simp] theorem State.setIrqEn_imemWord (b : Bool) (i : Nat) : (s.setIrqEn b).imemWord i = s.imemWord i := rfl
@[simp] theorem State.setEntry_dmemByte (v : Imm) (i : Nat) : (s.setEntry v).dmemByte i = s.dmemByte i := rfl
@[simp] theorem State.setEntry_imemWord (v : Imm) (i : Nat) : (s.setEntry v).imemWord i = s.imemWord i := rfl
@[simp] theorem State.countDraw_dmemByte (i : Nat) : (s.countDraw).dmemByte i = s.dmemByte i := rfl
@[simp] theorem State.countDraw_imemWord (i : Nat) : (s.countDraw).imemWord i = s.imemWord i := rfl
@[simp] theorem State.clearStatus_dmemByte (d : BitVec 32) (i : Nat) : (s.clearStatus d).dmemByte i = s.dmemByte i := rfl
@[simp] theorem State.clearStatus_imemWord (d : BitVec 32) (i : Nat) : (s.clearStatus d).imemWord i = s.imemWord i := rfl
@[simp] theorem State.dropMove_dmemByte (i : Nat) : (s.dropMove).dmemByte i = s.dmemByte i := rfl
@[simp] theorem State.dropMove_imemWord (i : Nat) : (s.dropMove).imemWord i = s.imemWord i := rfl
@[simp] theorem State.noteReached_dmemByte (i : Nat) : (s.noteReached).dmemByte i = s.dmemByte i := by unfold State.noteReached; split <;> rfl
@[simp] theorem State.noteReached_imemWord (i : Nat) : (s.noteReached).imemWord i = s.imemWord i := by unfold State.noteReached; split <;> rfl

@[simp] theorem State.powerOnReset_dmemByte (k i : Nat) : (s.powerOnReset k).dmemByte i = Config.powerOnByte k i := rfl
@[simp] theorem State.powerOnReset_imemWord (k i : Nat) : (s.powerOnReset k).imemWord i = Config.powerOnWord k i := rfl

/-! The fields of env after noteReached. -/

@[simp] theorem State.noteReached_env_moves : s.noteReached.env.moves = s.env.moves := by
  unfold State.noteReached; split <;> rfl
@[simp] theorem State.noteReached_env_busData : s.noteReached.env.busData = s.env.busData := by
  unfold State.noteReached; split <;> rfl
@[simp] theorem State.noteReached_env_draws : s.noteReached.env.draws = s.env.draws := by
  unfold State.noteReached; split <;> rfl
@[simp] theorem State.noteReached_env_redundant : s.noteReached.env.redundant = s.env.redundant := by
  unfold State.noteReached; split <;> rfl
@[simp] theorem State.noteReached_env_powerOn : s.noteReached.env.powerOn = s.env.powerOn := by
  unfold State.noteReached; split <;> rfl

theorem State.mem_noteReached {q : Imm} : q ∈ s.noteReached.env.reached ↔ q = s.pc ∨ q ∈ s.env.reached := by
  unfold State.noteReached
  split <;> simp_all

/-- The pc of the command about to be fetched is among those the run has reached. -/
theorem State.pc_mem_noteReached : s.pc ∈ s.noteReached.env.reached := by
  unfold State.noteReached
  split
  · assumption
  · exact List.mem_cons_self

end Sys2Proof.Machine
end

