-- ==== Sys2Proof/Laws/Memory.lean ====
section
/-! SUPPORT. Memories: a read after a write, and that every operation keeps the canonical form. -/

namespace Sys2Proof.Machine

variable {w : Nat}

@[simp] theorem Memory.read?_write_same (m : Memory w) (a : Nat) (v : BitVec w) :
    Memory.read? (Memory.write m a v) a = some v := by
  induction m with
  | nil => simp [Memory.write, Memory.read?]
  | cons c m ih =>
    obtain ⟨k, u⟩ := c
    simp only [Memory.write]
    split
    · simp [Memory.read?]
    · split
      · simp [Memory.read?]
      · have : k ≠ a := by omega
        simp [Memory.read?, this, ih]

@[simp] theorem Memory.read?_write_other (m : Memory w) {a b : Nat} (v : BitVec w) (h : a ≠ b) :
    Memory.read? (Memory.write m a v) b = Memory.read? m b := by
  induction m with
  | nil => simp [Memory.write, Memory.read?, h]
  | cons c m ih =>
    obtain ⟨k, u⟩ := c
    simp only [Memory.write]
    split
    · simp [Memory.read?, h]
    · split
      · next h' => subst h'; simp [Memory.read?, h]
      · simp [Memory.read?, ih]

/-- An address listed after a write is the written one or was listed. -/
theorem Memory.mem_write {m : Memory w} {a : Nat} {v : BitVec w} {c : Nat × BitVec w}
    (h : c ∈ Memory.write m a v) : c.1 = a ∨ c ∈ m := by
  induction m with
  | nil => simp [Memory.write] at h; simp [h]
  | cons d m ih =>
    obtain ⟨k, u⟩ := d
    simp only [Memory.write] at h
    split at h
    · rcases List.mem_cons.mp h with h | h
      · simp [h]
      · exact .inr h
    · split at h
      · rcases List.mem_cons.mp h with h | h
        · simp [h]
        · exact .inr (List.mem_cons_of_mem _ h)
      · rcases List.mem_cons.mp h with h | h
        · exact .inr (by simp [h])
        · rcases ih h with h | h
          · exact .inl h
          · exact .inr (List.mem_cons_of_mem _ h)

/-- A write keeps the canonical form. -/
theorem Memory.wf_write {m : Memory w} (hm : Memory.wf m) (a : Nat) (v : BitVec w) :
    Memory.wf (Memory.write m a v) := by
  induction m with
  | nil => simp [Memory.write, Memory.wf]
  | cons c m ih =>
    obtain ⟨k, u⟩ := c
    have hk : ∀ b ∈ m.map Prod.fst, k < b := (List.pairwise_cons.mp hm).1
    have hm' : Memory.wf m := (List.pairwise_cons.mp hm).2
    simp only [Memory.write]
    split
    · next h =>
      refine List.pairwise_cons.mpr ⟨fun b hb => ?_, hm⟩
      rcases List.mem_cons.mp hb with hb | hb
      · omega
      · exact lt_trans h (hk b hb)
    · split
      · next h => subst h; exact List.pairwise_cons.mpr ⟨hk, hm'⟩
      · refine List.pairwise_cons.mpr ⟨fun b hb => ?_, ih hm'⟩
        obtain ⟨c, hc, rfl⟩ := List.mem_map.mp hb
        rcases Memory.mem_write hc with h' | h'
        · omega
        · exact hk _ (List.mem_map_of_mem h')

/-- A sequence of writes keeps the canonical form. -/
theorem Memory.wf_writeSeq {m : Memory w} (hm : Memory.wf m) (a : Nat) (bs : List (BitVec w)) :
    Memory.wf (Memory.writeSeq m a bs) := by
  induction bs generalizing m a with
  | nil => exact hm
  | cons b bs ih => exact ih (Memory.wf_write hm a b) (a + 1)

/-- An address listed after a sequence of writes is inside it or was listed. -/
theorem Memory.mem_writeSeq {m : Memory w} {a : Nat} {bs : List (BitVec w)} {c : Nat × BitVec w}
    (h : c ∈ Memory.writeSeq m a bs) : (a ≤ c.1 ∧ c.1 < a + bs.length) ∨ c ∈ m := by
  induction bs generalizing m a with
  | nil => exact .inr h
  | cons b bs ih =>
    rcases ih h with h | h
    · left; simp only [List.length_cons]; omega
    · rcases Memory.mem_write h with h | h
      · left; simp only [List.length_cons]; omega
      · exact .inr h

/-- Outside the written addresses a read gives what it gave. -/
theorem Memory.read?_writeSeq_outside (m : Memory w) (a : Nat) (bs : List (BitVec w)) {b : Nat}
    (h : b < a ∨ a + bs.length ≤ b) : Memory.read? (Memory.writeSeq m a bs) b = Memory.read? m b := by
  induction bs generalizing m a with
  | nil => rfl
  | cons x bs ih =>
    simp only [List.length_cons] at h
    simp only [Memory.writeSeq]
    rw [ih _ _ (by omega), Memory.read?_write_other _ _ (by omega)]

/-- Inside the written addresses a read gives the value written there. -/
theorem Memory.read?_writeSeq_inside (m : Memory w) (a : Nat) (bs : List (BitVec w)) {k : Nat} (h : k < bs.length) :
    Memory.read? (Memory.writeSeq m a bs) (a + k) = some bs[k] := by
  induction bs generalizing m a k with
  | nil => simp at h
  | cons x bs ih =>
    simp only [Memory.writeSeq]
    cases k with
    | zero => rw [Memory.read?_writeSeq_outside _ _ _ (by omega)]; simp
    | succ k =>
      have hk : k < bs.length := by simpa using h
      have : a + (k + 1) = (a + 1) + k := by omega
      rw [this, ih _ _ hk]; simp

/-! ### DMEM and IMEM as the block reads them -/

theorem State.dmemByte_storeBytes_outside (s : State) (a : Nat) (bs : List Byte) {b : Nat}
    (h : b < a ∨ a + bs.length ≤ b) : (s.storeBytes a bs).dmemByte b = s.dmemByte b := by
  simp [State.dmemByte, Memory.read?_writeSeq_outside _ _ _ h]

theorem State.dmemByte_storeBytes_inside (s : State) (a : Nat) (bs : List Byte) {k : Nat} (h : k < bs.length) :
    (s.storeBytes a bs).dmemByte (a + k) = bs[k] := by
  simp [State.dmemByte, Memory.read?_writeSeq_inside _ _ _ h]

theorem State.imemWord_storeWord_same (s : State) (i : Nat) (x : Word) : (s.storeWord i x).imemWord i = x := by
  simp [State.imemWord]

theorem State.imemWord_storeWord_other (s : State) {i j : Nat} (x : Word) (h : i ≠ j) :
    (s.storeWord i x).imemWord j = s.imemWord j := by
  simp [State.imemWord, Memory.read?_write_other _ _ h]

/-- A DMEM byte depends on the memory and the power-on draw alone. -/
theorem State.dmemByte_congr {s t : State} (hm : t.dmem = s.dmem) (he : t.env.powerOn = s.env.powerOn) (a : Nat) :
    t.dmemByte a = s.dmemByte a := by simp [State.dmemByte, hm, he]

/-- An IMEM word depends on the memory and the power-on draw alone. -/
theorem State.imemWord_congr {s t : State} (hm : t.imem = s.imem) (he : t.env.powerOn = s.env.powerOn) (a : Nat) :
    t.imemWord a = s.imemWord a := by simp [State.imemWord, hm, he]

/-- The first store does not reach the second's bytes: a read of a stored range gives back the bytes. -/
theorem State.readBytes_storeBytes (s : State) (a : Nat) (bs : List Byte) :
    (s.storeBytes a bs).readBytes a bs.length = bs := by
  apply List.ext_getElem
  · simp [State.readBytes]
  · intro k h1 h2
    simp only [State.readBytes, List.getElem_map, List.getElem_range]
    exact State.dmemByte_storeBytes_inside s a bs h2

end Sys2Proof.Machine
end

