-- ==== Sys2Proof/Laws/Bytes.lean ====
section
/-! SUPPORT. Big-endian encodings (00_scope.md R15): be_int and be_bytes are inverse, and be_int of a range of DMEM is the
weighted sum of its bytes. -/

namespace Sys2Proof.Machine

@[simp] theorem beBytes_length (v n : Nat) : (beBytes v n).length = n := by simp [beBytes]

@[simp] theorem readBytes_length (s : State) (a n : Nat) : (s.readBytes a n).length = n := by simp [State.readBytes]

@[simp] theorem beInt_nil : beInt [] = 0 := rfl

theorem beInt_append (bs : List Byte) (b : Byte) : beInt (bs ++ [b]) = beInt bs * 256 + b.toNat := by
  simp [beInt, List.foldl_append]

/-- The last byte of an encoding is the residue mod 256, the ones before it encode the quotient. -/
theorem beBytes_succ (v n : Nat) : beBytes v (n + 1) = beBytes (v / 256) n ++ [BitVec.ofNat 8 v] := by
  unfold beBytes
  rw [List.range_succ, List.map_append]
  congr 1
  · apply List.map_congr_left
    intro k hk
    have hk' : k < n := List.mem_range.mp hk
    have h : n + 1 - 1 - k = (n - 1 - k) + 1 := by omega
    rw [h, Nat.pow_succ, Nat.mul_comm, ← Nat.div_div_eq_div_mul]
  · simp

/-- be_int (be_bytes v) = v for every v the encoding can hold. -/
theorem beInt_beBytes {v n : Nat} (h : v < 256 ^ n) : beInt (beBytes v n) = v := by
  induction n generalizing v with
  | zero => simp at h; simp [h, beBytes]
  | succ n ih =>
    have hd : v / 256 < 256 ^ n := by rw [Nat.div_lt_iff_lt_mul (by norm_num)]; rwa [Nat.pow_succ] at h
    rw [beBytes_succ, beInt_append, ih hd, BitVec.toNat_ofNat]
    omega

/-- be_int of n bytes is below 256^n. -/
theorem beInt_lt (bs : List Byte) : beInt bs < 256 ^ bs.length := by
  induction bs using List.reverseRecOn with
  | nil => simp
  | append_singleton bs b ih =>
    rw [beInt_append, List.length_append, List.length_singleton, Nat.pow_succ]
    have := b.isLt
    omega

/-- be_bytes (be_int bs) = bs. -/
theorem beBytes_beInt (bs : List Byte) : beBytes (beInt bs) bs.length = bs := by
  induction bs using List.reverseRecOn with
  | nil => simp [beBytes]
  | append_singleton bs b ih =>
    have hb := b.isLt
    rw [List.length_append, List.length_singleton, beBytes_succ, beInt_append]
    have h1 : (beInt bs * 256 + b.toNat) / 256 = beInt bs := by omega
    have h2 : BitVec.ofNat 8 (beInt bs * 256 + b.toNat) = b := by
      apply BitVec.eq_of_toNat_eq; rw [BitVec.toNat_ofNat]; omega
    rw [h1, h2, ih]

theorem readBytes_succ (s : State) (a n : Nat) : s.readBytes a (n + 1) = s.readBytes a n ++ [s.dmemByte (a + n)] := by
  simp [State.readBytes, List.range_succ]

/-- The integer n DMEM bytes encode, as the sum of the bytes with their weights (20_memory.md R73, R74). -/
theorem beInt_readBytes (s : State) (a n : Nat) :
    beInt (s.readBytes a n) = ∑ k ∈ Finset.range n, (s.dmemByte (a + k)).toNat * 256 ^ (n - 1 - k) := by
  induction n with
  | zero => simp [State.readBytes]
  | succ n ih =>
    rw [readBytes_succ, beInt_append, ih, Finset.sum_range_succ, Finset.sum_mul]
    congr 1
    · apply Finset.sum_congr rfl
      intro k hk
      have hk' : k < n := Finset.mem_range.mp hk
      have h : n + 1 - 1 - k = (n - 1 - k) + 1 := by omega
      rw [h, Nat.pow_succ, Nat.mul_assoc]
    · simp

theorem beInt_readBytes_lt (s : State) (a n : Nat) : beInt (s.readBytes a n) < 256 ^ n := by
  simpa using beInt_lt (s.readBytes a n)

/-- A read of the range of an integer store gives back the integer. -/
theorem beInt_readBytes_storeInt (s : State) (a : Imm) {n v : Nat} (h : v < 256 ^ n) :
    beInt ((s.storeInt a n v).readBytes a.toNat n) = v := by
  have := State.readBytes_storeBytes s a.toNat (beBytes v n)
  rw [beBytes_length] at this
  rw [State.storeInt, dataAddr, this, beInt_beBytes h]

theorem dmemByte_storeInt_outside (s : State) (a : Imm) (n v : Nat) {b : Nat} (h : b < a.toNat ∨ a.toNat + n ≤ b) :
    (s.storeInt a n v).dmemByte b = s.dmemByte b :=
  State.dmemByte_storeBytes_outside s _ _ (by simpa [dataAddr] using h)

theorem dmemByte_storeInt_inside (s : State) (a : Imm) (n v : Nat) {k : Nat} (h : k < n) :
    (s.storeInt a n v).dmemByte (a.toNat + k) = BitVec.ofNat 8 (v / 256 ^ (n - 1 - k)) := by
  have := State.dmemByte_storeBytes_inside s a.toNat (beBytes v n) (k := k) (by simpa using h)
  simpa [State.storeInt, dataAddr, beBytes] using this

/-- A store command changes DMEM and pc alone. -/
theorem storeInt_advance (s : State) (a : Imm) (n v : Nat) :
    (s.storeInt a n v).advance = { s with dmem := (s.storeInt a n v).dmem, pc := s.pc + 1 } := rfl

end Sys2Proof.Machine
end

