-- ==== Sys2Proof/Laws/Decode.lean ====
section
/-! SUPPORT. The fields of an assembled word, and the opcode table as a map. -/

namespace Sys2Proof

/-! ### Fields of a concatenation -/

/-- Bits above the lower part of a concatenation are those of the upper part. -/
theorem extract_append_high {m n : Nat} (x : BitVec m) (y : BitVec n) (k l : Nat) :
    (x ++ y).extractLsb' (n + k) l = x.extractLsb' k l := by
  apply BitVec.eq_of_getLsbD_eq
  intro i hi
  simp only [BitVec.getLsbD_extractLsb', BitVec.getLsbD_append]
  have h1 : ¬(n + k + i < n) := by omega
  have h2 : n + k + i - n = k + i := by omega
  simp [h1, h2]

/-- The low bits of a concatenation are its lower part. -/
theorem extract_append_low {m n : Nat} (x : BitVec m) (y : BitVec n) : (x ++ y).extractLsb' 0 n = y := by
  apply BitVec.eq_of_getLsbD_eq
  intro i hi
  simp [BitVec.getLsbD_extractLsb', BitVec.getLsbD_append, hi]

theorem extract_all {m : Nat} (x : BitVec m) : x.extractLsb' 0 m = x := by
  apply BitVec.eq_of_getLsbD_eq
  intro i hi
  simp [BitVec.getLsbD_extractLsb', hi]

@[simp] theorem regOfBits_bitsOfReg (r : Reg) : regOfBits (bitsOfReg r) = r := by
  apply Fin.ext
  have := r.isLt
  simp only [regOfBits, bitsOfReg, BitVec.toNat_ofNat]
  omega

@[simp] theorem bitsOfReg_regOfBits (b : BitVec 4) : bitsOfReg (regOfBits b) = b := by
  apply BitVec.eq_of_toNat_eq
  have := b.isLt
  simp only [regOfBits, bitsOfReg, BitVec.toNat_ofNat]
  omega

/-! ### A word in each layout -/

section
variable (code : BitVec 7) (f : Fields)

theorem code_toWord (l : Layout) : (f.toWord code l).extractLsb' 25 7 = code := by
  cases l
  · exact (extract_append_high _ (0#9) 16 7).trans ((extract_append_high _ (bitsOfReg f.c) 12 7).trans
      ((extract_append_high _ (bitsOfReg f.b) 8 7).trans ((extract_append_high _ (bitsOfReg f.a) 4 7).trans
        ((extract_append_high _ (bitsOfReg f.d) 0 7).trans (extract_all code)))))
  · exact (extract_append_high _ f.imm 9 7).trans ((extract_append_high _ (0#1) 8 7).trans
      ((extract_append_high _ (bitsOfReg f.a) 4 7).trans
        ((extract_append_high _ (bitsOfReg f.d) 0 7).trans (extract_all code))))

theorem d_toWord (l : Layout) : (f.toWord code l).extractLsb' 21 4 = bitsOfReg f.d := by
  cases l
  · exact (extract_append_high _ (0#9) 12 4).trans ((extract_append_high _ (bitsOfReg f.c) 8 4).trans
      ((extract_append_high _ (bitsOfReg f.b) 4 4).trans ((extract_append_high _ (bitsOfReg f.a) 0 4).trans
        (extract_append_low _ _))))
  · exact (extract_append_high _ f.imm 5 4).trans ((extract_append_high _ (0#1) 4 4).trans
      ((extract_append_high _ (bitsOfReg f.a) 0 4).trans (extract_append_low _ _)))

theorem a_toWord (l : Layout) : (f.toWord code l).extractLsb' 17 4 = bitsOfReg f.a := by
  cases l
  · exact (extract_append_high _ (0#9) 8 4).trans ((extract_append_high _ (bitsOfReg f.c) 4 4).trans
      ((extract_append_high _ (bitsOfReg f.b) 0 4).trans (extract_append_low _ _)))
  · exact (extract_append_high _ f.imm 1 4).trans ((extract_append_high _ (0#1) 0 4).trans (extract_append_low _ _))

theorem b_toWord : (f.toWord code .R).extractLsb' 13 4 = bitsOfReg f.b :=
  (extract_append_high _ (0#9) 4 4).trans ((extract_append_high _ (bitsOfReg f.c) 0 4).trans (extract_append_low _ _))

theorem c_toWord : (f.toWord code .R).extractLsb' 9 4 = bitsOfReg f.c :=
  (extract_append_high _ (0#9) 0 4).trans (extract_append_low _ _)

theorem imm_toWord : (f.toWord code .I).extractLsb' 0 16 = f.imm := extract_append_low _ _

theorem zero_toWord (l : Layout) : l.zeroBitsOk (f.toWord code l) = true := by
  cases l
  · exact beq_iff_eq.mpr (extract_append_low _ (0#9))
  · exact beq_iff_eq.mpr ((extract_append_high _ f.imm 0 1).trans (extract_append_low _ (0#1)))

end

/-- Reading the fields of an assembled word gives them back; those the layout does not have are 0. -/
theorem ofWord_toWord (code : BitVec 7) (f : Fields) : (l : Layout) →
    Fields.ofWord (f.toWord code l) l =
      match l with
      | .R => ⟨f.d, f.a, f.b, f.c, 0⟩
      | .I => ⟨f.d, f.a, 0, 0, f.imm⟩
  | .R => by simp [Fields.ofWord, d_toWord, a_toWord, b_toWord, c_toWord]
  | .I => by simp [Fields.ofWord, d_toWord, a_toWord, imm_toWord]

/-! ### The opcode table as a map -/

/-- Every opcode of the table selects its command (30_encoding.md R108). -/
@[simp] theorem ofCode_code (op : Op) : Op.ofCode op.code = some op := by cases op <;> decide

/-- A command is selected by its own opcode only. -/
theorem code_of_ofCode {c : BitVec 7} {op : Op} (h : Op.ofCode c = some op) : op.code = c := by
  have := List.find?_some h
  simpa using this

/-- Every command is in the table. -/
theorem Op.mem_all (op : Op) : op ∈ Op.all := by cases op <;> decide

end Sys2Proof
end

