-- ==== Sys2Proof/Laws/Field.lean ====
section
/-! SUPPORT. Limb vectors and powers: limbs and value are inverse, the allowed vectors of a multiplier-class command, and
that powMod is the power. -/

namespace Sys2Proof.Machine

open Config (p)

theorem p_lt : p < 2 ^ 224 := by decide +kernel

theorem p_pos : 0 < p := by decide +kernel

/-- value (limbs v) = v for v < 2^224. -/
theorem value_limbs {v : Nat} (h : v < 2 ^ 224) : (limbs v).value = v := by
  simp only [limbs, Limbs.value, BitVec.toNat_ofNat]
  omega

/-- limbs v is bounded by magnitude 1, whatever v is. -/
theorem bounded_limbs (v : Nat) : (limbs v).bounded 1 := by
  simp only [limbs, Limbs.bounded, BitVec.toNat_ofNat, limbMax, topMax]
  omega

theorem canon_lt (v : Nat) : v % p < 2 ^ 224 := lt_trans (Nat.mod_lt _ p_pos) p_lt

/-- The canonical vector of a residue has that residue as its value (00_scope.md R17). -/
theorem value_canon (v : Nat) : (canon v).value = v % p := value_limbs (canon_lt v)

theorem bounded_canon (v : Nat) : (canon v).bounded 1 := bounded_limbs _

/-- A canonical vector is the canonical vector of its value. -/
theorem limbs_eq_canon {v : Nat} (h : v < p) : limbs v = canon (limbs v).value := by
  rw [value_limbs (lt_trans h p_lt), canon, Nat.mod_eq_of_lt h]

theorem canon_eq_canon_value (v : Nat) : canon v = canon (canon v).value := by
  rw [value_canon, canon, canon, Nat.mod_mod]

/-- A multiplier-class vector is bounded by magnitude 1 (41_field.md R162). -/
theorem bounded_multiplierLimbs (r : Nat) (other : Bool) : (multiplierLimbs r other).bounded 1 := by
  unfold multiplierLimbs; split <;> exact bounded_limbs _

/-- A multiplier-class vector stands for its residue (41_field.md R162). -/
theorem value_multiplierLimbs {r : Nat} (h : r < p) (other : Bool) : (multiplierLimbs r other).value % p = r := by
  unfold multiplierLimbs
  split
  · next hb => rw [value_limbs hb.2, Nat.add_mod_right, Nat.mod_eq_of_lt h]
  · rw [value_limbs (lt_trans h p_lt), Nat.mod_eq_of_lt h]

/-- The two vectors `multiplierLimbs` chooses between are all that R162 of 41_field.md allows: a vector bounded by magnitude 1
that stands for r is limbs(r) or limbs(r + p). -/
theorem limbs_of_bounded {x : Limbs} (hb : x.bounded 1) : x = limbs x.value ∧ x.value < 2 ^ 224 := by
  obtain ⟨h0, h1, h2, h3, h4⟩ := hb
  simp only [limbMax, topMax] at h0 h1 h2 h3 h4
  have hv : x.value < 2 ^ 224 := by simp only [Limbs.value]; omega
  refine ⟨?_, hv⟩
  cases x with
  | mk a0 a1 a2 a3 a4 =>
    simp only [limbs, Limbs.value, Limbs.mk.injEq] at *
    refine ⟨?_, ?_, ?_, ?_, ?_⟩ <;>
      (apply BitVec.eq_of_toNat_eq; rw [BitVec.toNat_ofNat]; omega)

theorem multiplierLimbs_complete {x : Limbs} {r : Nat} (hb : x.bounded 1) (hr : x.value % p = r) :
    x = multiplierLimbs r false ∨ x = multiplierLimbs r true := by
  obtain ⟨hx, hv⟩ := limbs_of_bounded hb
  have hp : p = 2 ^ 224 - 2 ^ 32 - 6803 := by decide +kernel
  have hq : x.value = r ∨ x.value = r + p := by
    have h2 := Nat.div_add_mod x.value p
    have hd : x.value / p < 2 := by rw [Nat.div_lt_iff_lt_mul p_pos]; omega
    rw [hr] at h2
    generalize x.value / p = q at h2 hd
    obtain rfl | rfl : q = 0 ∨ q = 1 := by omega
    · left; omega
    · right; omega
  rcases hq with h | h
  · left; rw [hx, h]; simp [multiplierLimbs]
  · right
    rw [h] at hv
    rw [hx, h, multiplierLimbs, if_pos ⟨rfl, hv⟩]

/-- powMod is b^e mod m for an exponent of at most n bits. -/
theorem powMod_eq (m b : Nat) {n e : Nat} (h : e < 2 ^ n) : powMod m b n e = b ^ e % m := by
  induction n generalizing e with
  | zero => simp at h; simp [powMod, h]
  | succ n ih =>
    have hh : e / 2 < 2 ^ n := by rw [Nat.pow_succ] at h; omega
    have hsq : (b ^ (e / 2) % m) * (b ^ (e / 2) % m) % m = b ^ (e / 2 + e / 2) % m := by
      rw [← Nat.mul_mod, ← Nat.pow_add]
    simp only [powMod, ih hh, hsq]
    split
    · next ho =>
      have he : e = (e / 2 + e / 2) + 1 := by omega
      rw [Nat.mod_mul_mod, ← Nat.pow_succ, Nat.succ_eq_add_one, ← he]
    · next ho =>
      have he : e = e / 2 + e / 2 := by omega
      rw [← he]

/-- invMod is the power of 41_field.md R186. -/
theorem invMod_eq (v : Nat) : invMod v = v ^ (p - 2) % p := by
  have h : p - 2 < 2 ^ 224 := by decide +kernel
  rw [invMod, powMod_eq _ _ h, ← Nat.pow_mod]

theorem invMod_lt (v : Nat) : invMod v < p := by rw [invMod_eq]; exact Nat.mod_lt _ p_pos

/-- The candidate of FSQRT with its power written out (41_field.md R187). -/
theorem sqrtCandidate_eq (u : Nat) : sqrtCandidate u =
    u * ((2 * u) ^ ((p - 5) / 8) % p) * (2 * u * ((2 * u) ^ ((p - 5) / 8) % p) ^ 2 % p + (p - 1)) % p := by
  have h : (p - 5) / 8 < 2 ^ 224 := by decide +kernel
  simp only [sqrtCandidate, powMod_eq _ _ h, ← Nat.pow_mod]

theorem sqrtCandidate_lt (u : Nat) : sqrtCandidate u < p := by
  unfold sqrtCandidate; exact Nat.mod_lt _ p_pos

/-- fpInv is the power of 43_point.md R291. -/
theorem fpInv_val (x : Fp) : (fpInv x).val = x.val ^ (p - 2) % p := by
  have h : (fpInv x).val = invMod x.val % p := rfl
  rw [h, Nat.mod_eq_of_lt (invMod_lt _), invMod_eq]

/-- The five lanes of PL are the limbs of p (00_scope.md R17). -/
theorem PL_eq : PL = limbs p ∧ PL.value = p := by decide +kernel

end Sys2Proof.Machine
end

