-- ==== Sys2Proof/Laws/Lanes.lean ====
section
/-! SUPPORT. The limb-wise commands lane by lane (41_field.md R164): within their preconditions no lane wraps, so each lane is the
integer sum, product or difference, and the bound of the result is the magnitude written. -/

namespace Sys2Proof.Machine

open Config (p)

theorem topMax_le_limbMax : topMax ≤ limbMax := by decide

/-- A lane within a magnitude is below 2^64 whenever the magnitude is at most 32 · 32. -/
theorem lane_lt {v m : Nat} (h : v ≤ m * limbMax) (hm : m ≤ 1024) : v < 2 ^ 64 :=
  lt_of_le_of_lt (le_trans h (Nat.mul_le_mul_right _ hm)) (by decide)

/-- Every lane of a bounded vector is within limbMax times the magnitude. -/
theorem Limbs.bounded_top {x : Limbs} {m : Nat} (h : x.bounded m) : x.l4.toNat ≤ m * limbMax :=
  le_trans h.2.2.2.2 (Nat.mul_le_mul_left _ topMax_le_limbMax)

/-- A larger magnitude bounds as well. -/
theorem Limbs.bounded_mono {x : Limbs} {m n : Nat} (h : x.bounded m) (hmn : m ≤ n) : x.bounded n :=
  ⟨le_trans h.1 (Nat.mul_le_mul_right _ hmn), le_trans h.2.1 (Nat.mul_le_mul_right _ hmn),
   le_trans h.2.2.1 (Nat.mul_le_mul_right _ hmn), le_trans h.2.2.2.1 (Nat.mul_le_mul_right _ hmn),
   le_trans h.2.2.2.2 (Nat.mul_le_mul_right _ hmn)⟩

/-! ### Addition -/

theorem lane_add {x y : Limb} {m n : Nat} (hx : x.toNat ≤ m * limbMax) (hy : y.toNat ≤ n * limbMax) (h : m + n ≤ 32) :
    (x + y).toNat = x.toNat + y.toNat := by
  rw [BitVec.toNat_add]
  exact Nat.mod_eq_of_lt (lane_lt (m := m + n) (by rw [Nat.add_mul]; exact Nat.add_le_add hx hy) (by omega))

/-- FADD's limb vector: the value is the sum, the bound is the sum of the magnitudes (41_field.md R175). -/
theorem add_lanes {x y : Limbs} {m n : Nat} (hx : x.bounded m) (hy : y.bounded n) (h : m + n ≤ 32) :
    (Limbs.zip (· + ·) x y).value = x.value + y.value ∧ (Limbs.zip (· + ·) x y).bounded (m + n) := by
  have e0 := lane_add hx.1 hy.1 h
  have e1 := lane_add hx.2.1 hy.2.1 h
  have e2 := lane_add hx.2.2.1 hy.2.2.1 h
  have e3 := lane_add hx.2.2.2.1 hy.2.2.2.1 h
  have e4 := lane_add (Limbs.bounded_top hx) (Limbs.bounded_top hy) h
  constructor
  · simp only [Limbs.value, Limbs.zip, e0, e1, e2, e3, e4, Nat.add_mul]; ac_rfl
  · simp only [Limbs.bounded, Limbs.zip, e0, e1, e2, e3, e4, Nat.add_mul]
    exact ⟨Nat.add_le_add hx.1 hy.1, Nat.add_le_add hx.2.1 hy.2.1, Nat.add_le_add hx.2.2.1 hy.2.2.1,
      Nat.add_le_add hx.2.2.2.1 hy.2.2.2.1, Nat.add_le_add hx.2.2.2.2 hy.2.2.2.2⟩

/-! ### Scaling -/

/-- The immediate as a lane. -/
theorem toNat_immLane (k : Imm) : (k.setWidth 64 : Limb).toNat = k.toNat := by
  have := k.isLt
  rw [BitVec.toNat_setWidth]; omega

theorem lane_mul {x : Limb} {m : Nat} {k : Imm} (hx : x.toNat ≤ m * limbMax) (h : m * k.toNat ≤ 32) :
    (x * k.setWidth 64).toNat = x.toNat * k.toNat := by
  rw [BitVec.toNat_mul, toNat_immLane]
  refine Nat.mod_eq_of_lt (lane_lt (m := m * k.toNat) ?_ (by omega))
  calc x.toNat * k.toNat ≤ m * limbMax * k.toNat := Nat.mul_le_mul_right _ hx
    _ = m * k.toNat * limbMax := by ac_rfl

/-- FMULS's limb vector: the value is the product, the bound is the product of the magnitude (41_field.md R176). -/
theorem mul_lanes {x : Limbs} {m : Nat} {k : Imm} (hx : x.bounded m) (h : m * k.toNat ≤ 32) :
    (Limbs.map (· * k.setWidth 64) x).value = x.value * k.toNat ∧
      (Limbs.map (· * k.setWidth 64) x).bounded (m * k.toNat) := by
  have e0 := lane_mul hx.1 h
  have e1 := lane_mul hx.2.1 h
  have e2 := lane_mul hx.2.2.1 h
  have e3 := lane_mul hx.2.2.2.1 h
  have e4 := lane_mul (Limbs.bounded_top hx) h
  have hb : ∀ c : Nat, m * k.toNat * c = m * c * k.toNat := fun c => by ac_rfl
  constructor
  · simp only [Limbs.value, Limbs.map, e0, e1, e2, e3, e4, Nat.add_mul]; ac_rfl
  · simp only [Limbs.bounded, Limbs.map, e0, e1, e2, e3, e4, hb]
    exact ⟨Nat.mul_le_mul_right _ hx.1, Nat.mul_le_mul_right _ hx.2.1, Nat.mul_le_mul_right _ hx.2.2.1,
      Nat.mul_le_mul_right _ hx.2.2.2.1, Nat.mul_le_mul_right _ hx.2.2.2.2⟩

/-! ### Negation -/

/-- Each lane of PL is within its canonical bound and large enough that (m + 1) times it covers m times the bound
(41_field.md R177). -/
theorem PL_lanes : PL.l0.toNat ≤ limbMax ∧ PL.l1.toNat = limbMax ∧ PL.l2.toNat = limbMax ∧ PL.l3.toNat = limbMax ∧
    PL.l4.toNat = topMax ∧ 31 * limbMax ≤ 32 * PL.l0.toNat := by decide

theorem lane_neg {q l : Limb} {m : Imm} (hm : m.toNat ≤ 31) (hq : q.toNat ≤ limbMax) (h : l.toNat ≤ (m.toNat + 1) * q.toNat) :
    ((m.setWidth 64 + 1) * q - l).toNat + l.toNat = (m.toNat + 1) * q.toNat := by
  have em : (m.setWidth 64 + 1 : Limb).toNat = m.toNat + 1 := by
    rw [BitVec.toNat_add, toNat_immLane]
    exact Nat.mod_eq_of_lt (lt_of_le_of_lt (Nat.add_le_add_right hm _) (by decide))
  have e : ((m.setWidth 64 + 1) * q).toNat = (m.toNat + 1) * q.toNat := by
    rw [BitVec.toNat_mul, em]
    exact Nat.mod_eq_of_lt (lane_lt (m := m.toNat + 1) (Nat.mul_le_mul_left _ hq) (by omega))
  rw [BitVec.toNat_sub_of_le (by rw [BitVec.le_def, e]; exact h), e, Nat.sub_add_cancel h]

/-- FNEG's limb vector: no lane borrows, each lane and the operand's add up to (m + 1) · PL_j, the values add up to
(m + 1) · p, and the bound is m + 1 (41_field.md R177). -/
theorem neg_lanes {x : Limbs} {n : Nat} {m : Imm} (hx : x.bounded n) (hn : n ≤ m.toNat) (hm : m.toNat ≤ 31) :
    let y := Limbs.zip (fun pl l => (m.setWidth 64 + 1) * pl - l) PL x
    y.l0.toNat + x.l0.toNat = (m.toNat + 1) * PL.l0.toNat ∧ y.l1.toNat + x.l1.toNat = (m.toNat + 1) * PL.l1.toNat ∧
    y.l2.toNat + x.l2.toNat = (m.toNat + 1) * PL.l2.toNat ∧ y.l3.toNat + x.l3.toNat = (m.toNat + 1) * PL.l3.toNat ∧
    y.l4.toNat + x.l4.toNat = (m.toNat + 1) * PL.l4.toNat ∧ y.value + x.value = (m.toNat + 1) * p ∧
    y.bounded (m.toNat + 1) := by
  obtain ⟨b0, b1, b2, b3, b4⟩ := Limbs.bounded_mono hx hn
  obtain ⟨p0, p1, p2, p3, p4, pc⟩ := PL_lanes
  have up : ∀ c : Nat, m.toNat * c ≤ (m.toNat + 1) * c := fun c => Nat.mul_le_mul_right _ (Nat.le_succ _)
  have c0 : m.toNat * limbMax ≤ (m.toNat + 1) * PL.l0.toNat := by
    interval_cases m.toNat <;> revert pc <;> decide
  have e0 := lane_neg hm p0 (le_trans b0 c0)
  have e1 := lane_neg (l := x.l1) hm p1.le (by rw [p1]; exact le_trans b1 (up _))
  have e2 := lane_neg (l := x.l2) hm p2.le (by rw [p2]; exact le_trans b2 (up _))
  have e3 := lane_neg (l := x.l3) hm p3.le (by rw [p3]; exact le_trans b3 (up _))
  have e4 := lane_neg (l := x.l4) hm (p4.le.trans topMax_le_limbMax) (by rw [p4]; exact le_trans b4 (up _))
  refine ⟨e0, e1, e2, e3, e4, ?_, ?_, ?_, ?_, ?_, ?_⟩
  · rw [← PL_eq.2]
    simp only [Limbs.value, Limbs.zip]
    rw [Nat.mul_add, Nat.mul_add, Nat.mul_add, Nat.mul_add, ← Nat.mul_assoc, ← Nat.mul_assoc, ← Nat.mul_assoc,
      ← Nat.mul_assoc, ← e0, ← e1, ← e2, ← e3, ← e4]
    ring
  · exact le_trans (Nat.le_of_add_right_le e0.le) (Nat.mul_le_mul_left _ p0)
  · exact le_trans (Nat.le_of_add_right_le e1.le) (Nat.mul_le_mul_left _ p1.le)
  · exact le_trans (Nat.le_of_add_right_le e2.le) (Nat.mul_le_mul_left _ p2.le)
  · exact le_trans (Nat.le_of_add_right_le e3.le) (Nat.mul_le_mul_left _ p3.le)
  · exact le_trans (Nat.le_of_add_right_le e4.le) (Nat.mul_le_mul_left _ p4.le)

end Sys2Proof.Machine
end

