-- ==== Sys2Proof/Laws/Run.lean ====
section
/-! SUPPORT. What the shared operations can answer: require, register reads, the range check, and the end of a command. -/

namespace Sys2Proof.Machine

/-! ### Except -/

@[simp] theorem bind_ok {α β : Type} (x : α) (f : α → Except Cause β) : (Except.ok x >>= f) = f x := rfl
@[simp] theorem bind_error {α β : Type} (e : Cause) (f : α → Except Cause β) : (Except.error e >>= f) = .error e := rfl
@[simp] theorem pure_eq_ok {α : Type} (x : α) : (pure x : Except Cause α) = .ok x := rfl

/-- A sequence completes exactly when both its parts do. -/
theorem bind_eq_ok {α β : Type} {x : Except Cause α} {f : α → Except Cause β} {y : β} :
    (x >>= f) = .ok y ↔ ∃ v, x = .ok v ∧ f v = .ok y := by
  cases x <;> simp

/-- A sequence raises an exception exactly when a part does. -/
theorem bind_eq_error {α β : Type} {x : Except Cause α} {f : α → Except Cause β} {e : Cause} :
    (x >>= f) = .error e ↔ x = .error e ∨ ∃ v, x = .ok v ∧ f v = .error e := by
  cases x <;> simp

/-! ### require -/

@[simp] theorem require_pos {c : Prop} [Decidable c] (e : Cause) (h : c) : require c e = .ok () := if_pos h
@[simp] theorem require_neg {c : Prop} [Decidable c] (e : Cause) (h : ¬c) : require c e = .error e := if_neg h

theorem require_eq_ok {c : Prop} [Decidable c] {e : Cause} {u : Unit} : require c e = .ok u ↔ c := by
  unfold require; split <;> simp_all

theorem require_eq_error {c : Prop} [Decidable c] {e e' : Cause} : require c e = .error e' ↔ ¬c ∧ e = e' := by
  unfold require; split <;> simp_all

/-! ### Register files -/

/-- A read of a VALID entry gives its contents. -/
theorem RegFile.read_valid {α : Type} {r : RegFile α} {i : Reg} (h : (r.get i).valid = true) :
    r.read i = .ok (r.get i).val := if_pos h

/-- A read of an entry whose VALID bit is 0 is E_UNINIT (60_exceptions.md R341). -/
theorem RegFile.read_invalid {α : Type} {r : RegFile α} {i : Reg} (h : (r.get i).valid = false) :
    r.read i = .error .uninit := if_neg (by simp [h])

theorem RegFile.read_eq_ok {α : Type} {r : RegFile α} {i : Reg} {v : α} :
    r.read i = .ok v ↔ (r.get i).valid = true ∧ v = (r.get i).val := by
  unfold RegFile.read
  split
  · next h => simp [h, eq_comm]
  · next h => simp [h]

theorem RegFile.read_eq_error {α : Type} {r : RegFile α} {i : Reg} {e : Cause} :
    r.read i = .error e ↔ (r.get i).valid = false ∧ e = .uninit := by
  unfold RegFile.read
  split
  · next h => simp [h]
  · next h => simp [h, eq_comm]

theorem RegFile.get_eq_getElem {α : Type} (r : RegFile α) (i : Reg) : r.get i = r[i.val] := rfl

@[simp] theorem RegFile.get_write_same {α : Type} (r : RegFile α) (i : Reg) (v : α) : (r.write i v).get i = ⟨true, v⟩ := by
  rw [RegFile.get_eq_getElem, RegFile.write, Vector.getElem_set_self]

@[simp] theorem RegFile.get_write_other {α : Type} (r : RegFile α) {i j : Reg} (v : α) (h : i ≠ j) :
    (r.write i v).get j = r.get j := by
  rw [RegFile.get_eq_getElem, RegFile.write, Vector.getElem_set_ne _ _ (fun h' => h (Fin.ext h')), RegFile.get_eq_getElem]

/-- An entry after a write is the written one or what it was. -/
theorem RegFile.get_write {α : Type} (r : RegFile α) (i j : Reg) (v : α) :
    (r.write i v).get j = if i = j then ⟨true, v⟩ else r.get j := by
  split
  · next h => subst h; simp
  · next h => simp [h]

@[simp] theorem RegFile.get_invalidate {α : Type} (r : RegFile α) (i : Reg) :
    r.invalidate.get i = ⟨false, (r.get i).val⟩ := by
  rw [RegFile.get_eq_getElem, RegFile.invalidate, Vector.getElem_map, RegFile.get_eq_getElem]

@[simp] theorem emptyFile_get {α : Type} (v : α) (i : Reg) : (emptyFile v).get i = ⟨false, v⟩ := by
  rw [RegFile.get_eq_getElem, emptyFile, Vector.getElem_replicate]

/-! ### DMEM range and loads -/

theorem State.checkRange_eq_ok {s : State} {a n : Nat} {u : Unit} :
    s.checkRange a n = .ok u ↔ a + n ≤ s.build.dmemBytes := require_eq_ok

theorem State.checkRange_eq_error {s : State} {a n : Nat} {e : Cause} :
    s.checkRange a n = .error e ↔ s.build.dmemBytes < a + n ∧ e = .daddr := by
  unfold State.checkRange; rw [require_eq_error]; simp [eq_comm]

theorem State.memRead_eq_ok {s : State} {a n : Nat} {bs : List Byte} :
    s.memRead a n = .ok bs ↔ a + n ≤ s.build.dmemBytes ∧ bs = s.readBytes a n := by
  unfold State.memRead; rw [bind_eq_ok]; simp only [State.checkRange_eq_ok, pure_eq_ok, Except.ok.injEq]; simp [eq_comm]

theorem State.memRead_eq_error {s : State} {a n : Nat} {e : Cause} :
    s.memRead a n = .error e ↔ s.build.dmemBytes < a + n ∧ e = .daddr := by
  unfold State.memRead; rw [bind_eq_error]; simp [State.checkRange_eq_error]

theorem State.loadField_eq_ok {s : State} {a : Imm} {v : Nat} :
    s.loadField a = .ok v ↔ a.toNat + 28 ≤ s.build.dmemBytes ∧ v = beInt (s.readBytes a.toNat 28) := by
  unfold State.loadField; rw [bind_eq_ok]; simp only [State.memRead_eq_ok, dataAddr, pure_eq_ok, Except.ok.injEq]
  constructor
  · rintro ⟨_, ⟨h, rfl⟩, rfl⟩; exact ⟨h, rfl⟩
  · rintro ⟨h, rfl⟩; exact ⟨_, ⟨h, rfl⟩, rfl⟩

theorem State.loadField_eq_error {s : State} {a : Imm} {e : Cause} :
    s.loadField a = .error e ↔ s.build.dmemBytes < a.toNat + 28 ∧ e = .daddr := by
  unfold State.loadField; rw [bind_eq_error]; simp [State.memRead_eq_error, dataAddr]

theorem State.loadScalar_eq_ok {s : State} {a : Imm} {v : Nat} :
    s.loadScalar a = .ok v ↔ a.toNat + 32 ≤ s.build.dmemBytes ∧ v = beInt (s.readBytes a.toNat 32) := by
  unfold State.loadScalar; rw [bind_eq_ok]; simp only [State.memRead_eq_ok, dataAddr, pure_eq_ok, Except.ok.injEq]
  constructor
  · rintro ⟨_, ⟨h, rfl⟩, rfl⟩; exact ⟨h, rfl⟩
  · rintro ⟨h, rfl⟩; exact ⟨_, ⟨h, rfl⟩, rfl⟩

theorem State.loadScalar_eq_error {s : State} {a : Imm} {e : Cause} :
    s.loadScalar a = .error e ↔ s.build.dmemBytes < a.toNat + 32 ∧ e = .daddr := by
  unfold State.loadScalar; rw [bind_eq_error]; simp [State.memRead_eq_error, dataAddr]

theorem State.loadWide_eq_ok {s : State} {a : Imm} {v : Nat} :
    s.loadWide a = .ok v ↔ a.toNat + 64 ≤ s.build.dmemBytes ∧ v = beInt (s.readBytes a.toNat 64) := by
  unfold State.loadWide; rw [bind_eq_ok]; simp only [State.memRead_eq_ok, dataAddr, pure_eq_ok, Except.ok.injEq]
  constructor
  · rintro ⟨_, ⟨h, rfl⟩, rfl⟩; exact ⟨h, rfl⟩
  · rintro ⟨h, rfl⟩; exact ⟨_, ⟨h, rfl⟩, rfl⟩

theorem State.loadWide_eq_error {s : State} {a : Imm} {e : Cause} :
    s.loadWide a = .error e ↔ s.build.dmemBytes < a.toNat + 64 ∧ e = .daddr := by
  unfold State.loadWide; rw [bind_eq_error]; simp [State.memRead_eq_error, dataAddr]

/-! ### The end of a command -/

/-- A command completes, or takes one exception; it never stops the machine (40_control.md R130, 60_exceptions.md R350). -/
theorem State.run_eq_next {s t : State} {r : Except Cause State} :
    s.run r = .next t ↔ r = .ok t ∨ ∃ e, r = .error e ∧ t = takeException e s := by
  cases r <;> simp [State.run, eq_comm]

theorem State.run_ok (s t : State) : s.run (.ok t) = .next t := rfl

theorem State.run_error (s : State) (e : Cause) : s.run (.error e) = .next (takeException e s) := rfl

/-- What fault entry leaves as it was (60_exceptions.md R350). -/
theorem takeException_sameFiles (e : Cause) (s : State) : s.F = (takeException e s).F ∧ s.S = (takeException e s).S ∧
    s.W = (takeException e s).W ∧ s.A = (takeException e s).A ∧ s.P = (takeException e s).P ∧
    s.C = (takeException e s).C ∧ s.L = (takeException e s).L := by simp

end Sys2Proof.Machine
end

