-- ==== Sys2Proof/Laws/Meanings.lean ====
section
/-! SUPPORT. Each meaning as one equation: the exceptions in the order of 60_exceptions.md R360 with what raises them, then the
state a completed command leaves. Proofs about a command cite its equation and do not unfold its meaning. -/

namespace Sys2Proof.Machine

open Config (p)

/-- A command that raises an exception (60_exceptions.md R350). -/
def raised (e : Cause) (s : State) : StepResult := .next (takeException e s)

/-- A command that raised an exception leaves the state of its fault entry. -/
theorem raised_eq_next {e : Cause} {s t : State} : raised e s = .next t ↔ t = takeException e s := by
  rw [raised, Host.Outcome.next.injEq, eq_comm]

/-- A command that completed leaves the state written. -/
theorem next_eq_next {s t : State} : (.next s : StepResult) = .next t ↔ t = s := by
  rw [Host.Outcome.next.injEq, eq_comm]

/-! ### The shared operations as equations -/

theorem run_read {α : Type} (s : State) (r : RegFile α) (i : Reg) (f : α → Except Cause State) :
    s.run (r.read i >>= f) = if (r.get i).valid = true then s.run (f (r.get i).val) else raised .uninit s := by
  unfold RegFile.read; split <;> rfl

theorem run_require (s : State) (c : Prop) [Decidable c] (e : Cause) (f : Unit → Except Cause State) :
    s.run (require c e >>= f) = if c then s.run (f ()) else raised e s := by
  unfold require; split <;> rfl

theorem run_checkRange (s : State) (a n : Nat) (f : Unit → Except Cause State) :
    s.run (s.checkRange a n >>= f) = if a + n ≤ s.build.dmemBytes then s.run (f ()) else raised .daddr s :=
  run_require s _ _ f

theorem run_loadField (s : State) (a : Imm) (f : Nat → Except Cause State) :
    s.run (s.loadField a >>= f) =
      if a.toNat + 28 ≤ s.build.dmemBytes then s.run (f (beInt (s.readBytes a.toNat 28))) else raised .daddr s := by
  split
  · next h => rw [State.loadField_eq_ok.mpr ⟨h, rfl⟩, bind_ok]
  · next h => rw [State.loadField_eq_error.mpr ⟨Nat.lt_of_not_le h, rfl⟩, bind_error]; rfl

theorem run_loadScalar (s : State) (a : Imm) (f : Nat → Except Cause State) :
    s.run (s.loadScalar a >>= f) =
      if a.toNat + 32 ≤ s.build.dmemBytes then s.run (f (beInt (s.readBytes a.toNat 32))) else raised .daddr s := by
  split
  · next h => rw [State.loadScalar_eq_ok.mpr ⟨h, rfl⟩, bind_ok]
  · next h => rw [State.loadScalar_eq_error.mpr ⟨Nat.lt_of_not_le h, rfl⟩, bind_error]; rfl

theorem run_loadWide (s : State) (a : Imm) (f : Nat → Except Cause State) :
    s.run (s.loadWide a >>= f) =
      if a.toNat + 64 ≤ s.build.dmemBytes then s.run (f (beInt (s.readBytes a.toNat 64))) else raised .daddr s := by
  split
  · next h => rw [State.loadWide_eq_ok.mpr ⟨h, rfl⟩, bind_ok]
  · next h => rw [State.loadWide_eq_error.mpr ⟨Nat.lt_of_not_le h, rfl⟩, bind_error]; rfl

/-! ### The meanings -/

variable (s : State)

theorem execNop_eq : execNop s =
    .next s.advance := rfl

theorem execHalt_eq : execHalt s =
    .next s.finish := rfl

theorem execJmp_eq (target : Imm) : execJmp target s =
    .next (s.setPc target) := rfl

theorem execLdlc_eq (d : Reg) (count : Imm) : execLdlc d count s =
    .next (s.writeL d count).advance := rfl

theorem execLoop_eq (d : Reg) (target : Imm) : execLoop d target s =
    if (s.L.get d).valid = true then
        .next (if (s.L.get d).val - 1 = 0 then (s.writeL d ((s.L.get d).val - 1)).advance else (s.writeL d ((s.L.get
      d).val - 1)).setPc target)
    else raised .uninit s := by
  simp only [execLoop, run_read]; rfl

theorem execCldi_eq (d : Reg) (bit : Imm) : execCldi d bit s =
    .next (s.writeC d (bit.getLsbD 0)).advance := rfl

theorem execCnot_eq (d a : Reg) : execCnot d a s =
    if (s.C.get a).valid = true then
    .next (s.writeC d (!(s.C.get a).val)).advance
    else raised .uninit s := by
  simp only [execCnot, run_read]; rfl

theorem execCand_eq (d a b : Reg) : execCand d a b s =
    if (s.C.get a).valid = true then
    if (s.C.get b).valid = true then
    .next (s.writeC d ((s.C.get a).val && (s.C.get b).val)).advance
    else raised .uninit s
    else raised .uninit s := by
  simp only [execCand, run_read]; rfl

theorem execCor_eq (d a b : Reg) : execCor d a b s =
    if (s.C.get a).valid = true then
    if (s.C.get b).valid = true then
    .next (s.writeC d ((s.C.get a).val || (s.C.get b).val)).advance
    else raised .uninit s
    else raised .uninit s := by
  simp only [execCor, run_read]; rfl

theorem execCxor_eq (d a b : Reg) : execCxor d a b s =
    if (s.C.get a).valid = true then
    if (s.C.get b).valid = true then
    .next (s.writeC d ((s.C.get a).val ^^ (s.C.get b).val)).advance
    else raised .uninit s
    else raised .uninit s := by
  simp only [execCxor, run_read]; rfl

theorem execFldb_eq (d a : Reg) (addr : Imm) : execFldb d a addr s =
    if addr.toNat + 28 ≤ s.build.dmemBytes then
        .next ((s.writeF d (FElem.ofCanonical (if decide (beInt (s.readBytes addr.toNat 28) < p) = true then beInt
      (s.readBytes addr.toNat 28) else 0))).writeC a (decide (beInt (s.readBytes addr.toNat 28) < p))).advance
    else raised .daddr s := by
  simp only [execFldb, run_loadField]; rfl

theorem execFldbu_eq (d : Reg) (addr : Imm) : execFldbu d addr s =
    if addr.toNat + 28 ≤ s.build.dmemBytes then
    if beInt (s.readBytes addr.toNat 28) < p then
    .next (s.writeF d (FElem.ofCanonical (beInt (s.readBytes addr.toNat 28)))).advance
    else raised .norm s
    else raised .daddr s := by
  simp only [execFldbu, run_loadField, run_require]; rfl

theorem execFstb_eq (a : Reg) (addr : Imm) : execFstb a addr s =
    if addr.toNat + 28 ≤ s.build.dmemBytes then
    if (s.F.get a).valid = true then
    if (s.F.get a).val.norm = true then
    .next (s.storeInt addr Config.feBytes (s.F.get a).val.limb.value).advance
    else raised .norm s
    else raised .uninit s
    else raised .daddr s := by
  simp only [execFstb, requireNorm, run_checkRange, run_read, run_require]; rfl

theorem execFldi_eq (d : Reg) (literal : Imm) : execFldi d literal s =
    .next (s.writeF d ⟨⟨literal.setWidth 64, 0, 0, 0, 0⟩, 1, true⟩).advance := rfl

theorem execFmov_eq (d a : Reg) : execFmov d a s =
    if (s.F.get a).valid = true then
    .next (s.writeF d (s.F.get a).val).advance
    else raised .uninit s := by
  simp only [execFmov, run_read]; rfl

theorem execFadd_eq (d a b : Reg) : execFadd d a b s =
    if (s.F.get a).valid = true then
    if (s.F.get b).valid = true then
    if (s.F.get a).val.mag + (s.F.get b).val.mag ≤ Config.magMax then
        .next (s.writeF d ⟨Limbs.zip (· + ·) (s.F.get a).val.limb (s.F.get b).val.limb, (s.F.get a).val.mag + (s.F.get
      b).val.mag, false⟩).advance
    else raised .mag s
    else raised .uninit s
    else raised .uninit s := by
  simp only [execFadd, run_read, run_require]; rfl

theorem execFmuls_eq (d a : Reg) (k : Imm) : execFmuls d a k s =
    if (s.F.get a).valid = true then
    if (s.F.get a).val.mag * k.toNat ≤ Config.magMax then
    .next (s.writeF d ⟨Limbs.map (· * k.setWidth 64) (s.F.get a).val.limb, (s.F.get a).val.mag * k.toNat, false⟩).advance
    else raised .mag s
    else raised .uninit s := by
  simp only [execFmuls, run_read, run_require]; rfl

theorem execFneg_eq (d a : Reg) (m : Imm) : execFneg d a m s =
    if (s.F.get a).valid = true then
    if (s.F.get a).val.mag ≤ m.toNat then
        .next (s.writeF d ⟨Limbs.zip (fun pl l => (m.setWidth 64 + 1) * pl - l) PL (s.F.get a).val.limb, m.toNat + 1,
      false⟩).advance
    else raised .mag s
    else raised .uninit s := by
  simp only [execFneg, run_read, run_require]; rfl

theorem execFmul_eq (d a b : Reg) : execFmul d a b s =
    if (s.F.get a).valid = true then
    if (s.F.get b).valid = true then
    if (s.F.get a).val.mag ≤ Config.mulMagMax then
    if (s.F.get b).val.mag ≤ Config.mulMagMax then
    .next (s.writeMultiplier d ((s.F.get a).val.limb.value * (s.F.get b).val.limb.value % p)).advance
    else raised .mag s
    else raised .mag s
    else raised .uninit s
    else raised .uninit s := by
  simp only [execFmul, requireMul, run_read, run_require]; rfl

theorem execFsqr_eq (d a : Reg) : execFsqr d a s =
    if (s.F.get a).valid = true then
    if (s.F.get a).val.mag ≤ Config.mulMagMax then
    .next (s.writeMultiplier d ((s.F.get a).val.limb.value ^ 2 % p)).advance
    else raised .mag s
    else raised .uninit s := by
  simp only [execFsqr, requireMul, run_read, run_require]; rfl

theorem execFnorm_eq (d a : Reg) : execFnorm d a s =
    if (s.F.get a).valid = true then
    .next (s.writeF d ⟨canon (s.F.get a).val.limb.value, 1, true⟩).advance
    else raised .uninit s := by
  simp only [execFnorm, run_read]; rfl

theorem execFnormw_eq (d a : Reg) : execFnormw d a s =
    if (s.F.get a).valid = true then
    .next (s.writeMultiplier d ((s.F.get a).val.limb.value % p)).advance
    else raised .uninit s := by
  simp only [execFnormw, run_read]; rfl

theorem execFsel_eq (d a b c : Reg) : execFsel d a b c s =
    if (s.F.get a).valid = true then
    if (s.F.get b).valid = true then
    if (s.C.get c).valid = true then
        .next (s.writeF d ⟨if (s.C.get c).val = true then (s.F.get b).val.limb else (s.F.get a).val.limb, max (s.F.get
      a).val.mag (s.F.get b).val.mag, if (s.C.get c).val = true then (s.F.get b).val.norm else (s.F.get
      a).val.norm⟩).advance
    else raised .uninit s
    else raised .uninit s
    else raised .uninit s := by
  simp only [execFsel, run_read]; rfl

theorem execFeq_eq (d a b : Reg) : execFeq d a b s =
    if (s.F.get a).valid = true then
    if (s.F.get b).valid = true then
    if (s.F.get a).val.norm = true then
    if (s.F.get b).val.norm = true then
    .next (s.writeC d (limbsEqual (s.F.get a).val.limb (s.F.get b).val.limb)).advance
    else raised .norm s
    else raised .norm s
    else raised .uninit s
    else raised .uninit s := by
  simp only [execFeq, requireNorm, run_read, run_require]; rfl

theorem execFisz_eq (d a : Reg) : execFisz d a s =
    if (s.F.get a).valid = true then
    if (s.F.get a).val.norm = true then
    .next (s.writeC d (isZeroBit (s.F.get a).val)).advance
    else raised .norm s
    else raised .uninit s := by
  simp only [execFisz, requireNorm, run_read, run_require]; rfl

theorem execFisodd_eq (d a : Reg) : execFisodd d a s =
    if (s.F.get a).valid = true then
    if (s.F.get a).val.norm = true then
    .next (s.writeC d (isOddBit (s.F.get a).val)).advance
    else raised .norm s
    else raised .uninit s := by
  simp only [execFisodd, requireNorm, run_read, run_require]; rfl

theorem execFinv_eq (d a : Reg) : execFinv d a s =
    if (s.F.get a).valid = true then
    if (s.F.get a).val.mag ≤ Config.mulMagMax then
    .next (s.writeMultiplier d (invMod (s.F.get a).val.limb.value)).advance
    else raised .mag s
    else raised .uninit s := by
  simp only [execFinv, requireMul, run_read, run_require]; rfl

theorem execFsqrt_eq (d a c : Reg) : execFsqrt d a c s =
    if (s.F.get a).valid = true then
    if (s.F.get a).val.mag ≤ Config.mulMagMax then
        .next ((s.writeMultiplier d (sqrtCandidate (s.F.get a).val.residue)).writeC c (sqrtCandidate (s.F.get
      a).val.residue ^ 2 % p == (s.F.get a).val.residue)).advance
    else raised .mag s
    else raised .uninit s := by
  simp only [execFsqrt, requireMul, run_read, run_require]; rfl

theorem execSldb_eq (d a : Reg) (addr : Imm) : execSldb d a addr s =
    if addr.toNat + 32 ≤ s.build.dmemBytes then
        .next ((s.writeS d (BitVec.ofNat 256 (if decide (beInt (s.readBytes addr.toNat 32) < s.build.n) = true then beInt
      (s.readBytes addr.toNat 32) else 0))).writeC a (decide (beInt (s.readBytes addr.toNat 32) < s.build.n))).advance
    else raised .daddr s := by
  simp only [execSldb, run_loadScalar]; rfl

theorem execSstb_eq (a : Reg) (addr : Imm) : execSstb a addr s =
    if addr.toNat + 32 ≤ s.build.dmemBytes then
    if (s.S.get a).valid = true then
    .next (s.storeInt addr Config.scBytes (s.S.get a).val.toNat).advance
    else raised .uninit s
    else raised .daddr s := by
  simp only [execSstb, run_checkRange, run_read]; rfl

theorem execSldi_eq (d : Reg) (literal : Imm) : execSldi d literal s =
    .next (s.writeS d (literal.setWidth 256)).advance := rfl

theorem execSmov_eq (d a : Reg) : execSmov d a s =
    if (s.S.get a).valid = true then
    .next (s.writeS d (s.S.get a).val).advance
    else raised .uninit s := by
  simp only [execSmov, run_read]; rfl

theorem execSadd_eq (d a b : Reg) : execSadd d a b s =
    if (s.S.get a).valid = true then
    if (s.S.get b).valid = true then
    .next (s.writeS d (BitVec.ofNat 256 (((s.S.get a).val.toNat + (s.S.get b).val.toNat) % s.build.n))).advance
    else raised .uninit s
    else raised .uninit s := by
  simp only [execSadd, run_read]; rfl

theorem execSmulw_eq (d a b : Reg) : execSmulw d a b s =
    if (s.S.get a).valid = true then
    if (s.S.get b).valid = true then
    .next (s.writeW d (BitVec.ofNat 512 ((s.S.get a).val.toNat * (s.S.get b).val.toNat))).advance
    else raised .uninit s
    else raised .uninit s := by
  simp only [execSmulw, run_read]; rfl

theorem execSred_eq (d a : Reg) : execSred d a s =
    if (s.W.get a).valid = true then
    .next (s.writeS d (BitVec.ofNat 256 ((s.W.get a).val.toNat % s.build.n))).advance
    else raised .uninit s := by
  simp only [execSred, run_read]; rfl

theorem execWldb_eq (d : Reg) (addr : Imm) : execWldb d addr s =
    if addr.toNat + 64 ≤ s.build.dmemBytes then
    .next (s.writeW d (BitVec.ofNat 512 (beInt (s.readBytes addr.toNat 64)))).advance
    else raised .daddr s := by
  simp only [execWldb, run_loadWide]; rfl

theorem execWstb_eq (a : Reg) (addr : Imm) : execWstb a addr s =
    if addr.toNat + 64 ≤ s.build.dmemBytes then
    if (s.W.get a).valid = true then
    .next (s.storeInt addr Config.wideBytes (s.W.get a).val.toNat).advance
    else raised .uninit s
    else raised .daddr s := by
  simp only [execWstb, run_checkRange, run_read]; rfl

theorem execSeq_eq (d a b : Reg) : execSeq d a b s =
    if (s.S.get a).valid = true then
    if (s.S.get b).valid = true then
    .next (s.writeC d (scalarEqual (s.S.get a).val (s.S.get b).val)).advance
    else raised .uninit s
    else raised .uninit s := by
  simp only [execSeq, run_read]; rfl

theorem execSlt_eq (d a b : Reg) : execSlt d a b s =
    if (s.S.get a).valid = true then
    if (s.S.get b).valid = true then
    .next (s.writeC d (scalarLess (s.S.get a).val (s.S.get b).val)).advance
    else raised .uninit s
    else raised .uninit s := by
  simp only [execSlt, run_read]; rfl

theorem execSsel_eq (d a b c : Reg) : execSsel d a b c s =
    if (s.S.get a).valid = true then
    if (s.S.get b).valid = true then
    if (s.C.get c).valid = true then
    .next (s.writeS d (if (s.C.get c).val = true then (s.S.get b).val else (s.S.get a).val)).advance
    else raised .uninit s
    else raised .uninit s
    else raised .uninit s := by
  simp only [execSsel, run_read]; rfl

theorem execAmk_eq (d a b : Reg) : execAmk d a b s =
    if (s.F.get a).valid = true then
    if (s.F.get b).valid = true then
    if (s.F.get a).val.norm = true then
    if (s.F.get b).val.norm = true then
    .next (s.writeA d ⟨Fin.ofNat p (s.F.get a).val.limb.value, Fin.ofNat p (s.F.get b).val.limb.value, false⟩).advance
    else raised .norm s
    else raised .norm s
    else raised .uninit s
    else raised .uninit s := by
  simp only [execAmk, requireNorm, run_read, run_require]; rfl

theorem execAid_eq (d : Reg) : execAid d s =
    .next (s.writeA d APoint.identity).advance := rfl

theorem execAgen_eq (d : Reg) : execAgen d s =
    .next (s.writeA d (APoint.generator s.build)).advance := rfl

theorem execAgetx_eq (d a : Reg) : execAgetx d a s =
    if (s.A.get a).valid = true then
    .next (s.writeF d (FElem.ofCanonical (s.A.get a).val.x.val)).advance
    else raised .uninit s := by
  simp only [execAgetx, run_read]; rfl

theorem execAgety_eq (d a : Reg) : execAgety d a s =
    if (s.A.get a).valid = true then
    .next (s.writeF d (FElem.ofCanonical (s.A.get a).val.y.val)).advance
    else raised .uninit s := by
  simp only [execAgety, run_read]; rfl

theorem execAisid_eq (d a : Reg) : execAisid d a s =
    if (s.A.get a).valid = true then
    .next (s.writeC d (s.A.get a).val.inf).advance
    else raised .uninit s := by
  simp only [execAisid, run_read]; rfl

theorem execAeq_eq (d a b : Reg) : execAeq d a b s =
    if (s.A.get a).valid = true then
    if (s.A.get b).valid = true then
    .next (s.writeC d (affineEqual (s.A.get a).val (s.A.get b).val)).advance
    else raised .uninit s
    else raised .uninit s := by
  simp only [execAeq, run_read]; rfl

theorem execAsel_eq (d a b c : Reg) : execAsel d a b c s =
    if (s.A.get a).valid = true then
    if (s.A.get b).valid = true then
    if (s.C.get c).valid = true then
    .next (s.writeA d (if (s.C.get c).val = true then (s.A.get b).val else (s.A.get a).val)).advance
    else raised .uninit s
    else raised .uninit s
    else raised .uninit s := by
  simp only [execAsel, run_read]; rfl

theorem execAonc_eq (d a : Reg) : execAonc d a s =
    if (s.A.get a).valid = true then
    .next (s.writeC d ((s.A.get a).val.onCurve s.build.b)).advance
    else raised .uninit s := by
  simp only [execAonc, run_read]; rfl

theorem execAmov_eq (d a : Reg) : execAmov d a s =
    if (s.A.get a).valid = true then
    .next (s.writeA d (s.A.get a).val).advance
    else raised .uninit s := by
  simp only [execAmov, run_read]; rfl

theorem execPa2p_eq (d a : Reg) : execPa2p d a s =
    if (s.A.get a).valid = true then
    .next (s.writeP d (s.A.get a).val.toProjective).advance
    else raised .uninit s := by
  simp only [execPa2p, run_read]; rfl

theorem execPtoa_eq (d a : Reg) : execPtoa d a s =
    if (s.P.get a).valid = true then
    .next (s.writeA d (s.P.get a).val.toAffine).advance
    else raised .uninit s := by
  simp only [execPtoa, run_read]; rfl

theorem execPid_eq (d : Reg) : execPid d s =
    .next (s.writeP d PPoint.identity).advance := rfl

theorem execPgen_eq (d : Reg) : execPgen d s =
    .next (s.writeP d (PPoint.generator s.build)).advance := rfl

theorem execPisid_eq (d a : Reg) : execPisid d a s =
    if (s.P.get a).valid = true then
    .next (s.writeC d (projectiveIsIdentity (s.P.get a).val)).advance
    else raised .uninit s := by
  simp only [execPisid, run_read]; rfl

theorem execPsel_eq (d a b c : Reg) : execPsel d a b c s =
    if (s.P.get a).valid = true then
    if (s.P.get b).valid = true then
    if (s.C.get c).valid = true then
    .next (s.writeP d (if (s.C.get c).val = true then (s.P.get b).val else (s.P.get a).val)).advance
    else raised .uninit s
    else raised .uninit s
    else raised .uninit s := by
  simp only [execPsel, run_read]; rfl

theorem execPmov_eq (d a : Reg) : execPmov d a s =
    if (s.P.get a).valid = true then
    .next (s.writeP d (s.P.get a).val).advance
    else raised .uninit s := by
  simp only [execPmov, run_read]; rfl

theorem execPdbl_eq (d a : Reg) : execPdbl d a s =
    if (s.P.get a).valid = true then
    if (s.P.get a).val.onCurve s.build.b = true then
    .next (s.writeP d (dbl s.build.b (s.P.get a).val)).advance
    else raised .curve s
    else raised .uninit s := by
  simp only [execPdbl, requireP, run_read, run_require]; rfl

theorem execPadd_eq (d a b : Reg) : execPadd d a b s =
    if (s.P.get a).valid = true then
    if (s.P.get b).valid = true then
    if (s.P.get a).val.onCurve s.build.b = true then
    if (s.P.get b).val.onCurve s.build.b = true then
    .next (s.writeP d (add s.build.b (s.P.get a).val (s.P.get b).val)).advance
    else raised .curve s
    else raised .curve s
    else raised .uninit s
    else raised .uninit s := by
  simp only [execPadd, requireP, run_read, run_require]; rfl

theorem execPmadd_eq (d a b : Reg) : execPmadd d a b s =
    if (s.P.get a).valid = true then
    if (s.A.get b).valid = true then
    if (s.P.get a).val.onCurve s.build.b = true then
    if (s.A.get b).val.onCurve s.build.b = true then
        .next (s.writeP d (if (s.A.get b).val.inf = true then (s.P.get a).val else madd s.build.b (s.P.get a).val (s.A.get
      b).val.x (s.A.get b).val.y)).advance
    else raised .curve s
    else raised .curve s
    else raised .uninit s
    else raised .uninit s := by
  simp only [execPmadd, requireP, requireA, run_read, run_require]; rfl

theorem execPsmul_eq (d a b : Reg) : execPsmul d a b s =
    if (s.P.get a).valid = true then
    if (s.S.get b).valid = true then
    if (s.P.get a).val.onCurve s.build.b = true then
    .next (s.writeP d (smul s.build.b (s.P.get a).val (s.S.get b).val)).advance
    else raised .curve s
    else raised .uninit s
    else raised .uninit s := by
  simp only [execPsmul, requireP, run_read, run_require]; rfl

end Sys2Proof.Machine
end

