-- ==== Sys2Proof/Laws/PerInstr.lean ====
section
/-! SUPPORT. Facts about every command as syntax, one lemma a constructor. Assembly: putting the operands of a command into their
slots and reading them out again gives the command; the slots it does not use, and those its layout does not have, are
zero; a well-formed immediate is within its use's range. -/

namespace Sys2Proof.Laws

/-- What the assembly of a command needs (30_encoding.md R103, R104, R106, R115). -/
def Assembly.Statement (i : Instr) : Prop :=
  i.op.build i.fields = i ∧ i.op.sig.slotsOk i.fields = true ∧ (i.wf = true → i.op.sig.immOk i.fields = true) ∧
    (match i.op.sig.layout with
      | .R => (⟨i.fields.d, i.fields.a, i.fields.b, i.fields.c, 0⟩ : Fields) = i.fields
      | .I => (⟨i.fields.d, i.fields.a, 0, 0, i.fields.imm⟩ : Fields) = i.fields)

/-- An immediate that may take every 16-bit value is in range. -/
theorem immOk_full {g : Sig} (f : Fields) (h : g.imm.top = 0xFFFF) : g.immOk f = true := by
  have := f.imm.isLt
  simp only [Sig.immOk, h, decide_eq_true_eq]
  omega

theorem Assembly.nop : Assembly.Statement .nop :=
  ⟨rfl, rfl, fun _ => rfl, rfl⟩
theorem Assembly.halt : Assembly.Statement .halt :=
  ⟨rfl, rfl, fun _ => rfl, rfl⟩
theorem Assembly.jmp (target : Imm) : Assembly.Statement (.jmp target) :=
  ⟨rfl, rfl, fun _ => immOk_full _ rfl, rfl⟩
theorem Assembly.ldlc (d : Reg) (count : Imm) : Assembly.Statement (.ldlc d count) :=
  ⟨rfl, rfl, fun _ => immOk_full _ rfl, rfl⟩
theorem Assembly.loop (d : Reg) (target : Imm) : Assembly.Statement (.loop d target) :=
  ⟨rfl, rfl, fun _ => immOk_full _ rfl, rfl⟩
theorem Assembly.cldi (d : Reg) (bit : Imm) : Assembly.Statement (.cldi d bit) :=
  ⟨rfl, rfl, fun h => h, rfl⟩
theorem Assembly.cnot (d : Reg) (a : Reg) : Assembly.Statement (.cnot d a) :=
  ⟨rfl, rfl, fun _ => rfl, rfl⟩
theorem Assembly.cand (d : Reg) (a : Reg) (b : Reg) : Assembly.Statement (.cand d a b) :=
  ⟨rfl, rfl, fun _ => rfl, rfl⟩
theorem Assembly.cor (d : Reg) (a : Reg) (b : Reg) : Assembly.Statement (.cor d a b) :=
  ⟨rfl, rfl, fun _ => rfl, rfl⟩
theorem Assembly.cxor (d : Reg) (a : Reg) (b : Reg) : Assembly.Statement (.cxor d a b) :=
  ⟨rfl, rfl, fun _ => rfl, rfl⟩
theorem Assembly.fldb (d : Reg) (a : Reg) (addr : Imm) : Assembly.Statement (.fldb d a addr) :=
  ⟨rfl, rfl, fun _ => immOk_full _ rfl, rfl⟩
theorem Assembly.fldbu (d : Reg) (addr : Imm) : Assembly.Statement (.fldbu d addr) :=
  ⟨rfl, rfl, fun _ => immOk_full _ rfl, rfl⟩
theorem Assembly.fstb (a : Reg) (addr : Imm) : Assembly.Statement (.fstb a addr) :=
  ⟨rfl, rfl, fun _ => immOk_full _ rfl, rfl⟩
theorem Assembly.fldi (d : Reg) (literal : Imm) : Assembly.Statement (.fldi d literal) :=
  ⟨rfl, rfl, fun _ => immOk_full _ rfl, rfl⟩
theorem Assembly.fmov (d : Reg) (a : Reg) : Assembly.Statement (.fmov d a) :=
  ⟨rfl, rfl, fun _ => rfl, rfl⟩
theorem Assembly.fadd (d : Reg) (a : Reg) (b : Reg) : Assembly.Statement (.fadd d a b) :=
  ⟨rfl, rfl, fun _ => rfl, rfl⟩
theorem Assembly.fmuls (d : Reg) (a : Reg) (k : Imm) : Assembly.Statement (.fmuls d a k) :=
  ⟨rfl, rfl, fun h => h, rfl⟩
theorem Assembly.fneg (d : Reg) (a : Reg) (m : Imm) : Assembly.Statement (.fneg d a m) :=
  ⟨rfl, rfl, fun h => h, rfl⟩
theorem Assembly.fmul (d : Reg) (a : Reg) (b : Reg) : Assembly.Statement (.fmul d a b) :=
  ⟨rfl, rfl, fun _ => rfl, rfl⟩
theorem Assembly.fsqr (d : Reg) (a : Reg) : Assembly.Statement (.fsqr d a) :=
  ⟨rfl, rfl, fun _ => rfl, rfl⟩
theorem Assembly.fnorm (d : Reg) (a : Reg) : Assembly.Statement (.fnorm d a) :=
  ⟨rfl, rfl, fun _ => rfl, rfl⟩
theorem Assembly.fnormw (d : Reg) (a : Reg) : Assembly.Statement (.fnormw d a) :=
  ⟨rfl, rfl, fun _ => rfl, rfl⟩
theorem Assembly.fsel (d : Reg) (a : Reg) (b : Reg) (c : Reg) : Assembly.Statement (.fsel d a b c) :=
  ⟨rfl, rfl, fun _ => rfl, rfl⟩
theorem Assembly.feq (d : Reg) (a : Reg) (b : Reg) : Assembly.Statement (.feq d a b) :=
  ⟨rfl, rfl, fun _ => rfl, rfl⟩
theorem Assembly.fisz (d : Reg) (a : Reg) : Assembly.Statement (.fisz d a) :=
  ⟨rfl, rfl, fun _ => rfl, rfl⟩
theorem Assembly.fisodd (d : Reg) (a : Reg) : Assembly.Statement (.fisodd d a) :=
  ⟨rfl, rfl, fun _ => rfl, rfl⟩
theorem Assembly.finv (d : Reg) (a : Reg) : Assembly.Statement (.finv d a) :=
  ⟨rfl, rfl, fun _ => rfl, rfl⟩
theorem Assembly.fsqrt (d : Reg) (a : Reg) (c : Reg) : Assembly.Statement (.fsqrt d a c) :=
  ⟨rfl, rfl, fun _ => rfl, rfl⟩
theorem Assembly.sldb (d : Reg) (a : Reg) (addr : Imm) : Assembly.Statement (.sldb d a addr) :=
  ⟨rfl, rfl, fun _ => immOk_full _ rfl, rfl⟩
theorem Assembly.sstb (a : Reg) (addr : Imm) : Assembly.Statement (.sstb a addr) :=
  ⟨rfl, rfl, fun _ => immOk_full _ rfl, rfl⟩
theorem Assembly.sldi (d : Reg) (literal : Imm) : Assembly.Statement (.sldi d literal) :=
  ⟨rfl, rfl, fun _ => immOk_full _ rfl, rfl⟩
theorem Assembly.smov (d : Reg) (a : Reg) : Assembly.Statement (.smov d a) :=
  ⟨rfl, rfl, fun _ => rfl, rfl⟩
theorem Assembly.sadd (d : Reg) (a : Reg) (b : Reg) : Assembly.Statement (.sadd d a b) :=
  ⟨rfl, rfl, fun _ => rfl, rfl⟩
theorem Assembly.smulw (d : Reg) (a : Reg) (b : Reg) : Assembly.Statement (.smulw d a b) :=
  ⟨rfl, rfl, fun _ => rfl, rfl⟩
theorem Assembly.sred (d : Reg) (a : Reg) : Assembly.Statement (.sred d a) :=
  ⟨rfl, rfl, fun _ => rfl, rfl⟩
theorem Assembly.wldb (d : Reg) (addr : Imm) : Assembly.Statement (.wldb d addr) :=
  ⟨rfl, rfl, fun _ => immOk_full _ rfl, rfl⟩
theorem Assembly.seq (d : Reg) (a : Reg) (b : Reg) : Assembly.Statement (.seq d a b) :=
  ⟨rfl, rfl, fun _ => rfl, rfl⟩
theorem Assembly.slt (d : Reg) (a : Reg) (b : Reg) : Assembly.Statement (.slt d a b) :=
  ⟨rfl, rfl, fun _ => rfl, rfl⟩
theorem Assembly.ssel (d : Reg) (a : Reg) (b : Reg) (c : Reg) : Assembly.Statement (.ssel d a b c) :=
  ⟨rfl, rfl, fun _ => rfl, rfl⟩
theorem Assembly.wstb (a : Reg) (addr : Imm) : Assembly.Statement (.wstb a addr) :=
  ⟨rfl, rfl, fun _ => immOk_full _ rfl, rfl⟩
theorem Assembly.amk (d : Reg) (a : Reg) (b : Reg) : Assembly.Statement (.amk d a b) :=
  ⟨rfl, rfl, fun _ => rfl, rfl⟩
theorem Assembly.aid (d : Reg) : Assembly.Statement (.aid d) :=
  ⟨rfl, rfl, fun _ => rfl, rfl⟩
theorem Assembly.agen (d : Reg) : Assembly.Statement (.agen d) :=
  ⟨rfl, rfl, fun _ => rfl, rfl⟩
theorem Assembly.agetx (d : Reg) (a : Reg) : Assembly.Statement (.agetx d a) :=
  ⟨rfl, rfl, fun _ => rfl, rfl⟩
theorem Assembly.agety (d : Reg) (a : Reg) : Assembly.Statement (.agety d a) :=
  ⟨rfl, rfl, fun _ => rfl, rfl⟩
theorem Assembly.aisid (d : Reg) (a : Reg) : Assembly.Statement (.aisid d a) :=
  ⟨rfl, rfl, fun _ => rfl, rfl⟩
theorem Assembly.aeq (d : Reg) (a : Reg) (b : Reg) : Assembly.Statement (.aeq d a b) :=
  ⟨rfl, rfl, fun _ => rfl, rfl⟩
theorem Assembly.asel (d : Reg) (a : Reg) (b : Reg) (c : Reg) : Assembly.Statement (.asel d a b c) :=
  ⟨rfl, rfl, fun _ => rfl, rfl⟩
theorem Assembly.aonc (d : Reg) (a : Reg) : Assembly.Statement (.aonc d a) :=
  ⟨rfl, rfl, fun _ => rfl, rfl⟩
theorem Assembly.amov (d : Reg) (a : Reg) : Assembly.Statement (.amov d a) :=
  ⟨rfl, rfl, fun _ => rfl, rfl⟩
theorem Assembly.pa2p (d : Reg) (a : Reg) : Assembly.Statement (.pa2p d a) :=
  ⟨rfl, rfl, fun _ => rfl, rfl⟩
theorem Assembly.ptoa (d : Reg) (a : Reg) : Assembly.Statement (.ptoa d a) :=
  ⟨rfl, rfl, fun _ => rfl, rfl⟩
theorem Assembly.pid (d : Reg) : Assembly.Statement (.pid d) :=
  ⟨rfl, rfl, fun _ => rfl, rfl⟩
theorem Assembly.pgen (d : Reg) : Assembly.Statement (.pgen d) :=
  ⟨rfl, rfl, fun _ => rfl, rfl⟩
theorem Assembly.pisid (d : Reg) (a : Reg) : Assembly.Statement (.pisid d a) :=
  ⟨rfl, rfl, fun _ => rfl, rfl⟩
theorem Assembly.psel (d : Reg) (a : Reg) (b : Reg) (c : Reg) : Assembly.Statement (.psel d a b c) :=
  ⟨rfl, rfl, fun _ => rfl, rfl⟩
theorem Assembly.pmov (d : Reg) (a : Reg) : Assembly.Statement (.pmov d a) :=
  ⟨rfl, rfl, fun _ => rfl, rfl⟩
theorem Assembly.pdbl (d : Reg) (a : Reg) : Assembly.Statement (.pdbl d a) :=
  ⟨rfl, rfl, fun _ => rfl, rfl⟩
theorem Assembly.padd (d : Reg) (a : Reg) (b : Reg) : Assembly.Statement (.padd d a b) :=
  ⟨rfl, rfl, fun _ => rfl, rfl⟩
theorem Assembly.pmadd (d : Reg) (a : Reg) (b : Reg) : Assembly.Statement (.pmadd d a b) :=
  ⟨rfl, rfl, fun _ => rfl, rfl⟩
theorem Assembly.psmul (d : Reg) (a : Reg) (b : Reg) : Assembly.Statement (.psmul d a b) :=
  ⟨rfl, rfl, fun _ => rfl, rfl⟩

/-- Assembly holds of every command. -/
theorem assembly_of_every_command (i : Instr) : Assembly.Statement i := by
  cases i
  · exact Assembly.nop
  · exact Assembly.halt
  · exact Assembly.jmp _
  · exact Assembly.ldlc _ _
  · exact Assembly.loop _ _
  · exact Assembly.cldi _ _
  · exact Assembly.cnot _ _
  · exact Assembly.cand _ _ _
  · exact Assembly.cor _ _ _
  · exact Assembly.cxor _ _ _
  · exact Assembly.fldb _ _ _
  · exact Assembly.fldbu _ _
  · exact Assembly.fstb _ _
  · exact Assembly.fldi _ _
  · exact Assembly.fmov _ _
  · exact Assembly.fadd _ _ _
  · exact Assembly.fmuls _ _ _
  · exact Assembly.fneg _ _ _
  · exact Assembly.fmul _ _ _
  · exact Assembly.fsqr _ _
  · exact Assembly.fnorm _ _
  · exact Assembly.fnormw _ _
  · exact Assembly.fsel _ _ _ _
  · exact Assembly.feq _ _ _
  · exact Assembly.fisz _ _
  · exact Assembly.fisodd _ _
  · exact Assembly.finv _ _
  · exact Assembly.fsqrt _ _ _
  · exact Assembly.sldb _ _ _
  · exact Assembly.sstb _ _
  · exact Assembly.sldi _ _
  · exact Assembly.smov _ _
  · exact Assembly.sadd _ _ _
  · exact Assembly.smulw _ _ _
  · exact Assembly.sred _ _
  · exact Assembly.wldb _ _
  · exact Assembly.seq _ _ _
  · exact Assembly.slt _ _ _
  · exact Assembly.ssel _ _ _ _
  · exact Assembly.wstb _ _
  · exact Assembly.amk _ _ _
  · exact Assembly.aid _
  · exact Assembly.agen _
  · exact Assembly.agetx _ _
  · exact Assembly.agety _ _
  · exact Assembly.aisid _ _
  · exact Assembly.aeq _ _ _
  · exact Assembly.asel _ _ _ _
  · exact Assembly.aonc _ _
  · exact Assembly.amov _ _
  · exact Assembly.pa2p _ _
  · exact Assembly.ptoa _ _
  · exact Assembly.pid _
  · exact Assembly.pgen _
  · exact Assembly.pisid _ _
  · exact Assembly.psel _ _ _ _
  · exact Assembly.pmov _ _
  · exact Assembly.pdbl _ _
  · exact Assembly.padd _ _ _
  · exact Assembly.pmadd _ _ _
  · exact Assembly.psmul _ _ _

end Sys2Proof.Laws
end

