-- ==== Sys2Proof/Laws/Step.lean ====
section
/-! SUPPORT. What a step does, by the move at the head of the script, and what a host access to an offset of the window does. -/

namespace Sys2Proof.Machine

variable {s : State} {rest : List HostMove}

/-! ### One equation a move -/

theorem step_noMoves (h : s.env.moves = []) : step s = s.coreTurn := by simp [step, State.turn, h]

theorem step_core (h : s.env.moves = .core :: rest) : step s = s.dropMove.coreTurn := by simp [step, State.turn, h]

theorem step_read {addr bytes : Nat} (h : s.env.moves = .read addr bytes :: rest) :
    step s = .next (s.dropMove.hostRead addr bytes) := by simp [step, State.turn, h]

theorem step_write {addr bytes : Nat} {d : BitVec 32} (h : s.env.moves = .write addr bytes d :: rest) :
    step s = .next (s.dropMove.hostWrite addr bytes d) := by simp [step, State.turn, h]

theorem step_powerOn {draw : Nat} (h : s.env.moves = .powerOn draw :: rest) :
    step s = .next (s.dropMove.powerOnReset draw) := by simp [step, State.turn, h]

theorem dropMove_of_cons {m : HostMove} (h : s.env.moves = m :: rest) :
    s.dropMove = { s with env := { s.env with moves := rest } } := by simp [State.dropMove, h]

/-- Everything a step with a next state can be: the core's turn, a host access, or a power-on reset. -/
theorem step_cases {t : State} (h : step s = .next t) :
    (s.env.moves = [] ∧ s.coreTurn = .next t) ∨
    (∃ rest, s.env.moves = .core :: rest ∧ s.dropMove.coreTurn = .next t) ∨
    (∃ addr bytes rest, s.env.moves = .read addr bytes :: rest ∧ t = s.dropMove.hostRead addr bytes) ∨
    (∃ addr bytes d rest, s.env.moves = .write addr bytes d :: rest ∧ t = s.dropMove.hostWrite addr bytes d) ∨
    ∃ draw rest, s.env.moves = .powerOn draw :: rest ∧ t = s.dropMove.powerOnReset draw := by
  cases hm : s.env.moves with
  | nil => exact .inl ⟨rfl, step_noMoves hm ▸ h⟩
  | cons m rest =>
    cases m with
    | core => exact .inr (.inl ⟨rest, rfl, step_core hm ▸ h⟩)
    | read addr bytes =>
      rw [step_read hm] at h
      exact .inr (.inr (.inl ⟨addr, bytes, rest, rfl, (Host.Outcome.next.inj h).symm⟩))
    | write addr bytes d =>
      rw [step_write hm] at h
      exact .inr (.inr (.inr (.inl ⟨addr, bytes, d, rest, rfl, (Host.Outcome.next.inj h).symm⟩)))
    | powerOn draw =>
      rw [step_powerOn hm] at h
      exact .inr (.inr (.inr (.inr ⟨draw, rest, rfl, (Host.Outcome.next.inj h).symm⟩)))

/-! ### Offsets -/

theorem windowOffset_base {b : Build} {off : Nat} (h : off < 2 ^ 20) : windowOffset b (b.hostBase + off) = some off := by
  simp [windowOffset]; omega

theorem windowOffset_eq_some {b : Build} {addr off : Nat} (h : windowOffset b addr = some off) :
    addr = b.hostBase + off ∧ off < 2 ^ 20 := by
  unfold windowOffset at h
  split at h
  · cases h; omega
  · cases h

theorem imemWords_le (b : Build) : b.imemWords ≤ 65536 :=
  Nat.pow_le_pow_right (n := 2) (by norm_num) (Nat.le_of_lt_succ b.imemLog2.isLt : b.imemLog2.val ≤ 16)

theorem dmemBytes_le (b : Build) : b.dmemBytes ≤ 65536 :=
  Nat.pow_le_pow_right (n := 2) (by norm_num) (Nat.le_of_lt_succ b.dmemLog2.isLt : b.dmemLog2.val ≤ 16)

theorem target_register {b : Build} {off : Nat} (h : off < 0x40000) : target b off = registerAt off := if_pos h

theorem target_eq_pcr {b : Build} {off : Nat} : target b off = .pcr ↔ off = 0x14 := by
  constructor
  · intro h
    by_cases h1 : off < 0x40000
    · rw [target_register h1] at h
      unfold registerAt at h
      split_ifs at h
      assumption
    · unfold target at h
      rw [if_neg h1] at h
      split_ifs at h
      all_goals (dsimp only at h; split_ifs at h)
  · rintro rfl; rfl

theorem registerAt_idleOnly {off : Nat} : (registerAt off).idleOnly = true ↔ off = 0x10 := by
  unfold registerAt
  split_ifs <;> simp_all [Target.idleOnly]

/-- The offsets whose target is the running core's: ENTRY and both memories (20_memory.md R85). -/
theorem target_idleOnly {b : Build} {off : Nat} (h4 : off % 4 = 0) : (target b off).idleOnly = true ↔
    off = 0x10 ∨ (0x40000 ≤ off ∧ off < 0x40000 + 4 * b.imemWords) ∨ (0x80000 ≤ off ∧ off < 0x80000 + b.dmemBytes) := by
  have hi := imemWords_le b
  have hd := dmemBytes_le b
  by_cases h1 : off < 0x40000
  · simp only [target, if_pos h1, registerAt_idleOnly]
    omega
  by_cases h2 : off < 0x80000
  · by_cases h3 : (off - 0x40000) / 4 < b.imemWords
    · simp only [target, if_neg h1, if_pos h2, if_pos h3, Target.idleOnly, true_iff]
      omega
    · simp only [target, if_neg h1, if_pos h2, if_neg h3, Target.idleOnly, Bool.false_eq_true, false_iff]
      omega
  by_cases h3 : off < 0x90000
  · by_cases h5 : off - 0x80000 < b.dmemBytes
    · simp only [target, if_neg h1, if_neg h2, if_pos h3, if_pos h5, Target.idleOnly, true_iff]
      omega
    · simp only [target, if_neg h1, if_neg h2, if_pos h3, if_neg h5, Target.idleOnly, Bool.false_eq_true, false_iff]
      omega
  simp only [target, if_neg h1, if_neg h2, if_neg h3, Target.idleOnly, Bool.false_eq_true, false_iff]
  omega

/-- The offsets that hold nothing (10_state.md R59, 20_memory.md R82). -/
theorem target_reserved {b : Build} {off : Nat} (h4 : off % 4 = 0) (h : (0x24 ≤ off ∧ off < 0x40000) ∨
    (0x40000 + 4 * b.imemWords ≤ off ∧ off < 0x80000) ∨ (0x80000 + b.dmemBytes ≤ off ∧ off < 2 ^ 20)) :
    target b off = .reserved := by
  unfold target
  split_ifs <;> first | rfl | omega | (simp only [registerAt]; split_ifs <;> first | rfl | omega)

/-- When a host access at an offset is refused (60_exceptions.md R370). -/
theorem refuses_iff {off bytes : Nat} : s.refuses off bytes = true ↔
    bytes ≠ 4 ∨ off % 4 ≠ 0 ∨ (s.busy = true ∧ (target s.build off).idleOnly = true) := by
  simp only [State.refuses, Bool.or_eq_true, Bool.and_eq_true, Bool.not_eq_true', Bool.and_eq_false_iff, beq_eq_false_iff_ne, ne_eq]
  tauto

/-! ### PCR (10_state.md R53) -/

theorem pcrValue_idle (h : s.busy = false) : s.pcrValue = s.pc := by simp [State.pcrValue, h]

theorem pcrValue_running (h : s.busy = true) : s.pcrValue = s.pc ∨ s.pcrValue ∈ s.env.reached := by
  simp only [State.pcrValue, h, if_true]
  rcases Nat.lt_or_ge (Config.pcrDraw s.env.draws % s.noteReached.env.reached.length) s.noteReached.env.reached.length with hl | hl
  · rw [List.getD_eq_getElem _ _ hl]
    exact (State.mem_noteReached s).1 (List.getElem_mem hl)
  · exact .inl (List.getD_eq_default _ _ hl)

/-! ### Accesses at an offset -/

theorem hostRead_refused {off bytes : Nat} (ho : off < 2 ^ 20) (h : s.refuses off bytes = true) :
    s.hostRead (s.build.hostBase + off) bytes = (s.setBusData 0).setHerr := by simp [State.hostRead, windowOffset_base ho, h]

theorem hostRead_accepted {off bytes : Nat} (ho : off < 2 ^ 20) (h : s.refuses off bytes = false) :
    s.hostRead (s.build.hostBase + off) bytes =
      (s.setBusData (s.readTarget (target s.build off))).afterRead (target s.build off) := by
  simp [State.hostRead, windowOffset_base ho, h]

theorem hostWrite_refused {off bytes : Nat} {d : BitVec 32} (ho : off < 2 ^ 20) (h : s.refuses off bytes = true) :
    s.hostWrite (s.build.hostBase + off) bytes d = s.setHerr := by simp [State.hostWrite, windowOffset_base ho, h]

theorem hostWrite_accepted {off bytes : Nat} {d : BitVec 32} (ho : off < 2 ^ 20) (h : s.refuses off bytes = false) :
    s.hostWrite (s.build.hostBase + off) bytes d = s.writeTarget d (target s.build off) := by
  simp [State.hostWrite, windowOffset_base ho, h]

end Sys2Proof.Machine
end

