-- ==== Sys2Proof/Tests/Slice0.lean ====
section
/-! SUPPORT. Tests. Words and expected values are those the spec writes out (the examples of 40_control.md to 43_point.md, the
vectors of 95_test_vectors.md), or hand calculation where a docstring says so. Then one witness a statement: a concrete state
and operands that meet its hypotheses, at the boundary values of their ranges. -/

namespace Sys2Proof.Tests

open Sys2Proof.Machine Sys2Proof.Claims

-- One theorem at a time: each evaluation by the kernel would otherwise hold a thread of its own.
set_option Elab.async false

/-! ### Decoding: one word a command, as the spec writes it -/

/-- The control commands. -/
def controlWords : List (Word × Instr) :=
  [(0x02000000, .nop), (0x04000000, .halt), (0x0600000A, .jmp 10), (0x08400005, .ldlc 2 5),
   (0x0A000004, .loop 0 4), (0x10200001, .cldi 1 1), (0x12000000, .cnot 0 0), (0x14624000, .cand 3 1 2),
   (0x16624000, .cor 3 1 2), (0x18624000, .cxor 3 1 2)]

theorem test_decode_control : ∀ c ∈ controlWords, decode c.1 = .ok c.2 ∧ encode c.2 = c.1 := by decide +kernel

/-- The field commands. -/
def fieldWords : List (Word × Instr) :=
  [(0x20200FE4, .fldb 1 0 4068), (0x22400040, .fldbu 2 0x40), (0x24060080, .fstb 3 0x80), (0x26200005, .fldi 1 5),
   (0x28820000, .fmov 4 1), (0x2A624000, .fadd 3 1 2), (0x2CA20003, .fmuls 5 1 3), (0x2EC20001, .fneg 6 1 1),
   (0x30E24000, .fmul 7 1 2), (0x33020000, .fsqr 8 1), (0x352C0000, .fnorm 9 6), (0x374C0000, .fnormw 10 6),
   (0x39624200, .fsel 11 1 2 1), (0x3A424000, .feq 2 1 2), (0x3C620000, .fisz 3 1), (0x3E820000, .fisodd 4 1),
   (0x41820000, .finv 12 1), (0x43A20A00, .fsqrt 13 1 5)]

theorem test_decode_field : ∀ c ∈ fieldWords, decode c.1 = .ok c.2 ∧ encode c.2 = c.1 := by decide +kernel

/-- The scalar commands. -/
def scalarWords : List (Word × Instr) :=
  [(0x60200100, .sldb 1 0 0x100), (0x62040120, .sstb 2 0x120), (0x64600007, .sldi 3 7), (0x66860000, .smov 4 3),
   (0x68A26000, .sadd 5 1 3), (0x6A226000, .smulw 1 1 3), (0x6CC20000, .sred 6 1), (0x6E400200, .wldb 2 0x200),
   (0x70C26000, .seq 6 1 3), (0x72E26000, .slt 7 1 3), (0x74E26200, .ssel 7 1 3 1), (0x76020240, .wstb 1 0x240)]

theorem test_decode_scalar : ∀ c ∈ scalarWords, decode c.1 = .ok c.2 ∧ encode c.2 = c.1 := by decide +kernel

/-- The affine commands. -/
def affineWords : List (Word × Instr) :=
  [(0x80224000, .amk 1 1 2), (0x82000000, .aid 0), (0x84400000, .agen 2), (0x87C40000, .agetx 14 2),
   (0x89E40000, .agety 15 2), (0x8B000000, .aisid 8 0), (0x8D224000, .aeq 9 1 2), (0x8E624200, .asel 3 1 2 1),
   (0x91420000, .aonc 10 1), (0x92840000, .amov 4 2)]

theorem test_decode_affine : ∀ c ∈ affineWords, decode c.1 = .ok c.2 ∧ encode c.2 = c.1 := by decide +kernel

/-- The projective commands. -/
def projectiveWords : List (Word × Instr) :=
  [(0xA0240000, .pa2p 1 2), (0xA2A20000, .ptoa 5 1), (0xA4000000, .pid 0), (0xA6400000, .pgen 2),
   (0xA9600000, .pisid 11 0), (0xAA624200, .psel 3 1 2 1), (0xAC840000, .pmov 4 2), (0xAEA40000, .pdbl 5 2),
   (0xB0C4A000, .padd 6 2 5), (0xB2E44000, .pmadd 7 2 2), (0xB5046000, .psmul 8 2 3)]

theorem test_decode_projective : ∀ c ∈ projectiveWords, decode c.1 = .ok c.2 ∧ encode c.2 = c.1 := by decide +kernel

/-- Every command has a word in the lists. -/
theorem test_decode_lists_cover : (controlWords ++ fieldWords ++ scalarWords ++ affineWords ++ projectiveWords).map (fun c => c.2.op) =
    Op.all := by decide +kernel

/-- The illegal words V-C19 to V-C26. -/
theorem test_illegal_words : [0x00000000, 0x02000001, 0x10000002, 0x2C000021, 0x2E000020, 0x0C000000, 0x20010000, 0x2A624001].all
    (fun w => (decode w).toOption == none) = true := by decide +kernel

/-- The host's numbering of a row's bits is the word's own. -/
theorem test_decodeTableWord : decodeTableWord 32 0x2A624000 = some (.fadd 3 1 2) ∧ decodeTableWord 32 0 = none := by
  decide +kernel

/-! ### Well-formedness: each check refuses an ill-formed term -/

theorem test_wf_fmuls : (Instr.fmuls 1 2 33).wf = false ∧ (Instr.fmuls 1 2 32).wf = true := by decide +kernel
theorem test_wf_fneg : (Instr.fneg 1 2 32).wf = false ∧ (Instr.fneg 1 2 31).wf = true := by decide +kernel
theorem test_wf_cldi : (Instr.cldi 1 2).wf = false ∧ (Instr.cldi 1 1).wf = true := by decide +kernel

/-! ### The assembler (30_encoding.md R113 to R122) -/

/-- V-C16. -/
theorem test_assemble_loop : assemble
    ("LDLC L1, 3\nFLDI F1, 1 ; comment\ntop: FADD F1, F1, F1\nLOOP L1, top\nFNORM F2, F1\nhalt").toList =
      .ok [0x08200003, 0x26200001, 0x2A222000, 0x0A200002, 0x34420000, 0x04000000] := by decide +kernel

/-- R117, R118, R122: an expansion of two words, a refused FSUB, an unknown mnemonic. FSUB F3, F1, F2, 1 is FNEG F3, F2, 1 and
FADD F3, F1, F3, by hand from R101 and R102. -/
theorem test_assemble_pseudo : assemble "FSUB F3, F1, F2, 1".toList = .ok [0x2E640001, 0x2A626000] ∧
    assemble "FSUB F1, F1, F2, 1".toList = .error .subtractOverwrites ∧
    assemble "FDIV F1, F2".toList = .error .unknownMnemonic := by decide +kernel

/-! ### Small states -/

def pMinus1 : FElem := ⟨⟨0xFFFFEFFFFE56C, 0xFFFFFFFFFFFFF, 0xFFFFFFFFFFFFF, 0xFFFFFFFFFFFFF, 0xFFFF⟩, 1, true⟩
def small (v : Limb) : FElem := ⟨⟨v, 0, 0, 0, 0⟩, 1, true⟩
/-- 2p - 5, the result of R177's example. -/
def minus5 : FElem :=
  ⟨⟨0x1FFFFDFFFFCAD5, 0x1FFFFFFFFFFFFE, 0x1FFFFFFFFFFFFE, 0x1FFFFFFFFFFFFE, 0x1FFFE⟩, 2, false⟩
/-- p - 5, normalized. -/
def minus5Norm : FElem := ⟨⟨0xFFFFEFFFFE568, 0xFFFFFFFFFFFFF, 0xFFFFFFFFFFFFF, 0xFFFFFFFFFFFFF, 0xFFFF⟩, 1, true⟩
def gx : Fp := 0xA1455B33_4DF099DF_30FC28A1_69A467E9_E47075A9_0F7E650E_B6B7A45C
def gy : Fp := 0x7E089FED_7FBA3442_82CAFBD6_F7E319F7_C0B0BD59_E2CA4BDB_556D61A5
def gA : APoint := ⟨gx, gy, false⟩
def gP : PPoint := ⟨gx, gy, 1⟩
/-- DBL(G) (V-P10). -/
def dblG : PPoint :=
  ⟨0xCB996E9C_E5A403DE_C42E4128_4B73442B_157F7E99_5D2B1CEC_74995A7B,
   0xE8BA474B_8A5D7D5C_DB48B99C_478F4FE6_0BC2321E_8901F61F_1798533C,
   0x1F960363_7EBF499F_86BAFC73_01E1D57E_39BA0197_093D2371_8DAD27E0⟩
/-- 2G (V-P10). -/
def twoG : APoint :=
  ⟨0x86C0DEB5_6AEB9712_390999A0_232B9BF5_96B9639F_A1CE8CF4_26749E60,
   0x8F598C95_4E108555_5B474A79_906B855C_539ED633_DBF4A9FA_9F06B69A, false⟩
/-- 3G as a triple (V-P11). -/
def threeG : PPoint :=
  ⟨0x412EBED3_D7EC9322_41FC285E_D2737724_3031C471_7864DE30_78B6C03D,
   0x213C453E_0C2351BC_04C6A9D6_0D609E76_444A65D3_1D6683D1_7824360E,
   0x40E0049D_D81FB791_989003E2_ECD087DB_2488047D_C1AD7605_5D6A9438⟩
/-- 7G as a triple (V-P26). -/
def sevenG : PPoint :=
  ⟨0x8AC094B6_CB83DA9E_12002157_CEC06E93_5FCBB54D_73A2B069_69F93FFA,
   0x3CB845FC_90371119_E0A9607D_F1B9A872_7318257D_7F4F606C_BF9A45B6,
   0x00F6CB6E_C3F659A0_B7BB284F_C2416792_78E0AC57_C0A37341_20FFA693⟩
def nMinus1 : BitVec 256 := 0x1_00000000_00000000_00000000_0001DCE8_D2EC6184_CAF0A971_769FB1F6
/-- 7N - 7 (R245's example). -/
def wide7 : BitVec 512 := 0x7_00000000_00000000_00000000_000D0A5D_C476AAA1_8C94A21A_3E5DDDBA

/-- A register file whose entries are all VALID. -/
def full {α : Type} (v : α) : RegFile α := Vector.replicate 16 ⟨true, v⟩

/-- A running core with every register VALID, a word of IMEM and a byte of DMEM written. -/
def ready : State :=
  { State.reset with
    F := full (small 5)
    S := full 7
    W := full wide7
    A := full gA
    P := full gP
    C := full true
    L := full 3
    busy := true
    imem := [(1023, 0x02000000)]
    dmem := [(4095, 0x5A)] }

/-- What the field tests share: F1 = F2 = p - 1, F3 = p - 5 normalized, F6 = 2p - 5. -/
def fieldReady : State := (((ready.writeF 1 pMinus1).writeF 2 pMinus1).writeF 3 minus5Norm).writeF 6 minus5

/-- What the scalar tests share: S1 = N - 1, S2 = 1, S3 = 7. -/
def scalarReady : State := (ready.writeS 1 nMinus1).writeS 2 1

/-- What the point tests share: A0 = the identity, A1 = A2 = G, P0 = the identity, P2 = G, P5 = DBL(G). -/
def pointReady : State := ((ready.writeA 0 ⟨0, 0, true⟩).writeP 0 ⟨0, 1, 0⟩).writeP 5 dblG

/-- A field register of a magnitude, standing for that number. -/
def ofMag (m : Nat) : FElem := ⟨⟨BitVec.ofNat 64 m, 0, 0, 0, 0⟩, m, false⟩

/-- F1 and F2 of these magnitudes. -/
def mags (m n : Nat) : State := (ready.writeF 1 (ofMag m)).writeF 2 (ofMag n)

/-- `s` with the last 28, 32 or 64 bytes of DMEM written, all ones. -/
def withTop (s : State) (n : Nat) : State := s.storeBytes (4096 - n) (List.replicate n 0xFF)

/-- DMEM bytes of p - 1 at 0x40 (R170's example). -/
def pBytes (last : Byte) : List Byte := List.replicate 23 0xFF ++ [0xFE, 0xFF, 0xFF, 0xE5, last]

/-- The 32 bytes of N - 1 for last = F6, of N for last = F7 (R240's example). -/
def nBytes (last : Byte) : List Byte :=
  [0, 0, 0, 1] ++ List.replicate 13 0 ++ [1, 0xDC, 0xE8, 0xD2, 0xEC, 0x61, 0x84, 0xCA, 0xF0, 0xA9, 0x71, 0x76, 0x9F, 0xB1, last]

/-- A step has a next state, and it passes a check. -/
def passes (r : StepResult) (check : State → Bool) : Bool :=
  match r with
  | .next t => check t
  | .refused _ => false

theorem next_of_passes {r : StepResult} {check : State → Bool} (h : passes r check = true) :
    ∃ t : State, r = .next t ∧ check t = true := by
  cases r with
  | next t => exact ⟨t, rfl, h⟩
  | fault e => cases e
  | refused e => cases h

/-- The step that fetches and runs a word. -/
def runs (s : State) (w : Nat) (check : State → Bool) : Bool := passes (step (s.withFetchWord 32 w)) check

/-- The step that takes one host access. -/
def hosts (s : State) (m : HostMove) (check : State → Bool) : Bool :=
  passes (step { s with env := { s.env with moves := [m] } }) check

/-- A run ended by the exception with this code at word 0, the files as before. -/
def faultsWith (s : State) (w : Nat) (code : BitVec 8) : Bool := runs s w fun t =>
  t.fault && !t.busy && t.cause == code && t.fpc == 0 && t.finstr == BitVec.ofNat 32 w && t.pc == 0 && t.F == s.F && t.C == s.C

/-! ### One step a command -/

theorem test_nop : runs { ready with pc := 7 } 0x02000000 (fun t => t.pc == 8 && t.busy && t.L == ready.L) = true := by
  decide +kernel

theorem test_halt : runs ready 0x04000000 (fun t => !t.busy && t.done && t.pc == 0 && !t.irq) = true := by
  decide +kernel

theorem test_jmp : runs { ready with pc := 3 } 0x0600000A (fun t => t.pc == 10) = true := by
  decide +kernel

theorem test_ldlc : runs ready 0x08400005 (fun t => t.L.get 2 == ⟨true, 5⟩ && t.pc == 1) = true := by
  decide +kernel

theorem test_loop : runs { ready with pc := 9 } 0x0A000004 (fun t => t.L.get 0 == ⟨true, 2⟩ && t.pc == 4) = true := by
  decide +kernel

theorem test_cldi : runs ready 0x10200001 (fun t => t.C.get 1 == ⟨true, true⟩) = true := by
  decide +kernel

theorem test_cnot : runs ready 0x12000000 (fun t => t.C.get 0 == ⟨true, false⟩) = true := by
  decide +kernel

theorem test_cand : runs (ready.writeC 2 false) 0x14624000 (fun t => t.C.get 3 == ⟨true, false⟩) = true := by
  decide +kernel

theorem test_cor : runs (ready.writeC 2 false) 0x16624000 (fun t => t.C.get 3 == ⟨true, true⟩) = true := by
  decide +kernel

theorem test_cxor : runs ready 0x18624000 (fun t => t.C.get 3 == ⟨true, false⟩) = true := by
  decide +kernel

theorem test_fldb : runs (ready.storeBytes 0x40 (pBytes 0x6C)) 0x20200040 (fun t => t.F.get 1 == ⟨true, pMinus1⟩ && t.C.get 0 == ⟨true, true⟩ && t.pc == 1) = true := by
  decide +kernel

theorem test_fldbu : runs (ready.storeBytes 0x40 (pBytes 0x6C)) 0x22400040 (fun t => t.F.get 2 == ⟨true, pMinus1⟩ && t.C == ready.C) = true := by
  decide +kernel

theorem test_fstb : runs fieldReady 0x24060080 (fun t => t.readBytes 0x80 28 == pBytes 0x68 && t.dmem.length == 29) = true := by
  decide +kernel

theorem test_fldi : runs ready 0x26200005 (fun t => t.F.get 1 == ⟨true, ⟨⟨5, 0, 0, 0, 0⟩, 1, true⟩⟩) = true := by
  decide +kernel

theorem test_fmov : runs fieldReady 0x28820000 (fun t => t.F.get 4 == ⟨true, pMinus1⟩) = true := by
  decide +kernel

theorem test_fadd : runs fieldReady 0x2A624000 (fun t => t.F.get 3 ==
    ⟨true, ⟨⟨0x1FFFFDFFFFCAD8, 0x1FFFFFFFFFFFFE, 0x1FFFFFFFFFFFFE, 0x1FFFFFFFFFFFFE, 0x1FFFE⟩, 2, false⟩⟩) = true := by
  decide +kernel

theorem test_fmuls : runs fieldReady 0x2CA20003 (fun t => t.F.get 5 ==
    ⟨true, ⟨⟨0x2FFFFCFFFFB044, 0x2FFFFFFFFFFFFD, 0x2FFFFFFFFFFFFD, 0x2FFFFFFFFFFFFD, 0x2FFFD⟩, 3, false⟩⟩) = true := by
  decide +kernel

theorem test_fneg : runs ready 0x2EC20001 (fun t => t.F.get 6 == ⟨true, minus5⟩) = true := by
  decide +kernel

theorem test_fmul : runs fieldReady 0x30E24000 (fun t => t.F.get 7 == ⟨true, ⟨⟨1, 0, 0, 0, 0⟩, 1, false⟩⟩) = true := by
  decide +kernel

theorem test_fsqr : runs fieldReady 0x33020000 (fun t => t.F.get 8 == ⟨true, ⟨⟨1, 0, 0, 0, 0⟩, 1, false⟩⟩) = true := by
  decide +kernel

theorem test_fnorm : runs fieldReady 0x352C0000 (fun t => t.F.get 9 == ⟨true, minus5Norm⟩) = true := by
  decide +kernel

theorem test_fnormw : runs fieldReady 0x374C0000 (fun t => t.F.get 10 == ⟨true, { minus5Norm with norm := false }⟩) = true := by
  decide +kernel

theorem test_fsel : runs (ready.writeF 2 pMinus1) 0x39624200 (fun t => t.F.get 11 == ⟨true, pMinus1⟩) = true := by
  decide +kernel

theorem test_feq : runs fieldReady 0x3A424000 (fun t => t.C.get 2 == ⟨true, true⟩) = true := by
  decide +kernel

theorem test_fisz : runs ready 0x3C620000 (fun t => t.C.get 3 == ⟨true, false⟩) = true := by
  decide +kernel

theorem test_fisodd : runs (ready.writeC 4 false) 0x3E820000 (fun t => t.C.get 4 == ⟨true, true⟩) = true := by
  decide +kernel

theorem test_finv : runs (ready.writeF 1 (small 2)) 0x41820000 (fun t => t.F.get 12 ==
    ⟨true, ⟨⟨0xFFFFF7FFFF2B7, 0xFFFFFFFFFFFFF, 0xFFFFFFFFFFFFF, 0xFFFFFFFFFFFFF, 0x7FFF⟩, 1, false⟩⟩) = true := by
  decide +kernel

theorem test_fsqrt : runs (ready.writeF 1 (small 4)) 0x43A20A00 (fun t => t.F.get 13 == ⟨true, ⟨⟨2, 0, 0, 0, 0⟩, 1, false⟩⟩ && t.C.get 5 == ⟨true, true⟩) = true := by
  decide +kernel

theorem test_sldb : runs (ready.storeBytes 0x100 (nBytes 0xF6)) 0x60200100 (fun t => t.S.get 1 == ⟨true, nMinus1⟩ && t.C.get 0 == ⟨true, true⟩) = true := by
  decide +kernel

theorem test_sstb : runs scalarReady 0x62040120 (fun t => t.readBytes 0x120 32 == List.replicate 31 0 ++ [1]) = true := by
  decide +kernel

theorem test_sldi : runs (ready.writeS 3 0) 0x64600007 (fun t => t.S.get 3 == ⟨true, 7⟩) = true := by
  decide +kernel

theorem test_smov : runs (ready.writeS 4 0) 0x66860000 (fun t => t.S.get 4 == ⟨true, 7⟩) = true := by
  decide +kernel

theorem test_sadd : runs scalarReady 0x68A26000 (fun t => t.S.get 5 == ⟨true, 6⟩) = true := by
  decide +kernel

theorem test_smulw : runs scalarReady 0x6A226000 (fun t => t.W.get 1 == ⟨true, wide7⟩) = true := by
  decide +kernel

theorem test_sred : runs ready 0x6CC20000 (fun t => t.S.get 6 ==
    ⟨true, 0x1_00000000_00000000_00000000_0001DCE8_D2EC6184_CAF0A971_769FB1F0⟩) = true := by
  decide +kernel

theorem test_wldb : runs (ready.storeBytes 0x200 (List.replicate 64 0xFF)) 0x6E400200 (fun t => t.W.get 2 == ⟨true, BitVec.allOnes 512⟩) = true := by
  decide +kernel

theorem test_seq : runs scalarReady 0x70C26000 (fun t => t.C.get 6 == ⟨true, false⟩) = true := by
  decide +kernel

theorem test_slt : runs scalarReady 0x72E26000 (fun t => t.C.get 7 == ⟨true, false⟩) = true := by
  decide +kernel

theorem test_ssel : runs scalarReady 0x74E26200 (fun t => t.S.get 7 == ⟨true, 7⟩) = true := by
  decide +kernel

theorem test_wstb : runs ready 0x76020240 (fun t => beInt (t.readBytes 0x240 64) == wide7.toNat && t.dmemByte 0x27F == 0xBA && t.dmemByte 0x240 == 0) = true := by
  decide +kernel

theorem test_amk : runs ((ready.writeF 1 (FElem.ofCanonical gx.val)).writeF 2 (FElem.ofCanonical gy.val)) 0x80224000 (fun t => t.A.get 1 == ⟨true, gA⟩) = true := by
  decide +kernel

theorem test_aid : runs ready 0x82000000 (fun t => t.A.get 0 == ⟨true, ⟨0, 0, true⟩⟩) = true := by
  decide +kernel

theorem test_agen : runs (ready.writeA 2 twoG) 0x84400000 (fun t => t.A.get 2 == ⟨true, gA⟩) = true := by
  decide +kernel

theorem test_agetx : runs ready 0x87C40000 (fun t => (t.F.get 14).val.residue == gx.val && (t.F.get 14).val.mag == 1 && (t.F.get 14).val.norm) = true := by
  decide +kernel

theorem test_agety : runs ready 0x89E40000 (fun t => (t.F.get 15).val.residue == gy.val && (t.F.get 15).val.mag == 1 && (t.F.get 15).val.norm) = true := by
  decide +kernel

theorem test_aisid : runs pointReady 0x8B000000 (fun t => t.C.get 8 == ⟨true, true⟩) = true := by
  decide +kernel

theorem test_aeq : runs pointReady 0x8D224000 (fun t => t.C.get 9 == ⟨true, true⟩) = true := by
  decide +kernel

theorem test_asel : runs (pointReady.writeA 2 twoG) 0x8E624200 (fun t => t.A.get 3 == ⟨true, twoG⟩) = true := by
  decide +kernel

theorem test_aonc : runs pointReady 0x91420000 (fun t => t.C.get 10 == ⟨true, true⟩) = true := by
  decide +kernel

theorem test_amov : runs (ready.writeA 2 twoG) 0x92840000 (fun t => t.A.get 4 == ⟨true, twoG⟩) = true := by
  decide +kernel

theorem test_pa2p : runs (pointReady.writeP 1 dblG) 0xA0240000 (fun t => t.P.get 1 == ⟨true, gP⟩) = true := by
  decide +kernel

theorem test_ptoa : runs (ready.writeP 1 dblG) 0xA2A20000 (fun t => t.A.get 5 == ⟨true, twoG⟩) = true := by
  decide +kernel

theorem test_pid : runs ready 0xA4000000 (fun t => t.P.get 0 == ⟨true, ⟨0, 1, 0⟩⟩) = true := by
  decide +kernel

theorem test_pgen : runs (ready.writeP 2 dblG) 0xA6400000 (fun t => t.P.get 2 == ⟨true, gP⟩) = true := by
  decide +kernel

theorem test_pisid : runs pointReady 0xA9600000 (fun t => t.C.get 11 == ⟨true, true⟩) = true := by
  decide +kernel

theorem test_psel : runs (pointReady.writeP 1 dblG) 0xAA624200 (fun t => t.P.get 3 == ⟨true, gP⟩) = true := by
  decide +kernel

theorem test_pmov : runs pointReady 0xAC840000 (fun t => t.P.get 4 == ⟨true, gP⟩) = true := by
  decide +kernel

theorem test_pdbl : runs (pointReady.writeP 5 gP) 0xAEA40000 (fun t => t.P.get 5 == ⟨true, dblG⟩) = true := by
  decide +kernel

theorem test_padd : runs pointReady 0xB0C4A000 (fun t => t.P.get 6 == ⟨true, threeG⟩) = true := by
  decide +kernel

theorem test_pmadd : runs (pointReady.writeP 2 dblG) 0xB2E44000 (fun t => t.P.get 7 == ⟨true, threeG⟩) = true := by
  decide +kernel

theorem test_psmul : runs pointReady 0xB5046000 (fun t => t.P.get 8 == ⟨true, sevenG⟩) = true := by
  decide +kernel

/-! ### Corner cases -/

/-- R135: a counter of 1 ends the loop. -/
theorem test_loop_exits : runs (ready.writeL 0 1) 0x0A000004 (fun t => t.L.get 0 == ⟨true, 0⟩ && t.pc == 1) = true := by decide +kernel

/-- V-C17. -/
theorem test_loop_wraps : runs (ready.writeL 1 0) 0x0A200003 (fun t => t.L.get 1 == ⟨true, 0xFFFF⟩ && t.pc == 3) = true := by decide +kernel

/-- V-F2: an encoding of p. -/
theorem test_fldb_of_p : runs (ready.storeBytes 0x40 (pBytes 0x6D)) 0x20200040 (fun t => t.F.get 1 == ⟨true, small 0⟩ && t.C.get 0 == ⟨true, false⟩) = true := by decide +kernel

/-- V-F6: an encoding of p. -/
theorem test_fldbu_of_p : faultsWith (ready.storeBytes 0 (pBytes 0x6D)) 0x22200000 6 = true := by decide +kernel

/-- V-F15, with 5 in F1. -/
theorem test_fsel_keeps_larger_magnitude : runs ((ready.writeF 2 ⟨⟨0xC, 0, 0, 0, 0⟩, 4, false⟩).writeC 1 false) 0x38624200 (fun t => t.F.get 3 == ⟨true, ⟨⟨5, 0, 0, 0, 0⟩, 4, true⟩⟩) = true := by decide +kernel

/-- V-F21: PL. -/
theorem test_fneg_of_zero : runs (ready.writeF 1 ⟨⟨0, 0, 0, 0, 0⟩, 0, false⟩) 0x2E420000 (fun t => t.F.get 2 ==
      ⟨true, ⟨⟨0xFFFFEFFFFE56D, 0xFFFFFFFFFFFFF, 0xFFFFFFFFFFFFF, 0xFFFFFFFFFFFFF, 0xFFFF⟩, 1, false⟩⟩) = true := by decide +kernel

/-- V-F40. -/
theorem test_finv_of_zero : runs (ready.writeF 1 (small 0)) 0x41820000 (fun t => (t.F.get 12).val.residue == 0) = true := by decide +kernel

/-- V-F50. -/
theorem test_fsqrt_of_nonsquare : runs (ready.writeF 1 (small 2)) 0x43A20A00 (fun t => t.C.get 5 == ⟨true, false⟩ &&
      (t.F.get 13).val.residue == 0xE241D567C2A21450AF554E0678FDC8AFBAF13B6A460A5D97988026D6) = true := by decide +kernel

/-- R162 (log 4): p + 1, the other vector that stands for 1. -/
theorem test_fmul_other_vector : runs { fieldReady with env := { fieldReady.env with redundant := [true] } } 0x30E24000 (fun t =>
      (t.F.get 7).val.residue == 1 && (t.F.get 7).val.limb.l0 == 0xFFFFEFFFFE56E && t.env.redundant == []) = true := by decide +kernel

/-- V-S2. -/
theorem test_sldb_of_n : runs (ready.storeBytes 0x100 (nBytes 0xF7)) 0x60200100 (fun t => t.S.get 1 == ⟨true, 0⟩ && t.C.get 0 == ⟨true, false⟩) = true := by decide +kernel

/-- R349, V-P9: AMK takes (1, 1), AONC says 0. -/
theorem test_amk_off_curve : runs (ready.writeF 1 (small 1)) 0x80222000 (fun t => t.A.get 1 == ⟨true, ⟨1, 1, false⟩⟩) = true ∧
    runs (ready.writeA 1 ⟨1, 1, false⟩) 0x90020000 (fun t => t.C.get 0 == ⟨true, false⟩) = true := by decide +kernel

/-- V-P5. -/
theorem test_aeq_ignores_the_flag : runs (pointReady.writeA 2 ⟨0, 0, true⟩) 0x8C224000 (fun t => t.C.get 1 == ⟨true, false⟩) = true := by decide +kernel

/-- V-P7. -/
theorem test_ptoa_of_identity : runs (ready.writeP 1 ⟨0, 5, 0⟩) 0xA2420000 (fun t => t.A.get 2 == ⟨true, ⟨0, 0, true⟩⟩) = true := by decide +kernel

/-- V-P14: P2 = G, P3 = -G. -/
theorem test_padd_of_opposites : runs (ready.writeP 3 ⟨gx, 0 - gy, 1⟩) 0xB0846000 (fun t => t.P.get 4 ==
      ⟨true, ⟨0, 0xE8BA474B8A5D7D5CDB48B99C478F4FE60BC2321E8901F61F1798533C, 0⟩⟩) = true := by decide +kernel

/-- V-P18. -/
theorem test_pmadd_of_identity : runs (pointReady.writeA 1 ⟨0, 0, true⟩) 0xB2442000 (fun t => t.P.get 2 == ⟨true, gP⟩) = true := by decide +kernel

/-- V-P23. -/
theorem test_psmul_by_zero : runs (pointReady.writeS 3 0) 0xB5046000 (fun t => t.P.get 8 == ⟨true, ⟨0, 1, 0⟩⟩) = true := by decide +kernel

/-! ### Exceptions -/

/-- V-E5, V-E6, V-E19: the last two words are LOOP L3, 0 and FADD F2, F1, F3 after reset. -/
theorem test_daddr_and_uninit : faultsWith ready 0x20200FE5 3 = true ∧ faultsWith State.reset 0x0A600000 4 = true ∧
    faultsWith State.reset 0x2A426000 4 = true := by decide +kernel

/-- V-E9, V-E10, V-E11: FMUL F2, F1, F1 of magnitude 9, FSTB F1, 0 and AMK A1, F1, F2 of operands that are not normalized. -/
theorem test_mag_and_norm : faultsWith (mags 9 1) 0x30422000 5 = true ∧ faultsWith (mags 2 1) 0x24020000 6 = true ∧
    faultsWith (ready.writeF 2 (ofMag 2)) 0x80224000 6 = true := by decide +kernel

/-- V-E13, V-E14: PDBL P2, P1 of (1, 1, 1), PMADD P2, P1, A1 of (1, 1). -/
theorem test_curve : faultsWith (ready.writeP 1 ⟨1, 1, 1⟩) 0xAE420000 7 = true ∧
    faultsWith (ready.writeA 1 ⟨1, 1, false⟩) 0xB2422000 7 = true := by decide +kernel

/-- V-E15 to V-E18: the order of the checks. -/
theorem test_priority : faultsWith State.reset 0x2A426001 1 = true ∧ faultsWith State.reset 0x24020FFA 3 = true ∧
    faultsWith (mags 2 1) 0x24020FFA 3 = true ∧
    faultsWith ((State.reset.writeF 1 (ofMag 9))) 0x30428000 4 = true := by decide +kernel

/-- V-E2: ENTRY = 1024 is beyond IMEM. -/
theorem test_fetch : passes (step { ready with pc := 1024 }) (fun t => t.fault && t.cause == 2 && t.fpc == 1024 && t.finstr == 0) =
    true := by decide +kernel

/-! ### The curve (00_scope.md R10) -/

/-- R10: G is on the default curve and N·G is the identity. -/
theorem test_default_curve : Build.default.wf ∧
    (smul Build.default.b (PPoint.generator Build.default) (BitVec.ofNat 256 Build.default.n)).standsForIdentity Build.default.b := by
  decide +kernel

/-- By hand: (1, 0) on y² = x³ - 1 has order 2, so N·G = G for the odd default N, and the build is not valid. -/
theorem test_order_two_is_not_valid : ¬ validCurve { Build.default with b := 0 - 1, gx := 1, gy := 0 } := by
  intro h
  have hn : ¬ (smul (0 - 1) ⟨1, 0, 1⟩ (BitVec.ofNat 256 Build.default.n)).standsForIdentity (0 - 1) := by decide +kernel
  exact hn h.2.2

/-! ### The host -/

/-- V-H1, V-H2, V-H14. -/
theorem test_read_constants : hosts ready (.read 0 4) (fun t => t.env.busData == 0xEC220100) = true ∧
    hosts ready (.read 4 4) (fun t => t.env.busData == 0x200C0A01) = true ∧
    hosts ready (.read 0x24 4) (fun t => t.env.busData == 0 && !t.herr) = true := by decide +kernel

/-- V-H3. -/
theorem test_read_after_reset : ∀ off ∈ [0x8, 0xC, 0x10, 0x14, 0x18, 0x1C, 0x20],
    hosts { State.reset with env := { State.reset.env with busData := 7 } } (.read off 4) (fun t => t.env.busData == 0) = true := by
  decide +kernel

/-- V-H5: START with IRQ_EN. -/
theorem test_start : hosts { State.reset with entry := 5, fault := true, cause := 3, fpc := 9, finstr := 1 } (.write 8 4 3) (fun t =>
    t.busy && !t.done && !t.fault && t.cause == 0 && t.fpc == 0 && t.finstr == 0 && t.pc == 5 && t.irqEn) = true := by
  decide +kernel

/-- V-H6, V-H7, V-H8, V-H15: refused accesses. -/
theorem test_refused_accesses : hosts ready (.write 8 4 1) (fun t => t.herr && t.busy && t.pc == 0) = true ∧
    hosts ready (.write 0x40000 4 1) (fun t => t.herr && t.imem == ready.imem) = true ∧
    hosts ready (.read 0x80000 4) (fun t => t.herr && t.env.busData == 0) = true ∧
    hosts State.reset (.write 0x80002 4 1) (fun t => t.herr && t.dmem == []) = true ∧
    hosts State.reset (.read 0x80000 2) (fun t => t.herr && t.env.busData == 0) = true := by decide +kernel

/-- V-H9. -/
theorem test_clear_herr : hosts { ready with herr := true } (.write 0xC 4 8) (fun t => !t.herr && t.busy) = true := by
  decide +kernel

/-- V-H10, V-H11: soft reset, during a run and beside START. -/
theorem test_soft_reset : hosts ready (.write 8 4 4) (fun t => !t.busy && t.dmem == ready.dmem && t.imem == ready.imem &&
      !(t.F.get 1).valid && !(t.P.get 15).valid && t.pc == 0) = true ∧
    hosts State.reset (.write 8 4 5) (fun t => !t.busy) = true := by decide +kernel

/-- V-H12, V-H13. -/
theorem test_irq : runs { ready with irqEn := true } 0x04000000 (fun t => t.irq) = true ∧
    hosts { State.reset with irqEn := true, done := true } (.write 0xC 4 2) (fun t => !t.irq) = true ∧
    faultsWith State.reset 0x2A426000 4 = true ∧ runs State.reset 0x2A426000 (fun t => !t.irq && t.fault) = true := by
  decide +kernel

/-- V-H16, V-H17: big-endian lanes. -/
theorem test_dmem_window : hosts (State.reset.storeBytes 0 [0x12, 0x34, 0x56, 0x78]) (.read 0x80000 4) (fun t =>
      t.env.busData == 0x12345678) = true ∧
    hosts State.reset (.write 0x80004 4 0xAABBCCDD) (fun t => t.dmem == [(4, 0xAA), (5, 0xBB), (6, 0xCC), (7, 0xDD)]) = true := by
  decide +kernel

/-- V-H18. -/
theorem test_imem_window : hosts State.reset (.write 0x4000C 4 0x04000000) (fun t => t.imem == [(3, 0x04000000)]) = true ∧
    hosts { State.reset with imem := [(3, 0x04000000)] } (.read 0x4000C 4) (fun t => t.env.busData == 0x04000000) = true := by
  decide +kernel

/-- R52, R50, R59, by hand: ENTRY takes bits 15:0; IRQ_EN takes bit 1 during a run; reserved and read-only offsets ignore writes. -/
theorem test_register_writes : hosts State.reset (.write 0x10 4 0xFFFF0007) (fun t => t.entry == 7) = true ∧
    hosts { State.reset with entry := 7 } (.read 0x10 4) (fun t => t.env.busData == 7 && !t.herr) = true ∧
    hosts ready (.write 8 4 2) (fun t => t.irqEn && t.busy && !t.herr) = true ∧
    hosts ready (.write 0x24 4 1) (fun t => !t.herr && t.busy && t.entry == 0) = true ∧
    hosts { State.reset with cause := 5 } (.write 0x18 4 0) (fun t => !t.herr && t.cause == 5) = true := by decide +kernel

/-- R390, R143: a power-on reset during a run. -/
theorem test_power_on_reset : hosts { ready with irqEn := true, entry := 9 } (.powerOn 7) (fun t => !t.busy && !t.done && !t.fault &&
    !t.irq && t.entry == 0 && t.pc == 0 && !(t.S.get 3).valid && t.dmem == [] && t.imem == [] && t.build == ready.build) = true := by
  decide +kernel

/-- A write of the value a cell already has, and writes out of order, keep the canonical form. -/
theorem test_memory_form : Memory.write (Memory.write (Memory.write ([] : Memory 8) 9 1) 4 2) 9 3 = [(4, 2), (9, 3)] := by
  decide +kernel

/-! ### Witnesses: the hypotheses of each statement met together -/

theorem witness_DecodeOfEncodeIsTheCommand : (Instr.fmuls 15 15 32).wf = true ∧ (Instr.fneg 0 15 31).wf = true ∧
    (Instr.cldi 15 1).wf = true ∧ (Instr.loop 15 0xFFFF).wf = true ∧ (Instr.fsel 15 14 13 12).wf = true := by decide +kernel

theorem witness_EncodeOfDecodeIsTheWord : decode 0x2DFE0020 = .ok (.fmuls 15 15 32) ∧ decode 0x02000000 = .ok .nop := by
  decide +kernel

theorem witness_LegalWordsAreThoseOfTheTable : ∃ r ∈ opcodeTable, ∃ (w : Word) (i : Instr), decode w = .ok i ∧ i.op = r.op ∧
    (w.extractLsb' 0 16).toNat = r.immTop :=
  ⟨opcodeTable[16], List.getElem_mem _, 0x2CA20020, .fmuls 5 1 32, by decide +kernel⟩

/-- Both sides of every boundary of R110's ranges. -/
theorem witness_ReservedOpcodesAreIllegal :
    (∀ n ∈ [0, 6, 7, 0x0D, 0x0F, 0x22, 0x2F, 0x3C, 0x3F, 0x4A, 0x4F, 0x5B, 0x7F], reservedOpcode n = true) ∧
    ∀ n ∈ [1, 5, 8, 0x0C, 0x10, 0x21, 0x30, 0x3B, 0x40, 0x49, 0x50, 0x5A], reservedOpcode n = false := by decide +kernel

/-- The last word of IMEM, with no host access waiting and with the core's turn on the script. -/
def atTop : State := { ready with pc := 1023 }
def scripted (s : State) : State := { s with env := { s.env with moves := [.core, .read 0 4] } }

theorem witness_StepRunsTheDecodedCommand : ∀ s ∈ [atTop, scripted atTop], s.busy = true ∧ coreMoves s ∧
    s.pc.toNat < s.build.imemWords ∧ decode (s.imemWord s.pc.toNat) = .ok .nop := by
  intro s hs
  fin_cases hs
  · exact ⟨rfl, .inl rfl, by decide +kernel⟩
  · exact ⟨rfl, .inr ⟨_, rfl⟩, by decide +kernel⟩

theorem witness_FetchFaultsAndIllegalWordsAreTaken :
    (∃ s : State, s.busy = true ∧ coreMoves s ∧ s.build.imemWords = s.pc.toNat) ∧
    ∃ s : State, s.busy = true ∧ coreMoves s ∧ s.pc.toNat + 1 = s.build.imemWords ∧
      ∀ i, decode (s.imemWord s.pc.toNat) ≠ .ok i := by
  refine ⟨⟨{ ready with pc := 1024 }, rfl, .inl rfl, by decide +kernel⟩,
    { atTop with imem := [(1023, 0x02000001)] }, rfl, .inl rfl, by decide +kernel, ?_⟩
  have h : (decode ((({ atTop with imem := [(1023, 0x02000001)] } : State)).imemWord 1023)).toOption = none := by decide +kernel
  intro i hi
  have : (decode ((({ atTop with imem := [(1023, 0x02000001)] } : State)).imemWord 1023)) = .ok i := hi
  rw [this] at h
  cases h

theorem witness_IdleCoreWaitsForTheHost : State.reset.busy = false ∧ coreMoves State.reset ∧
    ∃ s t : State, s.busy = false ∧ step s = .next t ∧ (t.busy && !s.busy) = true :=
  ⟨rfl, .inl rfl, { State.reset with env := { State.reset.env with moves := [.write 8 4 1] } },
    (next_of_passes (by decide +kernel)).imp fun _ h => ⟨rfl, h⟩⟩

theorem witness_FaultEntryIsPrecise :
    (∃ t : State, exec (.fadd 3 1 2) (mags 16 17) = .next t ∧ (!(mags 16 17).fault && t.fault) = true) ∧
    ∃ t : State, step ((mags 16 17).withFetchWord 32 0x2A624000) = .next t ∧ (t.fault && t.cause == 5) = true :=
  ⟨next_of_passes (by decide +kernel), next_of_passes (by decide +kernel)⟩

theorem witness_UninitializedSourceFaults : inDmem (.fstb 1 4068) ready ∧ sourcesValid (.fstb 1 4068) ready ∧
    inDmem (.fsel 1 2 3 4) State.reset ∧ ¬ sourcesValid (.fsel 1 2 3 4) State.reset ∧ State.reset.fault = false ∧
    ready.fault = false := by decide +kernel

/-- The last address that fits and the first that does not, for each width. -/
theorem witness_DataRangeIsCheckedFirst : ready.fault = false ∧ inDmem (.fldb 1 0 4068) ready ∧ ¬ inDmem (.fldb 1 0 4069) ready ∧
    inDmem (.sstb 1 4064) ready ∧ ¬ inDmem (.sstb 1 4065) ready ∧ inDmem (.wldb 1 4032) ready ∧ ¬ inDmem (.wldb 1 4033) ready ∧
    inDmem .nop ready := by decide +kernel

/-- Each contract at its bound and one above. -/
theorem witness_MagnitudeContractsFault : (mags 16 17).fault = false ∧ (mags 16 17).validAt (.F, 1) = true ∧
    (mags 16 17).validAt (.F, 2) = true ∧
    passes (exec (.fadd 3 1 2) (mags 16 16)) (fun t => t.cause == 0) = true ∧
    passes (exec (.fadd 3 1 2) (mags 16 17)) (fun t => t.cause == 5) = true ∧
    passes (exec (.fmul 3 1 2) (mags 8 8)) (fun t => t.cause == 0) = true ∧
    passes (exec (.fmul 3 1 2) (mags 8 9)) (fun t => t.cause == 5) = true ∧
    passes (exec (.fmul 3 1 2) (mags 9 8)) (fun t => t.cause == 5) = true ∧
    passes (exec (.fmuls 3 1 16) (mags 2 1)) (fun t => t.cause == 0) = true ∧
    passes (exec (.fmuls 3 1 17) (mags 2 1)) (fun t => t.cause == 5) = true ∧
    passes (exec (.fneg 3 1 2) (mags 2 1)) (fun t => t.cause == 0) = true ∧
    passes (exec (.fneg 3 1 1) (mags 2 1)) (fun t => t.cause == 5) = true ∧
    passes (exec (.fsqr 3 1) (mags 8 1)) (fun t => t.cause == 0) = true ∧
    passes (exec (.fsqr 3 1) (mags 9 1)) (fun t => t.cause == 5) = true ∧
    passes (exec (.finv 3 1) (mags 9 1)) (fun t => t.cause == 5) = true ∧
    passes (exec (.fsqrt 3 1 2) (mags 9 1)) (fun t => t.cause == 5) = true := by decide +kernel

theorem witness_NormalizationContractsFault : ready.fault = false ∧ ready.validAt (.F, 1) = true ∧ ready.validAt (.F, 2) = true ∧
    (4068#16).toNat + 28 ≤ ready.build.dmemBytes ∧
    passes (exec (.fstb 1 4068) ready) (fun t => t.cause == 0) = true ∧
    passes (exec (.fstb 1 4068) (mags 1 1)) (fun t => t.cause == 6) = true ∧
    passes (exec (.fisz 3 1) (mags 1 1)) (fun t => t.cause == 6) = true ∧
    passes (exec (.fisodd 3 1) (mags 1 1)) (fun t => t.cause == 6) = true ∧
    passes (exec (.feq 3 1 2) (ready.writeF 2 (ofMag 1))) (fun t => t.cause == 6) = true ∧
    passes (exec (.amk 3 1 2) (ready.writeF 1 (ofMag 1))) (fun t => t.cause == 6) = true ∧
    passes (exec (.fldbu 3 4068) (ready.storeBytes 4068 (pBytes 0x6C))) (fun t => t.cause == 0) = true ∧
    passes (exec (.fldbu 3 4068) (ready.storeBytes 4068 (pBytes 0x6D))) (fun t => t.cause == 6) = true := by decide +kernel

theorem witness_CurveContractFaults : ready.fault = false ∧ ready.validAt (.P, 1) = true ∧ ready.validAt (.P, 2) = true ∧
    ready.validAt (.S, 2) = true ∧ ready.validAt (.A, 2) = true ∧ onP ready.build.b gP ∧ ¬ onP ready.build.b ⟨1, 1, 1⟩ ∧
    ¬ onP ready.build.b ⟨0, 0, 0⟩ ∧ onP ready.build.b ⟨0, 5, 0⟩ ∧ onA ready.build.b gA ∧ onA ready.build.b ⟨0, 0, true⟩ ∧
    ¬ onA ready.build.b ⟨0, 0, false⟩ := by
  unfold onP onEquation onA; decide +kernel

/-- A command with two destinations answers a next state, and an entry is outside them. -/
theorem witness_RegistersOutsideTheDestinationsAreUnchanged :
    (∃ t : State, exec (.fsqrt 13 1 5) (ready.writeF 1 (small 4)) = .next t ∧ (t.pc == 1) = true) ∧
    ((.F, 1) : Entry) ∉ dests (.fsqrt 13 1 5) ∧ ((.C, 13) : Entry) ∉ dests (.fsqrt 13 1 5) :=
  ⟨next_of_passes (by decide +kernel), by decide +kernel, by decide +kernel⟩

/-- A command that completes, HALT, an exception, and a multiplier-class command. -/
theorem witness_ControlStateOutsideTheCommandIsUnchanged :
    (∃ t : State, exec .nop ready = .next t ∧ (t.busy && t.pc == 1) = true) ∧
    (∃ t : State, exec .halt ready = .next t ∧ t.done = true) ∧
    (∃ t : State, exec (.fadd 3 1 2) (mags 32 1) = .next t ∧ t.fault = true) ∧
    ∃ t : State, exec (.fmul 3 1 2) { ready with env := { ready.env with redundant := [true, false] } } = .next t ∧
      (t.env.redundant == [false]) = true :=
  ⟨next_of_passes (by decide +kernel), next_of_passes (by decide +kernel), next_of_passes (by decide +kernel),
    next_of_passes (by decide +kernel)⟩

theorem witness_DataMemoryOutsideTheStoreIsUnchanged :
    (∃ t : State, exec (.fadd 3 1 2) ready = .next t ∧ (t.dmem == ready.dmem) = true) ∧ dataStore (.fadd 3 1 2) = none ∧
    (∃ t : State, exec (.wstb 1 4031) ready = .next t ∧ (t.dmemByte 4095 == 0x5A && t.dmemByte 4094 == 0xBA) = true) ∧
    dataStore (.wstb 1 4031) = some (4031, 64) :=
  ⟨next_of_passes (by decide +kernel), rfl, next_of_passes (by decide +kernel), rfl⟩

/-- At the top of the pc's range. -/
theorem witness_OtherCommandsAdvanceThePc : (Instr.nop.op ≠ .halt ∧ Instr.nop.op ≠ .jmp ∧ Instr.nop.op ≠ .loop) ∧
    ready.fault = false ∧
    ∃ t : State, exec .nop { ready with pc := 0xFFFF } = .next t ∧ (!t.fault && t.pc == 0) = true :=
  ⟨by decide +kernel, rfl, next_of_passes (by decide +kernel)⟩

theorem witness_SequencerCommandsComplete : ({ ready with irqEn := true } : State).irqEn = true := rfl

/-- Counters 0, 1 and 3. -/
theorem witness_LoopDecrementsAndBranches : [0, 1, 3].all (fun v => (ready.writeL 5 v).validAt (.L, 5)) = true := by
  decide +kernel

theorem witness_ChoiceCommandsComplete : ready.validAt (.C, 1) = true ∧ ready.validAt (.C, 2) = true ∧ (1#16).toNat ≤ 1 := by
  decide +kernel

/-- The last address; an encoding of p - 1 and one of p. -/
theorem witness_FieldLoadsDecode : (4068#16).toNat + 28 ≤ ready.build.dmemBytes ∧
    beValue (ready.storeBytes 4068 (pBytes 0x6C)) 4068 28 + 1 = Config.p ∧
    beValue (ready.storeBytes 4068 (pBytes 0x6D)) 4068 28 = Config.p := by decide +kernel

theorem witness_FieldStoreEncodes : (4068#16).toNat + 28 ≤ fieldReady.build.dmemBytes ∧ fieldReady.validAt (.F, 3) = true ∧
    (F fieldReady 3).norm = true ∧ (F fieldReady 3).ok := by decide +kernel

theorem witness_FieldLiteralMoveAndSelect : fieldReady.validAt (.F, 1) = true ∧ fieldReady.validAt (.F, 6) = true ∧
    fieldReady.validAt (.C, 1) = true ∧ (fieldReady.C.get 1).val = true ∧ ((fieldReady.writeC 2 false).C.get 2).val = false ∧
    (fieldReady.writeC 2 false).validAt (.C, 2) = true := by decide +kernel

theorem witness_LimbwiseAddAndScale : (mags 16 16).validAt (.F, 1) = true ∧ (F (mags 16 16) 1).ok ∧
    (mags 16 16).validAt (.F, 2) = true ∧ (F (mags 16 16) 2).ok ∧ (F (mags 16 16) 1).mag + (F (mags 16 16) 2).mag ≤ 32 ∧
    (F (mags 1 1) 1).ok ∧ (F (mags 1 1) 1).mag * (32#16).toNat ≤ 32 := by decide +kernel

theorem witness_NegationIsExact : (mags 31 1).validAt (.F, 1) = true ∧ (F (mags 31 1) 1).ok ∧ (F (mags 31 1) 1).mag ≤ (31#16).toNat ∧
    (F (mags 0 1) 1).ok ∧ (F (mags 0 1) 1).mag ≤ (0#16).toNat := by decide +kernel

theorem witness_MultiplierResultsStandForTheProduct : (mags 8 8).validAt (.F, 1) = true ∧ (mags 8 8).validAt (.F, 2) = true ∧
    (F (mags 8 8) 1).mag ≤ 8 ∧ (F (mags 8 8) 2).mag ≤ 8 := by decide +kernel

theorem witness_SquareRootCandidateAndFlag : (mags 8 1).validAt (.F, 1) = true ∧ (F (mags 8 1) 1).mag ≤ 8 := by decide +kernel

theorem witness_NormalizationIsCanonical : (mags 32 1).validAt (.F, 1) = true := by decide +kernel

theorem witness_FieldPredicatesDecideResidues : fieldReady.validAt (.F, 1) = true ∧ (F fieldReady 1).ok ∧
    (F fieldReady 1).norm = true ∧ fieldReady.validAt (.F, 3) = true ∧ (F fieldReady 3).ok ∧ (F fieldReady 3).norm = true := by
  decide +kernel

theorem witness_FieldRoundTrip : (4068#16).toNat + 28 ≤ ready.build.dmemBytes ∧ (0#16).toNat + 28 ≤ ready.build.dmemBytes ∧
    beValue (ready.storeBytes 4068 (pBytes 0x6C)) 4068 28 < Config.p := by decide +kernel

/-- Magnitude 15 with m = 16, the largest sum allowed. -/
theorem witness_NegationLaw : (1 : Reg) ≠ 2 ∧ (mags 15 1).validAt (.F, 1) = true ∧ (F (mags 15 1) 1).ok ∧
    (F (mags 15 1) 1).mag ≤ (16#16).toNat ∧ (F (mags 15 1) 1).mag + (16#16).toNat + 1 = 32 := by decide +kernel

theorem witness_SubtractionPseudoInstruction : (3 : Reg) ≠ 1 ∧ (mags 15 16).validAt (.F, 1) = true ∧
    (mags 15 16).validAt (.F, 2) = true ∧ (F (mags 15 16) 1).ok ∧ (F (mags 15 16) 2).ok ∧ (F (mags 15 16) 2).mag ≤ (16#16).toNat ∧
    (F (mags 15 16) 1).mag + (16#16).toNat + 1 ≤ 32 := by decide +kernel

theorem witness_ScalarLoadsDecode : ready.build.wf ∧ (4064#16).toNat + 32 ≤ ready.build.dmemBytes ∧
    (4032#16).toNat + 64 ≤ ready.build.dmemBytes ∧ beValue (ready.storeBytes 4064 (nBytes 0xF6)) 4064 32 + 1 = ready.build.n ∧
    beValue (ready.storeBytes 4064 (nBytes 0xF7)) 4064 32 = ready.build.n := by decide +kernel

theorem witness_ScalarStoresEncode : (4064#16).toNat + 32 ≤ ready.build.dmemBytes ∧ ready.validAt (.S, 1) = true ∧
    (4032#16).toNat + 64 ≤ ready.build.dmemBytes ∧ ready.validAt (.W, 1) = true := by decide +kernel

theorem witness_ScalarMovesSelectAndCompare : scalarReady.validAt (.S, 1) = true ∧ scalarReady.validAt (.S, 2) = true ∧
    scalarReady.validAt (.C, 1) = true := by decide +kernel

theorem witness_ScalarArithmeticIsExact : scalarReady.build.wf ∧ scalarReady.validAt (.S, 1) = true ∧
    scalarReady.validAt (.S, 3) = true ∧ scalarReady.validAt (.W, 1) = true := by decide +kernel

theorem witness_CommutativeReduction : scalarReady.build.wf ∧ scalarReady.validAt (.S, 1) = true ∧
    scalarReady.validAt (.S, 1) = true := by decide +kernel

theorem witness_ScalarRoundTrip : ready.build.wf ∧ (4064#16).toNat + 32 ≤ ready.build.dmemBytes ∧
    (0#16).toNat + 32 ≤ ready.build.dmemBytes ∧ beValue (ready.storeBytes 4064 (nBytes 0xF6)) 4064 32 < ready.build.n ∧
    ready.build.n ≤ beValue (ready.storeBytes 4064 (nBytes 0xF7)) 4064 32 := by decide +kernel

theorem witness_CoordinatesInAndOut : fieldReady.validAt (.F, 1) = true ∧ fieldReady.validAt (.F, 3) = true ∧
    (F fieldReady 1).ok ∧ (F fieldReady 3).ok ∧ (F fieldReady 1).norm = true ∧ (F fieldReady 3).norm = true ∧
    fieldReady.validAt (.A, 1) = true := by decide +kernel

theorem witness_PointConstantsMovesAndSelects : pointReady.validAt (.A, 0) = true ∧ pointReady.validAt (.A, 1) = true ∧
    pointReady.validAt (.C, 1) = true ∧ pointReady.validAt (.P, 0) = true ∧ pointReady.validAt (.P, 5) = true := by decide +kernel

theorem witness_PointPredicatesComplete : pointReady.validAt (.A, 0) = true ∧ pointReady.validAt (.A, 1) = true ∧
    pointReady.validAt (.P, 0) = true := by decide +kernel

/-- A finite and an identity operand of each conversion. -/
theorem witness_PointConversions : pointReady.validAt (.A, 0) = true ∧ (pointReady.A.get 0).val.inf = true ∧
    pointReady.validAt (.A, 1) = true ∧ (pointReady.A.get 1).val.inf = false ∧ pointReady.validAt (.P, 0) = true ∧
    (pointReady.P.get 0).val.z = 0 ∧ pointReady.validAt (.P, 5) = true ∧ (pointReady.P.get 5).val.z ≠ 0 := by decide +kernel

theorem witness_DoublingFormula : pointReady.validAt (.P, 5) = true ∧ onP pointReady.build.b (pointReady.P.get 5).val ∧
    onP pointReady.build.b (pointReady.P.get 0).val := by
  unfold onP onEquation; decide +kernel

theorem witness_AdditionFormulas : pointReady.validAt (.P, 2) = true ∧ onP pointReady.build.b (pointReady.P.get 2).val ∧
    pointReady.validAt (.P, 5) = true ∧ onP pointReady.build.b (pointReady.P.get 5).val ∧ pointReady.validAt (.A, 0) = true ∧
    onA pointReady.build.b (pointReady.A.get 0).val ∧ pointReady.validAt (.A, 1) = true ∧
    onA pointReady.build.b (pointReady.A.get 1).val := by
  unfold onP onEquation onA; decide +kernel

/-- The scalars 0 and N - 1. -/
theorem witness_ScalarMultiplicationScansAllBits : (pointReady.writeS 1 nMinus1).validAt (.S, 1) = true ∧
    (pointReady.writeS 2 0).validAt (.S, 2) = true ∧ ((pointReady.writeS 2 0).S.get 2).val = 0 ∧
    pointReady.validAt (.P, 2) = true ∧ onP pointReady.build.b (pointReady.P.get 2).val := by
  unfold onP onEquation; decide +kernel

theorem witness_DoublingKeepsTheCurveEquation : pointReady.validAt (.P, 5) = true ∧
    onP pointReady.build.b (pointReady.P.get 5).val ∧ ∃ t : State, exec (.pdbl 1 5) pointReady = .next t ∧ (t.pc == 1) = true :=
  ⟨by decide +kernel, by unfold onP onEquation; decide +kernel, next_of_passes (by decide +kernel)⟩

/-- An idle core whose last run ended in a fault, with a host access to come. -/
def idleWith (m : HostMove) : State :=
  { ready with busy := false, fault := true, cause := 5, fpc := 3, env := { ready.env with moves := [m] } }
def busyWith (m : HostMove) : State := { ready with herr := true, env := { ready.env with moves := [m] } }

theorem witness_StartBeginsARun : (idleWith (.write (0 + 0x8) 4 3)).env.moves =
      .write ((idleWith (.write (0 + 0x8) 4 3)).build.hostBase + 0x8) 4 3 :: [] ∧
    (idleWith (.write (0 + 0x8) 4 3)).busy = false ∧ (3#32).getLsbD 0 = true ∧ (3#32).getLsbD 2 = false := by decide +kernel

/-- With START in the same write, during a run. -/
theorem witness_SoftResetClearsValidAndControl : registerWrite (busyWith (.write 8 4 5)) 0x8 5 ∧ (5#32).getLsbD 2 = true :=
  ⟨⟨[], rfl⟩, by decide +kernel⟩

/-- The first and last offsets that are the running core's, and the last of the window; the clearing write. -/
theorem witness_RefusedAccessesOnlySetHerr : idleOnlyOffset ready.build 0x10 ∧ idleOnlyOffset ready.build 0x40000 ∧
    idleOnlyOffset ready.build 0x40FFC ∧ idleOnlyOffset ready.build 0x80000 ∧ idleOnlyOffset ready.build 0x80FFC ∧
    ¬ idleOnlyOffset ready.build 0x41000 ∧ ready.busy = true ∧ (1#32).getLsbD 0 = true ∧ (1#32).getLsbD 2 = false ∧
    hosts ready (.read 0xFFFFF 4) (fun t => t.herr) = true ∧ hosts (busyWith (.write 0 4 0)) (.write 0xC 4 8) (fun t => !t.herr) = true ∧
    (busyWith (.write 0 4 0)).herr = true := by
  unfold idleOnlyOffset; decide +kernel

/-- BUSY set by START, BUSY and DONE by HALT, FAULT by an exception, HERR by a refused access, DONE, FAULT and HERR cleared, a
run ended by a power-on reset. -/
theorem witness_StatusBitsChangeOnlyAsTheTableSays :
    (∃ t : State, step (idleWith (.write 8 4 1)) = .next t ∧ (t.busy && !t.fault) = true) ∧
    (∃ t : State, step (ready.withFetchWord 32 0x04000000) = .next t ∧ (!t.busy && t.done) = true) ∧
    (∃ t : State, step (ready.withFetchWord 32 0) = .next t ∧ (!t.busy && t.fault) = true) ∧
    (∃ t : State, step { ready with env := { ready.env with moves := [.read 0x80000 4] } } = .next t ∧ t.herr = true) ∧
    (∃ t : State, step { State.reset with done := true, env := { State.reset.env with moves := [.write 0xC 4 2] } } = .next t ∧
      (!t.done) = true) ∧
    (∃ t : State, step (idleWith (.write 0xC 4 4)) = .next t ∧ (!t.fault) = true) ∧
    (∃ t : State, step (busyWith (.write 0xC 4 8)) = .next t ∧ (!t.herr && t.busy) = true) ∧
    ∃ t : State, step (busyWith (.powerOn 7)) = .next t ∧ (!t.busy && !t.done && !t.fault && !t.herr) = true :=
  ⟨next_of_passes (by decide +kernel), next_of_passes (by decide +kernel), next_of_passes (by decide +kernel), next_of_passes (by decide +kernel), next_of_passes (by decide +kernel),
    next_of_passes (by decide +kernel), next_of_passes (by decide +kernel), next_of_passes (by decide +kernel)⟩

/-- The last word of each window. -/
theorem witness_HostWindowReadsAndWrites : 4 * 1023 < ready.build.dmemBytes ∧ 6 ≤ ready.build.dmemLog2.val ∧
    1023 < ready.build.imemWords ∧ (idleWith (.write 0x80FFC 4 7)).busy = false ∧
    (idleWith (.write 0x80FFC 4 7)).env.moves =
      .write ((idleWith (.write 0x80FFC 4 7)).build.hostBase + 0x80000 + 4 * 1023) 4 7 :: [] ∧
    (idleWith (.read 0x40FFC 4)).env.moves = .read ((idleWith (.read 0x40FFC 4)).build.hostBase + 0x40000 + 4 * 1023) 4 :: [] := by
  decide +kernel

/-- PCR while a run goes on, the last read-only register, and both ends of each reserved range. -/
theorem witness_HostAccessesToTheRegisters : (busyWith (.read 0x14 4)).env.moves =
      .read ((busyWith (.read 0x14 4)).build.hostBase + 0x14) 4 :: [] ∧ (busyWith (.read 0x14 4)).busy = true ∧
    readOnlyOffset 0x20 ∧ ¬ readOnlyOffset 0x24 ∧ reservedOffset ready.build 0x24 ∧ reservedOffset ready.build 0x3FFFC ∧
    ¬ reservedOffset ready.build 0x40FFC ∧ reservedOffset ready.build 0x41000 ∧ reservedOffset ready.build 0x7FFFC ∧
    ¬ reservedOffset ready.build 0x80FFC ∧ reservedOffset ready.build 0x81000 ∧ reservedOffset ready.build 0xFFFFC := by
  unfold readOnlyOffset reservedOffset; decide +kernel

/-- A write of ENTRY while idle, of CTRL with IRQ_EN alone during a run. -/
theorem witness_HostAccessesToTheRegisters_writes : (idleWith (.write 0x10 4 0xFFFF0007)).env.moves =
      .write ((idleWith (.write 0x10 4 0xFFFF0007)).build.hostBase + 0x10) 4 0xFFFF0007 :: [] ∧
    (idleWith (.write 0x10 4 0xFFFF0007)).busy = false ∧ (busyWith (.write 8 4 2)).env.moves =
      .write ((busyWith (.write 8 4 2)).build.hostBase + 0x8) 4 2 :: [] ∧ (2#32).getLsbD 0 = false ∧ (2#32).getLsbD 2 = false := by decide +kernel

/-- A power-on reset during a run. -/
theorem witness_ResetValues : (busyWith (.powerOn 7)).env.moves = .powerOn 7 :: [] ∧ (busyWith (.powerOn 7)).busy = true ∧
    ∃ t : State, step State.reset = .next t ∧ (!t.busy) = true :=
  ⟨rfl, rfl, next_of_passes (by decide +kernel)⟩

/-- A running state with every register VALID and both memories written meets the invariant. -/
theorem witness_EveryStepKeepsTheInvariant : fieldReady.Inv ∧ pointReady.Inv ∧
    ∃ t : State, step atTop = .next t ∧ (t.pc == 1024) = true := by
  refine ⟨?_, ?_, next_of_passes (by decide +kernel)⟩ <;> constructor <;> decide +kernel

/-- Two runs of LOOP L0, 0 on different data, one step in. -/
theorem witness_PcPathIsAFunctionOfTheProgram :
    SameProgram (ready.withFetchWord 32 0x0A000000) (fieldReady.withFetchWord 32 0x0A000000) ∧
    (∃ t : State, Sys2Proof.core.run 3 (ready.withFetchWord 32 0x0A000000) = .next t ∧ (!t.fault) = true) ∧
    ∃ t : State, Sys2Proof.core.run 3 (fieldReady.withFetchWord 32 0x0A000000) = .next t ∧ (!t.fault) = true := by
  refine ⟨⟨rfl, rfl, rfl, rfl, fun i => .inl rfl, rfl, ⟨rfl, rfl⟩, ⟨rfl, rfl⟩⟩, ?_, ?_⟩
  · exact next_of_passes (check := fun t => !t.fault) (by decide +kernel)
  · exact next_of_passes (check := fun t => !t.fault) (by decide +kernel)

theorem witness_BothBuildsRunAlike : ∃ t : State, exec (.fmul 3 1 2) (mags 8 8) = .next t ∧ (!t.fault) = true :=
  next_of_passes (by decide +kernel)

/-- A load whose own bytes agree in two memories that differ elsewhere. -/
theorem witness_CommandsReadOnlyTheirOwnBytes :
    (∀ a, 0x40 ≤ a → a < 0x40 + 28 → (({ ready.storeBytes 0x40 (pBytes 0x6C) with
        dmem := Memory.write (ready.storeBytes 0x40 (pBytes 0x6C)).dmem 0x5C 1 } : State).dmemByte a =
      (ready.storeBytes 0x40 (pBytes 0x6C)).dmemByte a)) ∧
    dataAccess (.fldb 1 0 0x40) = some (0x40, 28) ∧
    ∃ t : State, exec (.fldb 1 0 0x40) (ready.storeBytes 0x40 (pBytes 0x6C)) = .next t ∧ (t.pc == 1) = true := by
  refine ⟨?_, rfl, next_of_passes (by decide +kernel)⟩
  intro a h1 h2
  interval_cases a <;> decide +kernel

end Sys2Proof.Tests
end

section
/-! PROOFS. The values the commands write keep the invariants of their files (10_state.md R31 to R38): one fact a value. -/

namespace Sys2Proof.Machine

open Config (p)

/-! ### Field elements -/

/-- A canonical value below p meets the field invariant (10_state.md R32, R33). -/
theorem FElem.ok_ofCanonical {v : Nat} (h : v < p) : (FElem.ofCanonical v).ok :=
  ⟨by simp [FElem.ofCanonical], bounded_limbs v, fun _ => limbs_eq_canon h⟩

/-- A checked decode (41_field.md R170) gives a value below p: the encoding itself, or 0. -/
theorem checkedField_lt (v : Nat) : (if decide (v < p) = true then v else 0) < p := by
  split
  · next h => exact of_decide_eq_true h
  · exact p_pos

/-- FLDI's contents are those of the canonical value of the literal (41_field.md R173). -/
theorem literalField_eq (literal : Imm) :
    (⟨⟨literal.setWidth 64, 0, 0, 0, 0⟩, 1, true⟩ : FElem) = FElem.ofCanonical literal.toNat := by
  have hl := literal.isLt
  have h0 : (literal.setWidth 64 : Limb) = BitVec.ofNat 64 (literal.toNat % 2 ^ 52) := by
    apply BitVec.eq_of_toNat_eq
    rw [toNat_immLane, BitVec.toNat_ofNat]
    omega
  have hz : ∀ k m : Nat, 2 ^ 16 ≤ k → BitVec.ofNat 64 (literal.toNat / k % m) = 0 := fun k m hk => by
    rw [Nat.div_eq_of_lt (lt_of_lt_of_le hl hk), Nat.zero_mod]; rfl
  rw [FElem.ofCanonical, limbs, h0, hz _ _ (by norm_num), hz _ _ (by norm_num), hz _ _ (by norm_num), hz _ _ (by norm_num)]

theorem FElem.ok_literal (literal : Imm) : (⟨⟨literal.setWidth 64, 0, 0, 0, 0⟩, 1, true⟩ : FElem).ok := by
  rw [literalField_eq]
  exact FElem.ok_ofCanonical (lt_trans literal.isLt (by decide +kernel))

/-- FNORM's contents (41_field.md R180). -/
theorem FElem.ok_canon (v : Nat) : (⟨canon v, 1, true⟩ : FElem).ok :=
  FElem.ok_ofCanonical (Nat.mod_lt v p_pos)

/-- A multiplier-class result, whichever vector is chosen (41_field.md R162). -/
theorem FElem.ok_ofMultiplier (r : Nat) (other : Bool) : (FElem.ofMultiplier r other).ok :=
  ⟨by simp [FElem.ofMultiplier], bounded_multiplierLimbs r other, fun h => Bool.noConfusion h⟩

/-- FADD's contents (41_field.md R175). -/
theorem FElem.ok_add {x y : FElem} (hx : x.ok) (hy : y.ok) (h : x.mag + y.mag ≤ Config.magMax) :
    (⟨Limbs.zip (· + ·) x.limb y.limb, x.mag + y.mag, false⟩ : FElem).ok :=
  ⟨h, (add_lanes hx.2.1 hy.2.1 h).2, fun h => Bool.noConfusion h⟩

/-- FMULS's contents (41_field.md R176). -/
theorem FElem.ok_scale {x : FElem} {k : Imm} (hx : x.ok) (h : x.mag * k.toNat ≤ Config.magMax) :
    (⟨Limbs.map (· * k.setWidth 64) x.limb, x.mag * k.toNat, false⟩ : FElem).ok :=
  ⟨h, (mul_lanes hx.2.1 h).2, fun h => Bool.noConfusion h⟩

/-- FNEG's contents, for an m the decoder admits (41_field.md R177, 30_encoding.md R105). -/
theorem FElem.ok_neg {x : FElem} {m : Imm} (hx : x.ok) (h : x.mag ≤ m.toNat) (hm : m.toNat ≤ 31) :
    (⟨Limbs.zip (fun pl l => (m.setWidth 64 + 1) * pl - l) PL x.limb, m.toNat + 1, false⟩ : FElem).ok := by
  obtain ⟨-, -, -, -, -, -, hb⟩ := neg_lanes hx.2.1 h hm
  exact ⟨Nat.succ_le_succ hm, hb, fun h => Bool.noConfusion h⟩

/-- FSEL's contents: the chosen vector is within the larger of the two magnitudes (41_field.md R182). -/
theorem FElem.ok_select {x y : FElem} (hx : x.ok) (hy : y.ok) (c : Bool) :
    (⟨if c = true then y.limb else x.limb, max x.mag y.mag, if c = true then y.norm else x.norm⟩ : FElem).ok := by
  refine ⟨max_le hx.1 hy.1, ?_⟩
  cases c with
  | false => exact ⟨Limbs.bounded_mono hx.2.1 (le_max_left _ _), hx.2.2⟩
  | true => exact ⟨Limbs.bounded_mono hy.2.1 (le_max_right _ _), hy.2.2⟩

/-! ### Scalars -/

/-- A scalar written from an integer below N holds it, so it is below N (10_state.md R35). -/
theorem scalar_ofNat_lt {b : Build} {v : Nat} (h : v < b.n) : (BitVec.ofNat 256 v).toNat < b.n := by
  rw [BitVec.toNat_ofNat]
  exact lt_of_le_of_lt (Nat.mod_le _ _) h

theorem n_pos_of_wf {b : Build} (hb : b.wf) : 0 < b.n := lt_trans (by norm_num) hb.2.1

/-- A checked decode (42_scalar.md R240) gives a scalar below N. -/
theorem checkedScalar_lt {b : Build} (hb : b.wf) (v : Nat) : (if decide (v < b.n) = true then v else 0) < b.n := by
  split
  · next h => exact of_decide_eq_true h
  · exact n_pos_of_wf hb

/-- SLDI's literal is below N (42_scalar.md R242). -/
theorem literalScalar_lt {b : Build} (hb : b.wf) (literal : Imm) : (literal.setWidth 256).toNat < b.n := by
  rw [BitVec.toNat_setWidth]
  exact lt_of_le_of_lt (Nat.mod_le _ _) (lt_trans (lt_trans literal.isLt (by norm_num)) hb.2.1)

/-! ### Affine points -/

theorem APoint.ok_identity : APoint.identity.ok := fun _ => ⟨rfl, rfl⟩

theorem APoint.ok_finite (x y : Fp) : (⟨x, y, false⟩ : APoint).ok := fun h => Bool.noConfusion h

/-- The inverse of 0 is 0 (43_point.md R291). -/
theorem fpInv_zero : fpInv 0 = 0 := by
  have h : (fpInv 0).val = (0 : Fp).val ^ (p - 2) % p := fpInv_val 0
  have he : p - 2 ≠ 0 := by decide +kernel
  generalize p - 2 = e at h he
  exact Fin.ext (h.trans (by simp [he]))

/-- PTOA of a triple with Z = 0 gives zero coordinates (43_point.md R291, 10_state.md R38). -/
theorem PPoint.ok_toAffine (q : PPoint) : q.toAffine.ok := by
  intro h
  have hz : q.z = 0 := beq_iff_eq.mp h
  simp only [PPoint.toAffine, hz, fpInv_zero]
  exact ⟨Fin.mul_zero _, Fin.mul_zero _⟩

end Sys2Proof.Machine
end

section
/-! PROOFS. What one command can do, said once: it takes an exception of its own, or completes in one of sixteen ways, each a
register write, a store or a change of the sequencer, with what is known of the value written. Every statement about all
commands is a case analysis of `Completes`. -/

namespace Sys2Proof.Machine

open Config (p)
open Claims (multiplierOps)

/-- The exceptions a command raises itself (60_exceptions.md R360); E_FETCH and E_ILLEGAL are raised before it. -/
abbrev Cause.ofCommand (e : Cause) : Prop := e ≠ .illegal ∧ e ≠ .fetch

/-- A command answers a state with P, or takes an exception of its own. -/
def Ends (P : State → Prop) (s : State) (r : StepResult) : Prop :=
  ∀ t, r = .next t → P t ∨ ∃ e : Cause, e.ofCommand ∧ t = takeException e s

/-- The state a completed command leaves. A value written to a file with an invariant meets it, from a state that meets
`State.Inv`. -/
inductive Completes (i : Instr) (s : State) : State → Prop
  | nop : i = .nop → Completes i s s.advance
  | halt : i = .halt → Completes i s s.finish
  | jmp (target : Imm) : i = .jmp target → Completes i s (s.setPc target)
  | loop (d : Reg) (target : Imm) : i = .loop d target → (s.L.get d).valid = true →
      Completes i s (if (s.L.get d).val - 1 = 0 then (s.writeL d ((s.L.get d).val - 1)).advance
        else (s.writeL d ((s.L.get d).val - 1)).setPc target)
  | ldlc (d : Reg) (count : Imm) : i = .ldlc d count → Completes i s (s.writeL d count).advance
  | writeF (d : Reg) (v : FElem) : dests i = [(.F, d)] → (i.wf = true → s.Inv → v.ok) →
      Completes i s (s.writeF d v).advance
  | writeFC (d c : Reg) (v : FElem) (b : Bool) : dests i = [(.F, d), (.C, c)] → v.ok →
      Completes i s ((s.writeF d v).writeC c b).advance
  | multiplier (d : Reg) (r : Nat) : dests i = [(.F, d)] → i.op ∈ multiplierOps →
      Completes i s (s.writeMultiplier d r).advance
  | multiplierC (d c : Reg) (r : Nat) (b : Bool) : dests i = [(.F, d), (.C, c)] → i.op ∈ multiplierOps →
      Completes i s ((s.writeMultiplier d r).writeC c b).advance
  | writeS (d : Reg) (v : BitVec 256) : dests i = [(.S, d)] → (s.Inv → v.toNat < s.build.n) →
      Completes i s (s.writeS d v).advance
  | writeSC (d c : Reg) (v : BitVec 256) (b : Bool) : dests i = [(.S, d), (.C, c)] → (s.Inv → v.toNat < s.build.n) →
      Completes i s ((s.writeS d v).writeC c b).advance
  | writeW (d : Reg) (v : BitVec 512) : dests i = [(.W, d)] → Completes i s (s.writeW d v).advance
  | writeA (d : Reg) (v : APoint) : dests i = [(.A, d)] → (s.Inv → v.ok) → Completes i s (s.writeA d v).advance
  | writeP (d : Reg) (v : PPoint) : dests i = [(.P, d)] → Completes i s (s.writeP d v).advance
  | writeC (d : Reg) (b : Bool) : dests i = [(.C, d)] → Completes i s (s.writeC d b).advance
  | store (addr : Imm) (n v : Nat) : dests i = [] → dataStore i = some (dataAddr addr, n) →
      dataAddr addr + n ≤ s.build.dmemBytes → Completes i s (s.storeInt addr n v).advance

/-! ### Composing the end of a command from its equation -/

section
variable {P : State → Prop} {s : State}

/-- A command ends as its equation (Laws/Meanings.lean) does. -/
theorem Ends.ofEq {r r' : StepResult} (h : r = r') (he : Ends P s r') : Ends P s r := h ▸ he

theorem Ends.done {t : State} (h : P t) : Ends P s (.next t) := fun _ ht => .inl (next_eq_next.mp ht ▸ h)

/-- A precondition that fails is the command's exception; what comes after it may use it. -/
theorem Ends.guard {c : Prop} [Decidable c] {e : Cause} {r : StepResult} (h : c → Ends P s r)
    (he : e.ofCommand := by decide) : Ends P s (if c then r else raised e s) := by
  intro t ht
  split at ht
  · next hc => exact h hc t ht
  · exact .inr ⟨e, he, raised_eq_next.mp ht⟩

end

/-! ### Every command -/

/-- FNEG's immediate, where the decoder admits it (30_encoding.md R105). -/
theorem fneg_imm_le {d a : Reg} {m : Imm} (h : (Instr.fneg d a m).wf = true) : m.toNat ≤ 31 := of_decide_eq_true h

/-- A command completes as `Completes` says, or takes an exception of its own. -/
theorem exec_ends (i : Instr) (s : State) : Ends (Completes i s) s (exec i s) := by
  cases i with
  | nop => exact .ofEq (execNop_eq s) (.done (.nop rfl))
  | halt => exact .ofEq (execHalt_eq s) (.done (.halt rfl))
  | jmp target => exact .ofEq (execJmp_eq s target) (.done (.jmp target rfl))
  | ldlc d count => exact .ofEq (execLdlc_eq s d count) (.done (.ldlc d count rfl))
  | loop d target => exact .ofEq (execLoop_eq s d target) (.guard fun hv => .done (.loop d target rfl hv))
  | cldi d bit => exact .ofEq (execCldi_eq s d bit) (.done (.writeC d _ rfl))
  | cnot d a => exact .ofEq (execCnot_eq s d a) (.guard fun _ => .done (.writeC d _ rfl))
  | cand d a b => exact .ofEq (execCand_eq s d a b) (.guard fun _ => .guard fun _ => .done (.writeC d _ rfl))
  | cor d a b => exact .ofEq (execCor_eq s d a b) (.guard fun _ => .guard fun _ => .done (.writeC d _ rfl))
  | cxor d a b => exact .ofEq (execCxor_eq s d a b) (.guard fun _ => .guard fun _ => .done (.writeC d _ rfl))
  | fldb d a addr =>
    exact .ofEq (execFldb_eq s d a addr) (.guard fun _ =>
      .done (.writeFC d a _ _ rfl (FElem.ok_ofCanonical (checkedField_lt _))))
  | fldbu d addr =>
    exact .ofEq (execFldbu_eq s d addr) (.guard fun _ => .guard fun hv =>
      .done (.writeF d _ rfl fun _ _ => FElem.ok_ofCanonical hv))
  | fstb a addr =>
    exact .ofEq (execFstb_eq s a addr) (.guard fun hr => .guard fun _ => .guard fun _ => .done (.store addr 28 _ rfl rfl hr))
  | fldi d literal => exact .ofEq (execFldi_eq s d literal) (.done (.writeF d _ rfl fun _ _ => FElem.ok_literal literal))
  | fmov d a =>
    exact .ofEq (execFmov_eq s d a) (.guard fun ha => .done (.writeF d _ rfl fun _ h => h.field a ha))
  | fadd d a b =>
    exact .ofEq (execFadd_eq s d a b) (.guard fun ha => .guard fun hb => .guard fun hm =>
      .done (.writeF d _ rfl fun _ h => FElem.ok_add (h.field a ha) (h.field b hb) hm))
  | fmuls d a k =>
    exact .ofEq (execFmuls_eq s d a k) (.guard fun ha => .guard fun hm =>
      .done (.writeF d _ rfl fun _ h => FElem.ok_scale (h.field a ha) hm))
  | fneg d a m =>
    exact .ofEq (execFneg_eq s d a m) (.guard fun ha => .guard fun hm =>
      .done (.writeF d _ rfl fun hw h => FElem.ok_neg (h.field a ha) hm (fneg_imm_le hw)))
  | fmul d a b =>
    exact .ofEq (execFmul_eq s d a b) (.guard fun _ => .guard fun _ => .guard fun _ => .guard fun _ =>
      .done (.multiplier d _ rfl (show Op.fmul ∈ multiplierOps by decide)))
  | fsqr d a =>
    exact .ofEq (execFsqr_eq s d a) (.guard fun _ => .guard fun _ =>
      .done (.multiplier d _ rfl (show Op.fsqr ∈ multiplierOps by decide)))
  | fnorm d a => exact .ofEq (execFnorm_eq s d a) (.guard fun _ => .done (.writeF d _ rfl fun _ _ => FElem.ok_canon _))
  | fnormw d a =>
    exact .ofEq (execFnormw_eq s d a) (.guard fun _ =>
      .done (.multiplier d _ rfl (show Op.fnormw ∈ multiplierOps by decide)))
  | fsel d a b c =>
    exact .ofEq (execFsel_eq s d a b c) (.guard fun ha => .guard fun hb => .guard fun _ =>
      .done (.writeF d _ rfl fun _ h => FElem.ok_select (h.field a ha) (h.field b hb) _))
  | feq d a b =>
    exact .ofEq (execFeq_eq s d a b) (.guard fun _ => .guard fun _ => .guard fun _ => .guard fun _ =>
      .done (.writeC d _ rfl))
  | fisz d a => exact .ofEq (execFisz_eq s d a) (.guard fun _ => .guard fun _ => .done (.writeC d _ rfl))
  | fisodd d a => exact .ofEq (execFisodd_eq s d a) (.guard fun _ => .guard fun _ => .done (.writeC d _ rfl))
  | finv d a =>
    exact .ofEq (execFinv_eq s d a) (.guard fun _ => .guard fun _ =>
      .done (.multiplier d _ rfl (show Op.finv ∈ multiplierOps by decide)))
  | fsqrt d a c =>
    exact .ofEq (execFsqrt_eq s d a c) (.guard fun _ => .guard fun _ =>
      .done (.multiplierC d c _ _ rfl (show Op.fsqrt ∈ multiplierOps by decide)))
  | sldb d a addr =>
    exact .ofEq (execSldb_eq s d a addr) (.guard fun _ =>
      .done (.writeSC d a _ _ rfl fun h => scalar_ofNat_lt (checkedScalar_lt h.build _)))
  | sstb a addr =>
    exact .ofEq (execSstb_eq s a addr) (.guard fun hr => .guard fun _ => .done (.store addr 32 _ rfl rfl hr))
  | sldi d literal =>
    exact .ofEq (execSldi_eq s d literal) (.done (.writeS d _ rfl fun h => literalScalar_lt h.build literal))
  | smov d a => exact .ofEq (execSmov_eq s d a) (.guard fun ha => .done (.writeS d _ rfl fun h => h.scalar a ha))
  | sadd d a b =>
    exact .ofEq (execSadd_eq s d a b) (.guard fun _ => .guard fun _ =>
      .done (.writeS d _ rfl fun h => scalar_ofNat_lt (Nat.mod_lt _ (n_pos_of_wf h.build))))
  | smulw d a b => exact .ofEq (execSmulw_eq s d a b) (.guard fun _ => .guard fun _ => .done (.writeW d _ rfl))
  | sred d a =>
    exact .ofEq (execSred_eq s d a) (.guard fun _ =>
      .done (.writeS d _ rfl fun h => scalar_ofNat_lt (Nat.mod_lt _ (n_pos_of_wf h.build))))
  | wldb d addr => exact .ofEq (execWldb_eq s d addr) (.guard fun _ => .done (.writeW d _ rfl))
  | wstb a addr =>
    exact .ofEq (execWstb_eq s a addr) (.guard fun hr => .guard fun _ => .done (.store addr 64 _ rfl rfl hr))
  | seq d a b => exact .ofEq (execSeq_eq s d a b) (.guard fun _ => .guard fun _ => .done (.writeC d _ rfl))
  | slt d a b => exact .ofEq (execSlt_eq s d a b) (.guard fun _ => .guard fun _ => .done (.writeC d _ rfl))
  | ssel d a b c =>
    exact .ofEq (execSsel_eq s d a b c) (.guard fun ha => .guard fun hb => .guard fun _ =>
      .done (.writeS d _ rfl fun h => by split; exacts [h.scalar b hb, h.scalar a ha]))
  | amk d a b =>
    exact .ofEq (execAmk_eq s d a b) (.guard fun _ => .guard fun _ => .guard fun _ => .guard fun _ =>
      .done (.writeA d _ rfl fun _ => APoint.ok_finite _ _))
  | aid d => exact .ofEq (execAid_eq s d) (.done (.writeA d _ rfl fun _ => APoint.ok_identity))
  | agen d => exact .ofEq (execAgen_eq s d) (.done (.writeA d _ rfl fun _ => APoint.ok_finite _ _))
  | agetx d a =>
    exact .ofEq (execAgetx_eq s d a) (.guard fun _ =>
      .done (.writeF d _ rfl fun _ _ => FElem.ok_ofCanonical (s.A.get a).val.x.isLt))
  | agety d a =>
    exact .ofEq (execAgety_eq s d a) (.guard fun _ =>
      .done (.writeF d _ rfl fun _ _ => FElem.ok_ofCanonical (s.A.get a).val.y.isLt))
  | aisid d a => exact .ofEq (execAisid_eq s d a) (.guard fun _ => .done (.writeC d _ rfl))
  | aeq d a b => exact .ofEq (execAeq_eq s d a b) (.guard fun _ => .guard fun _ => .done (.writeC d _ rfl))
  | asel d a b c =>
    exact .ofEq (execAsel_eq s d a b c) (.guard fun ha => .guard fun hb => .guard fun _ =>
      .done (.writeA d _ rfl fun h => by split; exacts [h.affine b hb, h.affine a ha]))
  | aonc d a => exact .ofEq (execAonc_eq s d a) (.guard fun _ => .done (.writeC d _ rfl))
  | amov d a => exact .ofEq (execAmov_eq s d a) (.guard fun ha => .done (.writeA d _ rfl fun h => h.affine a ha))
  | pa2p d a => exact .ofEq (execPa2p_eq s d a) (.guard fun _ => .done (.writeP d _ rfl))
  | ptoa d a =>
    exact .ofEq (execPtoa_eq s d a) (.guard fun _ => .done (.writeA d _ rfl fun _ => PPoint.ok_toAffine _))
  | pid d => exact .ofEq (execPid_eq s d) (.done (.writeP d _ rfl))
  | pgen d => exact .ofEq (execPgen_eq s d) (.done (.writeP d _ rfl))
  | pisid d a => exact .ofEq (execPisid_eq s d a) (.guard fun _ => .done (.writeC d _ rfl))
  | psel d a b c =>
    exact .ofEq (execPsel_eq s d a b c) (.guard fun _ => .guard fun _ => .guard fun _ => .done (.writeP d _ rfl))
  | pmov d a => exact .ofEq (execPmov_eq s d a) (.guard fun _ => .done (.writeP d _ rfl))
  | pdbl d a => exact .ofEq (execPdbl_eq s d a) (.guard fun _ => .guard fun _ => .done (.writeP d _ rfl))
  | padd d a b =>
    exact .ofEq (execPadd_eq s d a b) (.guard fun _ => .guard fun _ => .guard fun _ => .guard fun _ =>
      .done (.writeP d _ rfl))
  | pmadd d a b =>
    exact .ofEq (execPmadd_eq s d a b) (.guard fun _ => .guard fun _ => .guard fun _ => .guard fun _ =>
      .done (.writeP d _ rfl))
  | psmul d a b =>
    exact .ofEq (execPsmul_eq s d a b) (.guard fun _ => .guard fun _ => .guard fun _ => .done (.writeP d _ rfl))

/-- What a command that answers a next state did. -/
theorem exec_cases {i : Instr} {s t : State} (h : exec i s = .next t) :
    Completes i s t ∨ ∃ e : Cause, e.ofCommand ∧ t = takeException e s := exec_ends i s t h

end Sys2Proof.Machine
end

section
/-! PROOFS. What every command leaves unchanged: the entries outside its destinations, the control state, and, but for the
sequencer's commands, pc + 1. -/

namespace Sys2Proof.Machine

open Claims (multiplierOps usedChoice faulted)

/-! ### Entries of the register files -/

section
variable {s t : State} {e : Entry}

theorem State.sameAt_of_sameFiles (h : s.sameFiles t) (e : Entry) : s.sameAt t e := by
  obtain ⟨hF, hS, hW, hA, hP, hC, hL⟩ := h
  obtain ⟨f, i⟩ := e
  cases f
  case F => exact congrArg (·.get i) hF
  case S => exact congrArg (·.get i) hS
  case W => exact congrArg (·.get i) hW
  case A => exact congrArg (·.get i) hA
  case P => exact congrArg (·.get i) hP
  case C => exact congrArg (·.get i) hC
  case L => exact congrArg (·.get i) hL

theorem State.sameAt_refl (s : State) (e : Entry) : s.sameAt s e :=
  State.sameAt_of_sameFiles ⟨rfl, rfl, rfl, rfl, rfl, rfl, rfl⟩ e

theorem State.sameAt.trans {u : State} (h : s.sameAt t e) (h' : t.sameAt u e) : s.sameAt u e := by
  obtain ⟨f, i⟩ := e
  cases f <;> exact Eq.trans h h'

/-- pc is no entry. -/
theorem State.sameAt.advance (h : s.sameAt t e) : s.sameAt t.advance e :=
  h.trans (State.sameAt_of_sameFiles ⟨rfl, rfl, rfl, rfl, rfl, rfl, rfl⟩ e)

theorem State.sameAt.setPc (h : s.sameAt t e) (target : Imm) : s.sameAt (t.setPc target) e :=
  h.trans (State.sameAt_of_sameFiles ⟨rfl, rfl, rfl, rfl, rfl, rfl, rfl⟩ e)

/-- A write of an entry of a file leaves the file's other entries. -/
theorem RegFile.get_write_of_ne {α : Type} {f : File} {d i : Reg} (r : RegFile α) (v : α)
    (h : ((f, i) : Entry) ≠ (f, d)) : r.get i = (r.write d v).get i :=
  (RegFile.get_write_other r v fun hd => h (by rw [hd])).symm

theorem State.sameAt_writeF {d : Reg} (v : FElem) (h : e ≠ (.F, d)) : s.sameAt (s.writeF d v) e := by
  obtain ⟨f, i⟩ := e
  cases f
  case F => exact RegFile.get_write_of_ne s.F v h
  all_goals exact rfl

theorem State.sameAt_writeS {d : Reg} (v : BitVec 256) (h : e ≠ (.S, d)) : s.sameAt (s.writeS d v) e := by
  obtain ⟨f, i⟩ := e
  cases f
  case S => exact RegFile.get_write_of_ne s.S v h
  all_goals exact rfl

theorem State.sameAt_writeW {d : Reg} (v : BitVec 512) (h : e ≠ (.W, d)) : s.sameAt (s.writeW d v) e := by
  obtain ⟨f, i⟩ := e
  cases f
  case W => exact RegFile.get_write_of_ne s.W v h
  all_goals exact rfl

theorem State.sameAt_writeA {d : Reg} (v : APoint) (h : e ≠ (.A, d)) : s.sameAt (s.writeA d v) e := by
  obtain ⟨f, i⟩ := e
  cases f
  case A => exact RegFile.get_write_of_ne s.A v h
  all_goals exact rfl

theorem State.sameAt_writeP {d : Reg} (v : PPoint) (h : e ≠ (.P, d)) : s.sameAt (s.writeP d v) e := by
  obtain ⟨f, i⟩ := e
  cases f
  case P => exact RegFile.get_write_of_ne s.P v h
  all_goals exact rfl

theorem State.sameAt_writeC {d : Reg} (v : Bool) (h : e ≠ (.C, d)) : s.sameAt (s.writeC d v) e := by
  obtain ⟨f, i⟩ := e
  cases f
  case C => exact RegFile.get_write_of_ne s.C v h
  all_goals exact rfl

theorem State.sameAt_writeL {d : Reg} (v : BitVec 16) (h : e ≠ (.L, d)) : s.sameAt (s.writeL d v) e := by
  obtain ⟨f, i⟩ := e
  cases f
  case L => exact RegFile.get_write_of_ne s.L v h
  all_goals exact rfl

theorem State.sameAt_writeMultiplier {d : Reg} (r : Nat) (h : e ≠ (.F, d)) : s.sameAt (s.writeMultiplier d r) e :=
  (State.sameAt_writeF _ h).trans (State.sameAt_of_sameFiles ⟨rfl, rfl, rfl, rfl, rfl, rfl, rfl⟩ e)

/-- A completed command leaves the entries outside its destinations. -/
theorem Completes.sameAt {i : Instr} (h : Completes i s t) (he : e ∉ dests i) : s.sameAt t e := by
  cases h with
  | nop hi => exact (State.sameAt_refl s e).advance
  | halt hi => exact State.sameAt_of_sameFiles ⟨rfl, rfl, rfl, rfl, rfl, rfl, rfl⟩ e
  | jmp target hi => exact (State.sameAt_refl s e).setPc target
  | ldlc d count hi =>
    subst hi
    exact (State.sameAt_writeL count (List.ne_of_not_mem_cons he)).advance
  | loop d target hi hv =>
    subst hi
    have hw := State.sameAt_writeL (s := s) ((s.L.get d).val - 1) (List.ne_of_not_mem_cons he)
    split
    · exact hw.advance
    · exact hw.setPc target
  | writeF d v hd => exact (State.sameAt_writeF v (List.ne_of_not_mem_cons (hd ▸ he))).advance
  | writeFC d c v b hd =>
    obtain ⟨h1, h2⟩ := List.ne_and_not_mem_of_not_mem_cons (hd ▸ he)
    exact ((State.sameAt_writeF v h1).trans (State.sameAt_writeC b (List.ne_of_not_mem_cons h2))).advance
  | multiplier d r hd => exact (State.sameAt_writeMultiplier r (List.ne_of_not_mem_cons (hd ▸ he))).advance
  | multiplierC d c r b hd =>
    obtain ⟨h1, h2⟩ := List.ne_and_not_mem_of_not_mem_cons (hd ▸ he)
    exact ((State.sameAt_writeMultiplier r h1).trans (State.sameAt_writeC b (List.ne_of_not_mem_cons h2))).advance
  | writeS d v hd => exact (State.sameAt_writeS v (List.ne_of_not_mem_cons (hd ▸ he))).advance
  | writeSC d c v b hd =>
    obtain ⟨h1, h2⟩ := List.ne_and_not_mem_of_not_mem_cons (hd ▸ he)
    exact ((State.sameAt_writeS v h1).trans (State.sameAt_writeC b (List.ne_of_not_mem_cons h2))).advance
  | writeW d v hd => exact (State.sameAt_writeW v (List.ne_of_not_mem_cons (hd ▸ he))).advance
  | writeA d v hd => exact (State.sameAt_writeA v (List.ne_of_not_mem_cons (hd ▸ he))).advance
  | writeP d v hd => exact (State.sameAt_writeP v (List.ne_of_not_mem_cons (hd ▸ he))).advance
  | writeC d b hd => exact (State.sameAt_writeC b (List.ne_of_not_mem_cons (hd ▸ he))).advance
  | store addr n v => exact State.sameAt_of_sameFiles ⟨rfl, rfl, rfl, rfl, rfl, rfl, rfl⟩ e

end

/-- Settles O16: by the ways a command ends; a taken exception keeps all seven files. -/
theorem registersOutsideTheDestinationsAreUnchanged : Obligations.RegistersOutsideTheDestinationsAreUnchanged := by
  intro i s t h e he
  rcases exec_cases h with hc | ⟨c, -, rfl⟩
  · exact hc.sameAt he
  · exact State.sameAt_of_sameFiles (takeException_sameFiles c s) e

/-! ### Control state -/

/-- The build, IMEM and the control registers no command writes (10_state.md R61, 20_memory.md R71). -/
structure State.SameSetup (s t : State) : Prop where
  build : t.build = s.build
  imem : t.imem = s.imem
  entry : t.entry = s.entry
  irqEn : t.irqEn = s.irqEn
  herr : t.herr = s.herr

/-- STATUS and the fault record (10_state.md R51, R54, R55, R58), HERR apart. -/
structure State.SameStatus (s t : State) : Prop where
  busy : t.busy = s.busy
  done : t.done = s.done
  fault : t.fault = s.fault
  cause : t.cause = s.cause
  fpc : t.fpc = s.fpc
  finstr : t.finstr = s.finstr

section
variable {i : Instr} {s t : State}

theorem Completes.sameSetup (h : Completes i s t) : s.SameSetup t := by
  cases h
  case loop => split <;> exact ⟨rfl, rfl, rfl, rfl, rfl⟩
  all_goals exact ⟨rfl, rfl, rfl, rfl, rfl⟩

/-- Only a multiplier-class command uses up a bit of the script of R162's choice (log 4). -/
theorem Completes.env (h : Completes i s t) : t.env = s.env ∨ (i.op ∈ multiplierOps ∧ t.env = usedChoice s) := by
  cases h
  case multiplier hm => exact .inr ⟨hm, rfl⟩
  case multiplierC hm => exact .inr ⟨hm, rfl⟩
  case loop => left; split <;> rfl
  all_goals exact .inl rfl

/-- A completed command other than HALT leaves STATUS and the fault record. -/
theorem Completes.sameStatus (h : Completes i s t) (hi : i ≠ .halt) : s.SameStatus t := by
  cases h
  case halt hi' => exact absurd hi' hi
  case loop => split <;> exact ⟨rfl, rfl, rfl, rfl, rfl, rfl⟩
  all_goals exact ⟨rfl, rfl, rfl, rfl, rfl, rfl⟩

/-- What a completed command does to pc, BUSY and the loop counters: HALT, JMP, LDLC and LOOP each in one way, every other
command by advancing pc (40_control.md R131 to R135). -/
def SequencerEffect (s t : State) : Instr → Prop
  | .halt => t = s.finish
  | .jmp target => t = s.setPc target
  | .ldlc d count => t = (s.writeL d count).advance
  | .loop d target => (s.L.get d).valid = true ∧
      t = if (s.L.get d).val - 1 = 0 then (s.writeL d ((s.L.get d).val - 1)).advance
        else (s.writeL d ((s.L.get d).val - 1)).setPc target
  | _ => t.pc = s.pc + 1 ∧ t.L = s.L ∧ t.busy = s.busy

/-- A command with a destination outside L is none of the four of the sequencer. -/
theorem SequencerEffect.ofDests (h0 : dests i ≠ []) (hL : ∀ d, dests i ≠ [(.L, d)])
    (h : t.pc = s.pc + 1 ∧ t.L = s.L ∧ t.busy = s.busy) : SequencerEffect s t i := by
  cases i with
  | halt | jmp => exact absurd rfl h0
  | ldlc d | loop d => exact absurd rfl (hL d)
  | _ => exact h

theorem Completes.sequencerEffect (h : Completes i s t) : SequencerEffect s t i := by
  cases h with
  | nop hi => exact hi ▸ ⟨rfl, rfl, rfl⟩
  | halt hi => exact hi ▸ rfl
  | jmp target hi => exact hi ▸ rfl
  | ldlc d count hi => exact hi ▸ rfl
  | loop d target hi hv => exact hi ▸ ⟨hv, rfl⟩
  | writeF _ _ hd | writeFC _ _ _ _ hd | multiplier _ _ hd | multiplierC _ _ _ _ hd | writeS _ _ hd
  | writeSC _ _ _ _ hd | writeW _ _ hd | writeA _ _ hd | writeP _ _ hd | writeC _ _ hd =>
    exact .ofDests (by simp [hd]) (by simp [hd]) ⟨rfl, rfl, rfl⟩
  | store _ _ _ _ hs =>
    cases i with
    | halt | jmp | ldlc | loop => cases hs
    | _ => exact ⟨rfl, rfl, rfl⟩

/-- HALT writes BUSY 0 and DONE 1 and nothing else (40_control.md R132). -/
theorem Completes.eq_finish (h : Completes .halt s t) : t = s.finish := h.sequencerEffect

/-- A command's own exception is E_FETCH in no case, so it records the faulting word (60_exceptions.md R350). -/
theorem takeException_eq_faulted {e : Cause} (he : e.ofCommand) (s : State) : takeException e s = faulted s e.code := by
  rw [takeException, if_neg he.2]

/-- A completed command other than the three that jump advances pc (10_state.md R45). -/
theorem Completes.pc (h : Completes i s t) (hi : i.op ≠ .halt ∧ i.op ≠ .jmp ∧ i.op ≠ .loop) : t.pc = s.pc + 1 := by
  obtain ⟨hh, hj, hl⟩ := hi
  cases h with
  | halt hi => exact absurd (congrArg Instr.op hi) hh
  | jmp _ hi => exact absurd (congrArg Instr.op hi) hj
  | loop _ _ hi => exact absurd (congrArg Instr.op hi) hl
  | _ => rfl

end

/-- Settles O17: by the ways a command ends, HALT apart. -/
theorem controlStateOutsideTheCommandIsUnchanged : Obligations.ControlStateOutsideTheCommandIsUnchanged := by
  intro i s t h
  rcases exec_cases h with hc | ⟨e, he, rfl⟩
  · obtain ⟨hb, hm, hy, hq, hr⟩ := hc.sameSetup
    refine ⟨hb, hm, hy, hq, hr, hc.env, ?_⟩
    by_cases hi : i = .halt
    · subst hi
      exact .inr (.inl ⟨rfl, hc.eq_finish⟩)
    · obtain ⟨h1, h2, h3, h4, h5, h6⟩ := hc.sameStatus hi
      exact .inl ⟨hi, h1, h2, h3, h4, h5, h6⟩
  · exact ⟨rfl, rfl, rfl, rfl, rfl, .inl rfl, .inr (.inr ⟨e.code, takeException_eq_faulted he s⟩)⟩

/-- Settles O19: a command that leaves FAULT 0 completed, and then pc is one more, mod 2^16. -/
theorem otherCommandsAdvanceThePc : Obligations.OtherCommandsAdvanceThePc := by
  intro i s t h hi _ hf
  rcases exec_cases h with hc | ⟨e, -, rfl⟩
  · have hpc := hc.pc hi
    exact ⟨hpc, by rw [hpc, BitVec.toNat_add]; rfl⟩
  · cases hf

end Sys2Proof.Machine
end

section
/-! PROOFS. What one step can do, said once: a turn of the core, by what it fetched, and a host access, by what it reaches. -/

namespace Sys2Proof.Machine

open Claims (coreMoves)

/-! ### A turn of the core -/

/-- The decoder admits no immediate outside its range (30_encoding.md R105). -/
theorem wf_build {op : Op} {f : Fields} (h : op.sig.immOk f = true) : (op.build f).wf = true := by
  cases op
  case cldi | fmuls | fneg => exact h
  all_goals rfl

/-- A word that decodes gives a well-formed command (30_encoding.md R106). -/
theorem wf_of_decode {w : Word} {i : Instr} (h : decode w = .ok i) : i.wf = true := by
  unfold decode at h
  split at h
  · cases h
  · dsimp only at h
    split_ifs at h with h1 h2
    cases h
    exact wf_build (by simpa using h2)

theorem decodeOrIllegal_eq_ok {w : Word} {i : Instr} : decodeOrIllegal w = .ok i ↔ decode w = .ok i := by
  unfold decodeOrIllegal
  split <;> simp_all

/-- The core's turn is at the head of the script, or the script is empty: either way the turn is off the script and the core
has it. -/
theorem step_of_coreMoves {s : State} (h : coreMoves s) : step s = s.dropMove.coreTurn := by
  rcases h with h | ⟨rest, h⟩
  · have hd : s.dropMove = s := by
      unfold State.dropMove
      rw [h, List.tail_nil, ← h]
    rw [step_noMoves h, hd]
  · exact step_core h

/-- What a core's turn from `s` left: an idle core keeps its state; a running one took an exception, of the fetch, the
decoder or the command, or completed the command at pc. `s.noteReached` is `s` but for the model's own list of pcs. -/
inductive CoreTurn (s : State) : State → Prop
  | idle : s.busy = false → CoreTurn s s
  | exception (e : Cause) : s.busy = true → CoreTurn s (takeException e s.noteReached)
  | command (i : Instr) {t : State} : s.busy = true → decode (s.imemWord s.pc.toNat) = .ok i →
      Completes i s.noteReached t → CoreTurn s t

theorem coreTurn_cases {s t : State} (h : s.coreTurn = .next t) : CoreTurn s t := by
  unfold State.coreTurn at h
  split at h
  · next hb =>
    unfold State.runCommand at h
    split at h
    · exact next_eq_next.mp h ▸ .exception _ hb
    · next w hw =>
      have hword : w = s.imemWord s.pc.toNat := by
        unfold State.fetch at hw
        split at hw
        · cases hw
        · cases hw
          simp
      split at h
      · exact next_eq_next.mp h ▸ .exception _ hb
      · next i hi =>
        rcases exec_cases h with hc | ⟨e, -, rfl⟩
        · exact .command i hb (hword ▸ decodeOrIllegal_eq_ok.mp hi) hc
        · exact .exception e hb
  · next hb =>
    obtain rfl := next_eq_next.mp h
    exact .idle (Bool.eq_false_iff.mpr hb)

/-- What one step did: the core had the turn, the host read or wrote, or power-on reset came (log 6). -/
theorem step_turns {s t : State} (h : step s = .next t) :
    (coreMoves s ∧ CoreTurn s.dropMove t) ∨
    (∃ addr bytes rest, s.env.moves = .read addr bytes :: rest ∧ t = s.dropMove.hostRead addr bytes) ∨
    (∃ addr bytes d rest, s.env.moves = .write addr bytes d :: rest ∧ t = s.dropMove.hostWrite addr bytes d) ∨
    ∃ draw rest, s.env.moves = .powerOn draw :: rest ∧ t = s.dropMove.powerOnReset draw := by
  rcases step_cases h with ⟨hm, -⟩ | ⟨rest, hm, hc⟩ | hr | hw | hp
  · exact .inl ⟨.inl hm, coreTurn_cases (step_of_coreMoves (.inl hm) ▸ h)⟩
  · exact .inl ⟨.inr ⟨rest, hm⟩, coreTurn_cases hc⟩
  · exact .inr (.inl hr)
  · exact .inr (.inr (.inl hw))
  · exact .inr (.inr (.inr hp))

/-! ### Host accesses -/

/-- Where a target of the host window lies (20_memory.md R82, 10_state.md R49). -/
def Target.LiesAt (b : Build) (off : Nat) : Target → Prop
  | .id => off = 0x0
  | .config => off = 0x4
  | .ctrl => off = 0x8
  | .status => off = 0xC
  | .entry => off = 0x10
  | .pcr => off = 0x14
  | .cause => off = 0x18
  | .fpc => off = 0x1C
  | .finstr => off = 0x20
  | .imemWord i => i < b.imemWords ∧ off / 4 = 0x10000 + i
  | .dmemWord a => a < b.dmemBytes ∧ off = 0x80000 + a
  | .reserved => True

theorem registerAt_liesAt (b : Build) (off : Nat) : (registerAt off).LiesAt b off := by
  unfold registerAt
  split_ifs
  case neg => trivial
  all_goals assumption

theorem target_liesAt (b : Build) (off : Nat) : (target b off).LiesAt b off := by
  unfold target
  by_cases h1 : off < 0x40000
  · rw [if_pos h1]
    exact registerAt_liesAt b off
  rw [if_neg h1]
  by_cases h2 : off < 0x80000
  · rw [if_pos h2]
    by_cases hi : (off - 0x40000) / 4 < b.imemWords
    · rw [if_pos hi]
      exact ⟨hi, by omega⟩
    · rw [if_neg hi]
      trivial
  rw [if_neg h2]
  by_cases h3 : off < 0x90000
  · rw [if_pos h3]
    by_cases ha : off - 0x80000 < b.dmemBytes
    · rw [if_pos ha]
      exact ⟨ha, by omega⟩
    · rw [if_neg ha]
      trivial
  · rw [if_neg h3]
    trivial

/-- What a host write left: nothing changed (outside the window, a read-only register, a reserved offset), HERR set by a
refusal, or what the target it reached takes. -/
inductive HostWrite (s : State) (addr bytes : Nat) (d : BitVec 32) : State → Prop
  | ignored : HostWrite s addr bytes d s
  | refused (off : Nat) : off < 2 ^ 20 → addr = s.build.hostBase + off → s.refuses off bytes = true →
      HostWrite s addr bytes d s.setHerr
  | ctrl : addr = s.build.hostBase + 0x8 → bytes = 4 → HostWrite s addr bytes d (s.writeCtrl d)
  | status : addr = s.build.hostBase + 0xC → bytes = 4 → HostWrite s addr bytes d (s.clearStatus d)
  | entry : addr = s.build.hostBase + 0x10 → bytes = 4 → s.busy = false →
      HostWrite s addr bytes d (s.setEntry (d.setWidth 16))
  | imem (i : Nat) : addr = s.build.hostBase + (0x40000 + 4 * i) → bytes = 4 → s.busy = false →
      i < s.build.imemWords → HostWrite s addr bytes d (s.storeWord i d)
  | dmem (a : Nat) : addr = s.build.hostBase + (0x80000 + a) → bytes = 4 → s.busy = false →
      a < s.build.dmemBytes → a % 4 = 0 → HostWrite s addr bytes d (s.storeBytes a (laneBytes d))

/-- An accepted access is an aligned 32-bit one, and while BUSY = 1 not of what the core alone uses then
(60_exceptions.md R370). -/
theorem accepted_iff {s : State} {off bytes : Nat} : s.refuses off bytes = false ↔
    bytes = 4 ∧ off % 4 = 0 ∧ ((target s.build off).idleOnly = true → s.busy = false) := by
  rw [← Bool.not_eq_true, refuses_iff]
  cases s.busy <;> simp

theorem hostWrite_cases (s : State) (addr bytes : Nat) (d : BitVec 32) :
    HostWrite s addr bytes d (s.hostWrite addr bytes d) := by
  cases hw : windowOffset s.build addr with
  | none =>
    have h : s.hostWrite addr bytes d = s := by simp [State.hostWrite, hw]
    rw [h]
    exact .ignored
  | some off =>
    obtain ⟨ha, ho⟩ := windowOffset_eq_some hw
    cases hr : s.refuses off bytes with
    | true =>
      rw [ha, hostWrite_refused ho hr, ← ha]
      exact .refused off ho ha hr
    | false =>
      obtain ⟨hb, h4, hidle⟩ := accepted_iff.mp hr
      rw [ha, hostWrite_accepted ho hr, ← ha]
      have hlies := target_liesAt s.build off
      cases ht : target s.build off with rw [ht] at hlies hidle
      | ctrl => exact .ctrl (hlies ▸ ha) hb
      | status => exact .status (hlies ▸ ha) hb
      | entry => exact .entry (hlies ▸ ha) hb (hidle rfl)
      | imemWord i =>
        obtain ⟨hi, hoff⟩ := hlies
        exact .imem i (by omega) hb (hidle rfl) hi
      | dmemWord a =>
        obtain ⟨hlt, rfl⟩ := hlies
        exact .dmem a ha hb (hidle rfl) hlt (by omega)
      | id | config | pcr | cause | fpc | finstr | reserved => exact .ignored

/-- What a host read leaves of the block: all of it, but for HERR where the read is refused (60_exceptions.md R370). -/
inductive HostRead (s : State) (addr bytes : Nat) : State → Prop
  | done (e : Env) : HostRead s addr bytes { s with env := e }
  | refused (off : Nat) (e : Env) : off < 2 ^ 20 → addr = s.build.hostBase + off → s.refuses off bytes = true →
      HostRead s addr bytes { s with herr := true, env := e }

theorem hostRead_cases (s : State) (addr bytes : Nat) : HostRead s addr bytes (s.hostRead addr bytes) := by
  cases hw : windowOffset s.build addr with
  | none =>
    have h : s.hostRead addr bytes = s := by simp [State.hostRead, hw]
    rw [h]
    exact .done s.env
  | some off =>
    obtain ⟨ha, ho⟩ := windowOffset_eq_some hw
    cases hr : s.refuses off bytes with
    | true =>
      rw [ha, hostRead_refused ho hr, ← ha]
      exact .refused off _ ho ha hr
    | false =>
      rw [ha, hostRead_accepted ho hr, ← ha]
      unfold State.afterRead
      split <;> exact .done _

end Sys2Proof.Machine
end

section
/-! PROOFS. The invariant of the state (`State.Inv`) holds after a reset and every step keeps it: one lemma an update, then one
a kind of step. -/

namespace Sys2Proof.Machine

/-! ### Updates -/

/-- What holds of every VALID entry holds after a write of a value it holds of. -/
theorem RegFile.valid_write {α : Type} {Q : α → Prop} {r : RegFile α} {v : α}
    (h : ∀ i : Reg, (r.get i).valid = true → Q (r.get i).val) (d : Reg) (hv : Q v) (i : Reg) (hi : ((r.write d v).get i).valid = true) : Q ((r.write d v).get i).val := by
  rw [RegFile.get_write] at hi ⊢
  split_ifs at hi ⊢
  · exact hv
  · exact h i hi

theorem Cause.code_le (e : Cause) : e.code.toNat ≤ 7 := by cases e <;> decide

theorem Cause.code_ne_zero (e : Cause) : e.code ≠ 0 := by cases e <;> decide

namespace State.Inv

variable {s : State} (h : s.Inv)
include h

theorem withEnv (e : Env) : ({ s with env := e } : State).Inv := { h with }

theorem dropMove : s.dropMove.Inv := h.withEnv _

theorem noteReached : s.noteReached.Inv := by
  unfold State.noteReached
  split
  · exact h
  · exact h.withEnv _

theorem setPc (t : Imm) : (s.setPc t).Inv := { h with }

theorem advance : s.advance.Inv := h.setPc _

theorem setHerr : s.setHerr.Inv := { h with }

theorem setIrqEn (b : Bool) : (s.setIrqEn b).Inv := { h with }

theorem setEntry (v : Imm) : (s.setEntry v).Inv := { h with }

theorem writeF (d : Reg) {v : FElem} (hv : v.ok) : (s.writeF d v).Inv :=
  { h with field := RegFile.valid_write h.field d hv }

theorem writeS (d : Reg) {v : BitVec 256} (hv : v.toNat < s.build.n) : (s.writeS d v).Inv :=
  { h with scalar := RegFile.valid_write (Q := fun x : BitVec 256 => x.toNat < s.build.n) h.scalar d hv }

theorem writeA (d : Reg) {v : APoint} (hv : v.ok) : (s.writeA d v).Inv :=
  { h with affine := RegFile.valid_write h.affine d hv }

theorem writeW (d : Reg) (v : BitVec 512) : (s.writeW d v).Inv := { h with }

theorem writeP (d : Reg) (v : PPoint) : (s.writeP d v).Inv := { h with }

theorem writeC (d : Reg) (v : Bool) : (s.writeC d v).Inv := { h with }

theorem writeL (d : Reg) (v : BitVec 16) : (s.writeL d v).Inv := { h with }

theorem writeMultiplier (d : Reg) (r : Nat) : (s.writeMultiplier d r).Inv :=
  (h.writeF d (FElem.ok_ofMultiplier r s.nextRedundant)).withEnv _

/-- A store inside DMEM keeps it canonical and inside its size (20_memory.md R70, R76). -/
theorem storeBytes {a : Nat} {bs : List Byte} (hr : a + bs.length ≤ s.build.dmemBytes) : (s.storeBytes a bs).Inv :=
  { h with
    dmemForm := Memory.wf_writeSeq h.dmemForm a bs
    dmemRange := fun c hc => by
      rcases Memory.mem_writeSeq hc with ⟨-, hc⟩ | hc
      · exact lt_of_lt_of_le hc hr
      · exact h.dmemRange c hc }

theorem storeWord {i : Nat} (hi : i < s.build.imemWords) (w : Word) : (s.storeWord i w).Inv :=
  { h with
    imemForm := Memory.wf_write h.imemForm i w
    imemRange := fun c hc => by
      rcases Memory.mem_write hc with hc | hc
      · exact hc ▸ hi
      · exact h.imemRange c hc }

/-- HALT of a running core: no fault is recorded during a run (10_state.md R51). -/
theorem finish (hb : s.busy = true) : s.finish.Inv :=
  { h with
    oneEnd := fun hd => Bool.noConfusion ((h.running hb).2.symm.trans hd.2)
    running := fun hb' => Bool.noConfusion hb'
    noFault := fun _ => h.noFault (.inl hb) }

/-- Fault entry from a running core: DONE is 0 during a run (10_state.md R51, 60_exceptions.md R350). -/
theorem takeException (hb : s.busy = true) (e : Cause) : (takeException e s).Inv :=
  { h with
    oneEnd := fun hd => Bool.noConfusion ((h.running hb).1.symm.trans hd.1)
    running := fun hb' => Bool.noConfusion hb'
    noFault := fun hd => by
      rcases hd with hd | hd
      · cases hd
      · exact Bool.noConfusion ((h.running hb).1.symm.trans hd)
    causeCode := e.code_le
    faultCode := fun _ => e.code_ne_zero }

theorem start (b : Bool) : (s.start b).Inv :=
  { h with
    oneEnd := fun hd => Bool.noConfusion hd.1
    running := fun _ => ⟨rfl, rfl⟩
    noFault := fun _ => ⟨rfl, rfl, rfl⟩
    causeCode := Nat.zero_le 7
    faultCode := fun hf => Bool.noConfusion hf }

/-- A register file without VALID entries meets any invariant of VALID entries. -/
theorem softReset : s.softReset.Inv :=
  { h with
    field := fun i hi => by simp at hi
    scalar := fun i hi => by simp at hi
    affine := fun i hi => by simp at hi
    oneEnd := fun hd => Bool.noConfusion hd.1
    running := fun _ => ⟨rfl, rfl⟩
    noFault := fun _ => ⟨rfl, rfl, rfl⟩
    causeCode := Nat.zero_le 7
    faultCode := fun hf => Bool.noConfusion hf }

/-- Clearing STATUS bits keeps the invariant: it asks nothing of a bit that is 0 (10_state.md R51). -/
theorem clearStatus (d : BitVec 32) : (s.clearStatus d).Inv := by
  have hdone : (s.clearStatus d).done = true → s.done = true := fun hd => (Bool.and_eq_true_iff.mp hd).1
  have hfault : (s.clearStatus d).fault = true → s.fault = true := fun hf => (Bool.and_eq_true_iff.mp hf).1
  exact { h with
    oneEnd := fun hd => h.oneEnd ⟨hdone hd.1, hfault hd.2⟩
    running := fun hb => by simp [h.running hb]
    noFault := fun hd => h.noFault (hd.imp_right hdone)
    faultCode := fun hf => h.faultCode (hfault hf) }

end State.Inv

/-- A build after power-on reset meets the invariant (10_state.md R63). -/
theorem inv_resetOf {b : Build} (hb : b.wf) : (State.resetOf b).Inv where
  build := hb
  field i hi := by simp [State.resetOf] at hi
  scalar i hi := by simp [State.resetOf] at hi
  affine i hi := by simp [State.resetOf] at hi
  imemForm := List.Pairwise.nil
  dmemForm := List.Pairwise.nil
  imemRange c hc := by cases hc
  dmemRange c hc := by cases hc
  oneEnd hd := Bool.noConfusion hd.1
  running _ := ⟨rfl, rfl⟩
  noFault _ := ⟨rfl, rfl, rfl⟩
  causeCode := Nat.zero_le 7
  faultCode hf := Bool.noConfusion hf

/-- Settles O56: the default build meets the conditions of 00_scope.md R9 and R10. -/
theorem resetMeetsTheInvariant : Obligations.ResetMeetsTheInvariant := by
  have hb : Build.default.wf := by decide +kernel
  exact inv_resetOf hb

/-! ### Steps -/

/-- A completed command of a running core keeps the invariant. -/
theorem Completes.inv {i : Instr} {s t : State} (hc : Completes i s t) (hw : i.wf = true) (hb : s.busy = true) (h : s.Inv) :
    t.Inv := by
  cases hc with
  | nop => exact h.advance
  | halt => exact h.finish hb
  | jmp target => exact h.setPc target
  | loop d target =>
    split
    · exact (h.writeL d _).advance
    · exact (h.writeL d _).setPc target
  | ldlc d count => exact (h.writeL d count).advance
  | writeF d v _ hv => exact (h.writeF d (hv hw h)).advance
  | writeFC d c v b _ hv => exact ((h.writeF d hv).writeC c b).advance
  | multiplier d r => exact (h.writeMultiplier d r).advance
  | multiplierC d c r b => exact ((h.writeMultiplier d r).writeC c b).advance
  | writeS d v _ hv => exact (h.writeS d (hv h)).advance
  | writeSC d c v b _ hv => exact ((h.writeS d (hv h)).writeC c b).advance
  | writeW d v => exact (h.writeW d v).advance
  | writeA d v _ hv => exact (h.writeA d (hv h)).advance
  | writeP d v => exact (h.writeP d v).advance
  | writeC d b => exact (h.writeC d b).advance
  | store addr n v _ _ hr => exact (h.storeBytes (by rw [beBytes_length]; exact hr)).advance

theorem CoreTurn.inv {s t : State} (hc : CoreTurn s t) (h : s.Inv) : t.Inv := by
  cases hc with
  | idle => exact h
  | exception e hb => exact h.noteReached.takeException (by rw [State.noteReached_busy, hb]) e
  | command i hb hi hc => exact hc.inv (wf_of_decode hi) (by rw [State.noteReached_busy, hb]) h.noteReached

/-- The size of DMEM is a multiple of 4, so an aligned word inside it ends inside it (00_scope.md R9). -/
theorem dmemWord_le {b : Build} (hb : b.wf) {a : Nat} (ha : a < b.dmemBytes) (h4 : a % 4 = 0) : a + 4 ≤ b.dmemBytes := by
  have hd : 4 ∣ b.dmemBytes := by
    obtain ⟨h6, -⟩ := hb
    exact pow_dvd_pow 2 (show 2 ≤ b.dmemLog2.val by omega)
  omega

theorem HostWrite.inv {s t : State} {addr bytes : Nat} {d : BitVec 32} (hw : HostWrite s addr bytes d t) (h : s.Inv) :
    t.Inv := by
  cases hw with
  | ignored => exact h
  | refused => exact h.setHerr
  | ctrl =>
    unfold State.writeCtrl
    split_ifs
    · exact h.softReset
    · exact h.setHerr
    · exact h.start _
    · exact h.setIrqEn _
  | status => exact h.clearStatus d
  | entry => exact h.setEntry _
  | imem i _ _ _ hi => exact h.storeWord hi d
  | dmem a _ _ _ ha h4 => exact h.storeBytes (dmemWord_le h.build ha h4)

theorem HostRead.inv {s t : State} {addr bytes : Nat} (hr : HostRead s addr bytes t) (h : s.Inv) : t.Inv := by
  cases hr with
  | done e => exact h.withEnv e
  | refused _ e => exact h.setHerr.withEnv e

/-- Settles O57: by the turn of the step, the core's, the host's or a power-on reset. -/
theorem everyStepKeepsTheInvariant : Obligations.EveryStepKeepsTheInvariant := by
  intro s t h hs
  have hd := h.dropMove
  rcases step_turns hs with ⟨-, hc⟩ | ⟨addr, bytes, rest, -, rfl⟩ | ⟨addr, bytes, d, rest, -, rfl⟩ |
    ⟨draw, rest, -, rfl⟩
  · exact hc.inv hd
  · exact (hostRead_cases _ addr bytes).inv hd
  · exact (hostWrite_cases _ addr bytes d).inv hd
  · exact (inv_resetOf hd.build).withEnv _

end Sys2Proof.Machine
end

section
/-! PROOFS. Resets, the STATUS bits and refused accesses (10_state.md R50, R51, R63, 60_exceptions.md R370). -/

namespace Sys2Proof.Machine

open Claims (registerWrite startWrite resetWrite powerOnMove coreMoves idleOnlyOffset refusedAccess)

section
variable {s : State} {rest : List HostMove}

/-! ### Resets -/

/-- An entry is VALID nowhere where each of the seven files says so. -/
theorem validAt_eq_false {t : State}
    (h : ∀ i : Reg, (t.F.get i).valid = false ∧ (t.S.get i).valid = false ∧ (t.W.get i).valid = false ∧
      (t.A.get i).valid = false ∧ (t.P.get i).valid = false ∧ (t.C.get i).valid = false ∧ (t.L.get i).valid = false)
    (e : Entry) : t.validAt e = false := by
  obtain ⟨f, i⟩ := e
  obtain ⟨hF, hS, hW, hA, hP, hC, hL⟩ := h i
  cases f <;> assumption

theorem validAt_resetOf (b : Build) (e : Entry) : (State.resetOf b).validAt e = false :=
  validAt_eq_false (fun i => by simp [State.resetOf]) e

theorem validAt_softReset (s : State) (e : Entry) : s.softReset.validAt e = false :=
  validAt_eq_false (fun i => by simp) e

/-- A 32-bit write of a register that is not the running core's alone is accepted. -/
theorem step_registerWrite {off : Nat} {d : BitVec 32} (hm : s.env.moves = .write (s.build.hostBase + off) 4 d :: rest)
    (h4 : off % 4 = 0) (ho : off < 2 ^ 20) (hi : (target s.build off).idleOnly = true → s.busy = false) :
    step s = .next (s.dropMove.writeTarget d (target s.build off)) := by
  rw [step_write hm]
  exact congrArg _ (hostWrite_accepted (s := s.dropMove) ho (accepted_iff.mpr ⟨rfl, h4, hi⟩))

theorem step_ctrlWrite {d : BitVec 32} (hm : s.env.moves = .write (s.build.hostBase + 0x8) 4 d :: rest) :
    step s = .next (s.dropMove.writeCtrl d) :=
  step_registerWrite hm rfl (by norm_num) (fun h => Bool.noConfusion h)

theorem step_statusWrite {d : BitVec 32} (hm : s.env.moves = .write (s.build.hostBase + 0xC) 4 d :: rest) :
    step s = .next (s.dropMove.clearStatus d) :=
  step_registerWrite hm rfl (by norm_num) (fun h => Bool.noConfusion h)

/-! CTRL (10_state.md R50), by its bits -/

theorem writeCtrl_reset {d : BitVec 32} (h2 : d.getLsbD 2 = true) : s.writeCtrl d = s.softReset := if_pos h2

theorem writeCtrl_start {d : BitVec 32} (h2 : d.getLsbD 2 = false) (h0 : d.getLsbD 0 = true) (hb : s.busy = false) :
    s.writeCtrl d = s.start (d.getLsbD 1) := by
  simp only [State.writeCtrl, h2, h0, hb, if_true, if_false, Bool.false_eq_true]

theorem writeCtrl_refused {d : BitVec 32} (h2 : d.getLsbD 2 = false) (h0 : d.getLsbD 0 = true) (hb : s.busy = true) :
    s.writeCtrl d = s.setHerr := by
  simp only [State.writeCtrl, h2, h0, hb, if_true, if_false, Bool.false_eq_true]

theorem writeCtrl_irqEn {d : BitVec 32} (h2 : d.getLsbD 2 = false) (h0 : d.getLsbD 0 = false) :
    s.writeCtrl d = s.setIrqEn (d.getLsbD 1) := by
  simp only [State.writeCtrl, h2, h0, if_false, Bool.false_eq_true]

end

/-- Settles O50: SRST is the soft reset, whatever bit 0 of the write is. -/
theorem softResetClearsValidAndControl : Obligations.SoftResetClearsValidAndControl := by
  rintro s d ⟨rest, hm⟩ h2
  refine ⟨s.dropMove.softReset, ?_, validAt_softReset _, rfl, rfl, rfl, rfl, rfl, rfl, rfl, rfl, rfl, rfl, rfl, rfl, rfl, rfl,
    fun i => by simp⟩
  rw [step_ctrlWrite hm, writeCtrl_reset h2]

/-- Settles O55: the values of `State.resetOf`, which power-on reset of every build gives. -/
theorem resetValues : Obligations.ResetValues := by
  refine ⟨validAt_resetOf _, rfl, rfl, rfl, rfl, rfl, rfl, rfl, rfl, fun a => rfl, fun i => rfl, ?_, ?_⟩
  · intro t ht
    have hidle : step State.reset = .next State.reset := rfl
    rw [← Host.Outcome.next.inj (hidle.symm.trans ht)]
    rfl
  · intro s draw rest hm
    refine ⟨s.dropMove.powerOnReset draw, step_powerOn hm, rfl, validAt_resetOf s.build, rfl, rfl, rfl, rfl, rfl, rfl, rfl,
      rfl, rfl, rfl, rfl, ?_, fun a => rfl, fun i => rfl⟩
    simp [hm]

/-! ### STATUS over a step -/

/-- A refused access in the terms of the offsets (60_exceptions.md R370, 20_memory.md R82). -/
theorem refuses_iff_offset {s : State} {off bytes : Nat} : s.refuses off bytes = true ↔
    bytes ≠ 4 ∨ off % 4 ≠ 0 ∨ (s.busy = true ∧ idleOnlyOffset s.build off) := by
  rw [refuses_iff]
  by_cases h4 : off % 4 = 0
  · rw [target_idleOnly h4]; rfl
  · simp [h4]

/-- What may set and what may clear each bit of STATUS over a step from `s` to `t` (10_state.md R51). -/
structure StatusChanges (s t : State) : Prop where
  busySet : s.busy = false → t.busy = true → startWrite s
  busyCleared : s.busy = true → t.busy = false →
    (coreMoves s ∧ (t.done = true ∨ t.fault = true)) ∨ resetWrite s ∨ powerOnMove s
  doneSet : s.done = false → t.done = true →
    s.busy = true ∧ coreMoves s ∧ decode (s.imemWord s.pc.toNat) = .ok .halt ∧ t.busy = false
  faultSet : s.fault = false → t.fault = true → s.busy = true ∧ coreMoves s ∧ t.busy = false ∧ t.cause ≠ 0
  herrSet : s.herr = false → t.herr = true → refusedAccess s
  doneCleared : s.done = true → t.done = false →
    startWrite s ∨ resetWrite s ∨ powerOnMove s ∨ ∃ d, registerWrite s 0xC d ∧ d.getLsbD 1 = true
  faultCleared : s.fault = true → t.fault = false →
    startWrite s ∨ resetWrite s ∨ powerOnMove s ∨ ∃ d, registerWrite s 0xC d ∧ d.getLsbD 2 = true
  herrCleared : s.herr = true → t.herr = false →
    resetWrite s ∨ powerOnMove s ∨ ∃ d, registerWrite s 0xC d ∧ d.getLsbD 3 = true

/-- No bit is both 0 and 1. -/
theorem bit_absurd {x : Bool} {P : Prop} (h0 : x = false) (h1 : x = true) : P := Bool.noConfusion (h0.symm.trans h1)

namespace StatusChanges

variable {s t : State}

/-- BUSY, DONE and FAULT as they were, HERR too or set by a refusal. -/
theorem ofHerr (hb : t.busy = s.busy) (hd : t.done = s.done) (hf : t.fault = s.fault)
    (hr : t.herr = s.herr ∨ (t.herr = true ∧ refusedAccess s)) : StatusChanges s t where
  busySet h0 h1 := bit_absurd (hb.trans h0) h1
  busyCleared h1 h0 := bit_absurd h0 (hb.trans h1)
  doneSet h0 h1 := bit_absurd (hd.trans h0) h1
  faultSet h0 h1 := bit_absurd (hf.trans h0) h1
  herrSet h0 h1 := by
    rcases hr with h | ⟨-, h⟩
    · exact bit_absurd (h.trans h0) h1
    · exact h
  doneCleared h1 h0 := bit_absurd h0 (hd.trans h1)
  faultCleared h1 h0 := bit_absurd h0 (hf.trans h1)
  herrCleared h1 h0 := by
    rcases hr with h | ⟨h, -⟩
    · exact bit_absurd h0 (h.trans h1)
    · exact bit_absurd h0 h

/-- A reset clears every bit. -/
theorem ofReset (h : resetWrite s ∨ powerOnMove s) (hb : t.busy = false) (hd : t.done = false) (hf : t.fault = false)
    (hr : t.herr = false) : StatusChanges s t where
  busySet _ h1 := bit_absurd hb h1
  busyCleared _ _ := .inr h
  doneSet _ h1 := bit_absurd hd h1
  faultSet _ h1 := bit_absurd hf h1
  herrSet _ h1 := bit_absurd hr h1
  doneCleared _ _ := .inr (h.imp_right .inl)
  faultCleared _ _ := .inr (h.imp_right .inl)
  herrCleared _ _ := h.imp_right .inl

/-- START sets BUSY and clears DONE and FAULT (60_exceptions.md R371). -/
theorem ofStart (h : startWrite s) (hb : t.busy = true) (hd : t.done = false) (hf : t.fault = false)
    (hr : t.herr = s.herr) : StatusChanges s t where
  busySet _ _ := h
  busyCleared _ h0 := bit_absurd h0 hb
  doneSet _ h1 := bit_absurd hd h1
  faultSet _ h1 := bit_absurd hf h1
  herrSet h0 h1 := bit_absurd (hr.trans h0) h1
  doneCleared _ _ := .inl h
  faultCleared _ _ := .inl h
  herrCleared h1 h0 := bit_absurd h0 (hr.trans h1)

/-- A write of STATUS clears the bits whose place in it is 1 (10_state.md R51). -/
theorem ofClear {d : BitVec 32} (h : registerWrite s 0xC d) (hb : t.busy = s.busy) (hd : t.done = (s.done && !d.getLsbD 1))
    (hf : t.fault = (s.fault && !d.getLsbD 2)) (hr : t.herr = (s.herr && !d.getLsbD 3)) : StatusChanges s t where
  busySet h0 h1 := bit_absurd (hb.trans h0) h1
  busyCleared h1 h0 := bit_absurd h0 (hb.trans h1)
  doneSet h0 h1 := bit_absurd (by rw [hd, h0, Bool.false_and]) h1
  faultSet h0 h1 := bit_absurd (by rw [hf, h0, Bool.false_and]) h1
  herrSet h0 h1 := bit_absurd (by rw [hr, h0, Bool.false_and]) h1
  doneCleared h1 h0 := .inr (.inr (.inr ⟨d, h, by rwa [hd, h1, Bool.true_and, Bool.not_eq_false'] at h0⟩))
  faultCleared h1 h0 := .inr (.inr (.inr ⟨d, h, by rwa [hf, h1, Bool.true_and, Bool.not_eq_false'] at h0⟩))
  herrCleared h1 h0 := .inr (.inr ⟨d, h, by rwa [hr, h1, Bool.true_and, Bool.not_eq_false'] at h0⟩)

/-- A turn of the running core that ends in HALT or in an exception clears BUSY and sets one bit, of DONE and FAULT. -/
theorem ofEnd (hm : coreMoves s) (hs : s.busy = true) (hb : t.busy = false) (hr : t.herr = s.herr)
    (h : (decode (s.imemWord s.pc.toNat) = .ok .halt ∧ t.done = true ∧ t.fault = s.fault) ∨
      (t.fault = true ∧ t.cause ≠ 0 ∧ t.done = s.done)) : StatusChanges s t where
  busySet h0 _ := bit_absurd h0 hs
  busyCleared _ _ := .inl ⟨hm, h.imp (·.2.1) (·.1)⟩
  doneSet h0 h1 := by
    rcases h with ⟨hi, -, -⟩ | ⟨-, -, hd⟩
    · exact ⟨hs, hm, hi, hb⟩
    · exact bit_absurd (hd.trans h0) h1
  faultSet h0 h1 := by
    rcases h with ⟨-, -, hf⟩ | ⟨-, hc, -⟩
    · exact bit_absurd (hf.trans h0) h1
    · exact ⟨hs, hm, hb, hc⟩
  herrSet h0 h1 := bit_absurd (hr.trans h0) h1
  doneCleared h1 h0 := by
    rcases h with ⟨-, hd, -⟩ | ⟨-, -, hd⟩
    · exact bit_absurd h0 hd
    · exact bit_absurd h0 (hd.trans h1)
  faultCleared h1 h0 := by
    rcases h with ⟨-, -, hf⟩ | ⟨hf, -, -⟩
    · exact bit_absurd h0 (hf.trans h1)
    · exact bit_absurd h0 hf
  herrCleared h1 h0 := bit_absurd h0 (hr.trans h1)

end StatusChanges

section
variable {s t : State}

theorem CoreTurn.statusChanges (hm : coreMoves s) (hc : CoreTurn s.dropMove t) : StatusChanges s t := by
  cases hc with
  | idle => exact .ofHerr rfl rfl rfl (.inl rfl)
  | exception e hb =>
    exact .ofEnd hm hb rfl (by simp) (.inr ⟨rfl, e.code_ne_zero, by simp⟩)
  | command i hb hi hc =>
    have hr : t.herr = s.herr := by simp [hc.sameSetup.herr]
    by_cases hh : i = .halt
    · subst hh
      obtain rfl := hc.eq_finish
      exact .ofEnd hm hb rfl hr (.inl ⟨hi, rfl, by simp⟩)
    · have h := hc.sameStatus hh
      exact .ofHerr (by simp [h.busy]) (by simp [h.done]) (by simp [h.fault]) (.inl hr)

theorem HostRead.statusChanges {addr bytes : Nat} {rest : List HostMove} (hm : s.env.moves = .read addr bytes :: rest)
    (hr : HostRead s.dropMove addr bytes t) : StatusChanges s t := by
  cases hr with
  | done e => exact .ofHerr rfl rfl rfl (.inl rfl)
  | refused off e ho ha href =>
    subst ha
    exact .ofHerr rfl rfl rfl (.inr ⟨rfl, .inl ⟨off, bytes, rest, ho, .inl hm, refuses_iff_offset.mp href⟩⟩)

theorem HostWrite.statusChanges {addr bytes : Nat} {d : BitVec 32} {rest : List HostMove}
    (hm : s.env.moves = .write addr bytes d :: rest) (hw : HostWrite s.dropMove addr bytes d t) : StatusChanges s t := by
  cases hw with
  | ignored | entry | imem | dmem => exact .ofHerr rfl rfl rfl (.inl rfl)
  | refused off ho ha href =>
    subst ha
    exact .ofHerr rfl rfl rfl (.inr ⟨rfl, .inl ⟨off, bytes, rest, ho, .inr ⟨d, hm⟩, refuses_iff_offset.mp href⟩⟩)
  | status ha hb =>
    subst ha hb
    exact .ofClear ⟨rest, hm⟩ rfl rfl rfl rfl
  | ctrl ha hb =>
    subst ha hb
    cases h2 : d.getLsbD 2 with
    | true =>
      rw [writeCtrl_reset h2]
      exact .ofReset (.inl ⟨d, ⟨rest, hm⟩, h2⟩) rfl rfl rfl rfl
    | false =>
      cases h0 : d.getLsbD 0 with
      | false =>
        rw [writeCtrl_irqEn h2 h0]
        exact .ofHerr rfl rfl rfl (.inl rfl)
      | true =>
        have hstart : startWrite s := ⟨d, ⟨rest, hm⟩, h0, h2⟩
        cases hb : s.busy with
        | false =>
          rw [writeCtrl_start (s := s.dropMove) h2 h0 hb]
          exact .ofStart hstart rfl rfl rfl rfl
        | true =>
          rw [writeCtrl_refused (s := s.dropMove) h2 h0 hb]
          exact .ofHerr rfl rfl rfl (.inr ⟨rfl, .inr ⟨hb, hstart⟩⟩)

theorem step_statusChanges (h : step s = .next t) : StatusChanges s t := by
  rcases step_turns h with ⟨hm, hc⟩ | ⟨addr, bytes, rest, hm, rfl⟩ | ⟨addr, bytes, d, rest, hm, rfl⟩ |
    ⟨draw, rest, hm, rfl⟩
  · exact hc.statusChanges hm
  · exact (hostRead_cases _ addr bytes).statusChanges hm
  · exact (hostWrite_cases _ addr bytes d).statusChanges hm
  · exact .ofReset (.inr ⟨draw, rest, hm⟩) rfl rfl rfl rfl

end

/-- A bit cleared by writing 1 to its place (10_state.md R51). -/
theorem writeOneClear (x c : Bool) : (x && !c) = if c = true then false else x := by cases c <;> simp

/-- Settles O52: by what each kind of step does to STATUS. -/
theorem statusBitsChangeOnlyAsTheTableSays : Obligations.StatusBitsChangeOnlyAsTheTableSays := by
  refine ⟨fun s d rest hm => ?_, fun s t h => ?_⟩
  · rw [step_statusWrite hm, dropMove_of_cons hm, State.clearStatus]
    simp only [writeOneClear]
  · obtain ⟨h1, h2, h3, h4, h5, h6, h7, h8⟩ := step_statusChanges h
    exact ⟨h1, h2, h3, h4, h5, h6, h7, h8⟩

/-- Settles O51: a refused access sets HERR on the state whose turn is off the script. -/
theorem refusedAccessesOnlySetHerr : Obligations.RefusedAccessesOnlySetHerr := by
  intro s off bytes d rest ho
  refine ⟨fun href => ⟨fun hm => ?_, fun hm => ?_⟩, fun hm hb h0 h2 => ?_, fun t h h1 h0 => ?_⟩
  · have hr : s.dropMove.refuses off bytes = true := refuses_iff_offset.mpr href
    rw [step_write hm, ← s.dropMove_build, hostWrite_refused ho hr, dropMove_of_cons hm]
    rfl
  · have hr : s.dropMove.refuses off bytes = true := refuses_iff_offset.mpr href
    rw [step_read hm, ← s.dropMove_build, hostRead_refused ho hr, dropMove_of_cons hm]
    rfl
  · rw [step_ctrlWrite hm, writeCtrl_refused (s := s.dropMove) h2 h0 hb, dropMove_of_cons hm]
    rfl
  · rcases (step_statusChanges h).herrCleared h1 h0 with hr | hp | hw
    · exact .inr (.inl hr)
    · exact .inr (.inr hp)
    · exact .inl hw

end Sys2Proof.Machine
end

section
/-! PROOFS. Aligned 32-bit host accesses to the registers and to the reserved offsets (10_state.md R49 to R59). -/

namespace Sys2Proof.Machine

open Claims (readOnlyOffset reservedOffset)

/-! ### Register words as integers -/

theorem toNat_bitAt (b : Bool) {i : Nat} (h : i < 32) : (bitAt b i).toNat = b.toNat * 2 ^ i := by
  have hp : 2 ^ i < 2 ^ 32 := Nat.pow_lt_pow_right (by norm_num) h
  cases b with
  | false => simp [bitAt]
  | true => simpa [bitAt, Nat.shiftLeft_eq] using hp

theorem toNat_statusWord (s : State) :
    s.statusWord.toNat = s.busy.toNat + 2 * s.done.toNat + 4 * s.fault.toNat + 8 * s.herr.toNat := by
  unfold State.statusWord
  generalize s.busy = b, s.done = d, s.fault = f, s.herr = h
  revert b d f h
  decide

theorem toNat_ctrlWord (s : State) : s.ctrlWord.toNat = 2 * s.irqEn.toNat := by
  rw [State.ctrlWord, toNat_bitAt _ (by norm_num), Nat.mul_comm, pow_one]

/-- Fields that do not overlap add up. -/
theorem or_field {x i : Nat} (h : x < 2 ^ i) (a : Nat) : x ||| 2 ^ i * a = x + 2 ^ i * a := by
  rw [Nat.or_comm, ← Nat.two_pow_add_eq_or_of_lt h, Nat.add_comm]

/-- A small value in its field of a word. -/
theorem toNat_field {a i : Nat} (h : 2 ^ i * a < 2 ^ 32) : (BitVec.ofNat 32 a <<< i).toNat = 2 ^ i * a := by
  have ha : a < 2 ^ 32 := lt_of_le_of_lt (Nat.le_mul_of_pos_left a (Nat.two_pow_pos i)) h
  rw [BitVec.toNat_shiftLeft, BitVec.toNat_ofNat, Nat.mod_eq_of_lt ha, Nat.shiftLeft_eq, Nat.mul_comm, Nat.mod_eq_of_lt h]

/-- CONFIG's fields (10_state.md R57). -/
theorem toNat_configWord (b : Build) : (configWord b).toNat =
    b.checked.toNat + 2 ^ 8 * b.imemLog2.val + 2 ^ 16 * b.dmemLog2.val + 2 ^ 24 * 32 := by
  have hc := Bool.toNat_le b.checked
  have hi := b.imemLog2.isLt
  have hd := b.dmemLog2.isLt
  rw [configWord, BitVec.toNat_or, BitVec.toNat_or, BitVec.toNat_or, toNat_bitAt _ (by norm_num), pow_zero, Nat.mul_one,
    toNat_field (by omega), toNat_field (by omega), toNat_field (by norm_num),
    or_field (show _ < 2 ^ 8 by omega), or_field (show _ < 2 ^ 16 by omega), or_field (show _ < 2 ^ 24 by omega)]

/-! ### Reads -/

section
variable {s : State} {off : Nat} {rest : List HostMove}

/-- Only a read of PCR while BUSY = 1 takes a free value (log 5). -/
theorem afterRead_target (s : State) (b : Build) (off : Nat) :
    s.afterRead (target b off) = if off = 0x14 ∧ s.busy = true then s.countDraw else s := by
  simp only [State.afterRead, target_eq_pcr]

/-- An accepted 32-bit read changes the model's own fields alone. -/
theorem step_registerRead (hm : s.env.moves = .read (s.build.hostBase + off) 4 :: rest) (h4 : off % 4 = 0)
    (ho : off < 2 ^ 20) (hi : (target s.build off).idleOnly = true → s.busy = false) :
    step s = .next { s with env := { s.env with
      moves := rest
      busData := s.dropMove.readTarget (target s.build off)
      draws := if off = 0x14 ∧ s.busy = true then s.env.draws + 1 else s.env.draws } } := by
  have hr : s.dropMove.refuses off 4 = false := accepted_iff.mpr ⟨rfl, h4, hi⟩
  have hrest : rest = s.env.moves.tail := by rw [hm, List.tail_cons]
  rw [step_read hm, ← s.dropMove_build, hostRead_accepted ho hr, hrest, afterRead_target,
    State.setBusData_busy, State.dropMove_busy]
  split_ifs <;> rfl

/-- The offsets a write of which is ignored: not the running core's, and no state takes it (10_state.md R49, R59; log 9). -/
theorem target_ignored (b : Build) (h4 : off % 4 = 0) (h : readOnlyOffset off ∨ reservedOffset b off) :
    off < 2 ^ 20 ∧ (target b off).idleOnly = false ∧
      ∀ (s : State) (d : BitVec 32), s.writeTarget d (target b off) = s := by
  rcases h with h | h
  · rcases h with rfl | rfl | rfl | rfl | rfl | rfl <;> exact ⟨by norm_num, rfl, fun _ _ => rfl⟩
  · rw [target_reserved h4 h]
    refine ⟨?_, rfl, fun _ _ => rfl⟩
    unfold reservedOffset at h
    omega

/-- The offsets whose read is accepted in the state: those that hold no memory, ENTRY while idle. -/
theorem target_readable (h4 : off % 4 = 0)
    (h : off = 0x8 ∨ off = 0xC ∨ (off = 0x10 ∧ s.busy = false) ∨ readOnlyOffset off ∨ reservedOffset s.build off) :
    off < 2 ^ 20 ∧ ((target s.build off).idleOnly = true → s.busy = false) := by
  rcases h with rfl | rfl | ⟨rfl, hb⟩ | h
  · exact ⟨by norm_num, fun h => Bool.noConfusion h⟩
  · exact ⟨by norm_num, fun h => Bool.noConfusion h⟩
  · exact ⟨by norm_num, fun _ => hb⟩
  · obtain ⟨ho, hi, -⟩ := target_ignored s.build h4 h
    exact ⟨ho, fun h => bit_absurd hi h⟩

end

/-- Settles O54: an accepted read returns the word of what it reached, and a write gives what the target takes. -/
theorem hostAccessesToTheRegisters : Obligations.HostAccessesToTheRegisters := by
  intro s off d rest h4
  refine ⟨fun hm hoff => ?_, fun hm => ⟨?_, ?_, fun hoff => ?_⟩⟩
  · obtain ⟨ho, hi⟩ := target_readable h4 hoff
    refine ⟨_, step_registerRead hm h4 ho hi, ?_, ?_, ?_, ?_, ?_, ?_, ?_, ?_, ?_, fun hr => ?_⟩
    · rintro rfl; rfl
    · rintro rfl; exact toNat_configWord s.build
    · rintro rfl; exact toNat_ctrlWord s
    · rintro rfl; exact toNat_statusWord s
    · rintro rfl; exact BitVec.toNat_setWidth_of_le (by norm_num)
    · rintro rfl
      have hv : (s.dropMove.pcrValue.setWidth 32).toNat = s.dropMove.pcrValue.toNat :=
        BitVec.toNat_setWidth_of_le (by norm_num)
      exact ⟨fun hb => hv.trans (congrArg _ (pcrValue_idle hb)),
        fun hb => ⟨_, pcrValue_running (s := s.dropMove) hb, hv⟩⟩
    · rintro rfl; exact BitVec.toNat_setWidth_of_le (by norm_num)
    · rintro rfl; exact BitVec.toNat_setWidth_of_le (by norm_num)
    · rintro rfl; rfl
    · rw [target_reserved h4 hr]; rfl
  · rintro rfl hb
    refine ⟨d.setWidth 16, by rw [BitVec.toNat_setWidth], ?_⟩
    rw [step_registerWrite hm rfl (by norm_num) (fun _ => hb), dropMove_of_cons hm]
    rfl
  · rintro rfl h0 h2
    rw [step_ctrlWrite hm, writeCtrl_irqEn h2 h0, dropMove_of_cons hm]
    rfl
  · obtain ⟨ho, hi, hw⟩ := target_ignored s.build h4 hoff
    rw [step_registerWrite hm h4 ho (fun h => bit_absurd hi h), hw, dropMove_of_cons hm]

end Sys2Proof.Machine
end

section
/-! PROOFS. The path of pcs is a function of the program (40_control.md R142, 70_reset_and_hazards.md R405): two runs in which the
program, the pc and the loop counters agree stay so, step by step, whatever the rest of the state is. -/

namespace Sys2Proof.Machine

open Claims (SameProgram)

/-- Two files of loop counters are the same wherever either is VALID. -/
def CountersAlike (r r' : RegFile (BitVec 16)) : Prop :=
  ∀ i : Reg, r.get i = r'.get i ∨ (r.get i).valid = false ∧ (r'.get i).valid = false

namespace CountersAlike

variable {r r' : RegFile (BitVec 16)} (h : CountersAlike r r')
include h

/-- Writing the same count to the same counter keeps them alike. -/
theorem write (d : Reg) (v : BitVec 16) : CountersAlike (r.write d v) (r'.write d v) := by
  intro i
  rw [RegFile.get_write, RegFile.get_write]
  split
  · exact .inl rfl
  · exact h i

theorem get_eq {d : Reg} (hd : (r.get d).valid = true) : r.get d = r'.get d := by
  rcases h d with h | ⟨h, -⟩
  · exact h
  · exact bit_absurd h hd

end CountersAlike

/-! ### One step -/

section
variable {s s' t t' : State} {i : Instr}

/-- A completed command moves pc, BUSY and the counters alike in both runs. -/
theorem Completes.alike (hp : s.pc = s'.pc) (hL : CountersAlike s.L s'.L) (hb : s.busy = s'.busy)
    (hc : Completes i s t) (hc' : Completes i s' t') : t.pc = t'.pc ∧ CountersAlike t.L t'.L ∧ t.busy = t'.busy := by
  have he := hc.sequencerEffect
  have he' := hc'.sequencerEffect
  cases i with
  | halt =>
    subst he he'
    exact ⟨hp, hL, rfl⟩
  | jmp target =>
    subst he he'
    exact ⟨rfl, hL, hb⟩
  | ldlc d count =>
    subst he he'
    exact ⟨congrArg (· + 1) hp, hL.write d count, hb⟩
  | loop d target =>
    obtain ⟨hv, rfl⟩ := he
    obtain ⟨-, rfl⟩ := he'
    rw [← hL.get_eq hv]
    split
    · exact ⟨congrArg (· + 1) hp, hL.write d _, hb⟩
    · exact ⟨rfl, hL.write d _, hb⟩
  | _ =>
    obtain ⟨h1, h2, h3⟩ := he
    obtain ⟨h1', h2', h3'⟩ := he'
    exact ⟨by rw [h1, h1', hp], by rwa [h2, h2'], by rw [h3, h3', hb]⟩

/-! What no completed command changes, HALT included: the script of moves, the power-on draw, FAULT. -/

theorem Completes.moves (h : Completes i s t) : t.env.moves = s.env.moves := by
  rcases h.env with h | ⟨-, h⟩ <;> rw [h]

theorem Completes.powerOn (h : Completes i s t) : t.env.powerOn = s.env.powerOn := by
  rcases h.env with h | ⟨-, h⟩ <;> rw [h]

theorem Completes.fault (h : Completes i s t) : t.fault = s.fault := by
  by_cases hi : i = .halt
  · subst hi
    rw [h.eq_finish, State.finish_fault]
  · exact (h.sameStatus hi).fault

theorem CoreTurn.moves (h : CoreTurn s t) : t.env.moves = s.env.moves := by
  cases h with
  | idle => rfl
  | exception e => simp
  | command i _ _ hc => simp [hc.moves]

/-- No turn of the core clears FAULT (10_state.md R51). -/
theorem CoreTurn.fault_before (h : CoreTurn s t) (hf : t.fault = false) : s.fault = false := by
  cases h with
  | idle => exact hf
  | exception e => exact bit_absurd hf rfl
  | command i _ _ hc => rwa [hc.fault, State.noteReached_fault] at hf

/-- Alike runs fetch the same word. -/
theorem imemWord_sameProgram (h : SameProgram s s') : s.imemWord s.pc.toNat = s'.imemWord s'.pc.toNat := by
  rw [State.imemWord_congr h.imem h.draw, h.pc]

/-- Alike runs stay alike over a turn of the core that raises no exception in either. -/
theorem coreTurn_sameProgram (h : SameProgram s s') (hc : CoreTurn s t) (hc' : CoreTurn s' t') (hf : t.fault = false)
    (hf' : t'.fault = false) : SameProgram t t' := by
  cases hc with
  | idle hb =>
    cases hc' with
    | idle => exact h
    | exception e hb' => exact bit_absurd hb (h.busy.trans hb')
    | command i hb' => exact bit_absurd hb (h.busy.trans hb')
  | exception e => exact bit_absurd hf rfl
  | command i hb hi hc =>
    cases hc' with
    | idle hb' => exact bit_absurd hb' (h.busy.symm.trans hb)
    | exception e => exact bit_absurd hf' rfl
    | command i' _ hi' hc' =>
      obtain rfl : i = i' := Except.ok.inj (hi.symm.trans (imemWord_sameProgram h ▸ hi'))
      have hcounters : CountersAlike s.noteReached.L s'.noteReached.L := by
        rw [State.noteReached_L, State.noteReached_L]
        exact h.counters
      obtain ⟨hp, hL, hb⟩ := Completes.alike (by simp [h.pc]) hcounters (by simp [h.busy]) hc hc'
      exact
        { size := by simp [hc.sameSetup.build, hc'.sameSetup.build, h.size]
          imem := by simp [hc.sameSetup.imem, hc'.sameSetup.imem, h.imem]
          draw := by simp [hc.powerOn, hc'.powerOn, h.draw]
          pc := hp
          counters := hL
          busy := hb
          noMoves := by simp [hc.moves, hc'.moves, h.noMoves]
          noFault := ⟨hf, hf'⟩ }

end

/-! ### Runs -/

section
variable {s s' t t' : State}

/-- A run of one step more is a step and a run from where it led. -/
theorem coreRun_succ {M : Host.Core} {k : Nat} {s t : M.State} : M.run (k + 1) s = .next t ↔
    ∃ u, M.step s = .next u ∧ M.run k u = .next t := by
  rw [Host.Core.run]
  cases M.step s <;> simp

theorem run_succ_eq_next {k : Nat} : Sys2Proof.core.run (k + 1) s = .next t ↔
    ∃ u : State, step s = .next u ∧ Sys2Proof.core.run k u = .next t :=
  coreRun_succ (M := Sys2Proof.core)

theorem coreTurn_of_step (hm : s.env.moves = []) (h : step s = .next t) : CoreTurn s t :=
  coreTurn_cases (step_noMoves hm ▸ h)

/-- A run without host accesses that has not faulted had not faulted before. -/
theorem run_fault_before {k : Nat} (hm : s.env.moves = []) (h : Sys2Proof.core.run k s = .next t) (hf : t.fault = false) :
    s.fault = false := by
  induction k generalizing s with
  | zero => exact (Host.Outcome.next.inj h) ▸ hf
  | succ k ih =>
    obtain ⟨u, hu, hr⟩ := run_succ_eq_next.mp h
    have hc := coreTurn_of_step hm hu
    exact hc.fault_before (ih (hc.moves.trans hm) hr)

/-- Alike runs are alike after every number of steps, as long as neither has faulted. -/
theorem run_sameProgram {k : Nat} (h : SameProgram s s') (hr : Sys2Proof.core.run k s = .next t)
    (hr' : Sys2Proof.core.run k s' = .next t') (hf : t.fault = false) (hf' : t'.fault = false) : SameProgram t t' := by
  induction k generalizing s s' with
  | zero =>
    obtain rfl := Host.Outcome.next.inj hr
    obtain rfl := Host.Outcome.next.inj hr'
    exact h
  | succ k ih =>
    obtain ⟨u, hu, hr⟩ := run_succ_eq_next.mp hr
    obtain ⟨u', hu', hr'⟩ := run_succ_eq_next.mp hr'
    obtain ⟨hm, hm'⟩ := h.noMoves
    have hc := coreTurn_of_step hm hu
    have hc' := coreTurn_of_step hm' hu'
    have hfu := run_fault_before (hc.moves.trans hm) hr hf
    have hfu' := run_fault_before (hc'.moves.trans hm') hr' hf'
    exact ih (coreTurn_sameProgram h hc hc' hfu hfu') hr hr'

end

/-- Settles O58: alike runs stay alike, and alike states stand at one pc with one BUSY. -/
theorem pcPathIsAFunctionOfTheProgram : Obligations.PcPathIsAFunctionOfTheProgram := by
  intro k s s' t t' h hr hr' hf hf'
  have ht := run_sameProgram h hr hr' hf hf'
  exact ⟨ht.pc, ht.busy⟩

end Sys2Proof.Machine
end

section
/-! PROOFS. DMEM under the commands (20_memory.md R76, R79): a command stores at most to the bytes its word names, and nothing
else it leaves depends on any DMEM byte outside them. -/

namespace Sys2Proof.Machine

/-! ### What a command does to DMEM -/

section
variable {i : Instr} {s t : State}

/-- A completed command leaves DMEM, or is a store of an integer at its own address. -/
theorem Completes.dmem (h : Completes i s t) : t.dmem = s.dmem ∨
    ∃ (addr : Imm) (n v : Nat), dataStore i = some (dataAddr addr, n) ∧ t.dmem = (s.storeInt addr n v).dmem := by
  cases h with
  | store addr n v _ hs => exact .inr ⟨addr, n, v, hs, rfl⟩
  | loop => left; split <;> rfl
  | _ => exact .inl rfl

/-- Every command leaves DMEM, also where it takes an exception (60_exceptions.md R350), or stores at its own address. -/
theorem exec_dmem (h : exec i s = .next t) : t.dmem = s.dmem ∨
    ∃ (addr : Imm) (n v : Nat), dataStore i = some (dataAddr addr, n) ∧ t.dmem = (s.storeInt addr n v).dmem := by
  rcases exec_cases h with hc | ⟨e, -, rfl⟩
  · exact hc.dmem
  · exact .inl rfl

/-- No command changes the power-on draw, which unwritten addresses read as (log 3). -/
theorem exec_powerOn (h : exec i s = .next t) : t.env.powerOn = s.env.powerOn := by
  rcases exec_cases h with hc | ⟨e, -, rfl⟩
  · exact hc.powerOn
  · rfl

end

/-- Settles O18: a command leaves DMEM or stores at its own address, and a store leaves the bytes outside its range. -/
theorem dataMemoryOutsideTheStoreIsUnchanged : Obligations.DataMemoryOutsideTheStoreIsUnchanged := by
  intro i s t h
  have hdraw := exec_powerOn h
  rcases exec_dmem h with hm | ⟨addr, n, v, hs, hm⟩
  · have hbyte := State.dmemByte_congr hm hdraw
    exact ⟨fun _ => ⟨hm, hbyte⟩, fun _ _ a _ => hbyte a⟩
  · refine ⟨fun hnone => absurd (hs.symm.trans hnone) (by simp), fun r hr a ha => ?_⟩
    obtain rfl : (dataAddr addr, n) = r := Option.some.inj (hs.symm.trans hr)
    exact (State.dmemByte_congr (s := s.storeInt addr n v) hm hdraw a).trans (dmemByte_storeInt_outside s addr n v ha)

/-! ### What a command reads of DMEM -/

/-- The state with another DMEM in a build with another CHECKED: what a command's answer does not depend on, its own bytes
apart (20_memory.md R79, 60_exceptions.md R345). -/
def State.withDmemChecked (s : State) (m : Memory 8) (c : Bool) : State :=
  { s with dmem := m, build := { s.build with checked := c } }

section
variable {s : State} {m : Memory 8} {c : Bool}

theorem readBytes_withDmemChecked {a n : Nat}
    (h : ∀ b, a ≤ b → b < a + n → (s.withDmemChecked m c).dmemByte b = s.dmemByte b) :
    (s.withDmemChecked m c).readBytes a n = s.readBytes a n := by
  refine List.map_congr_left fun k hk => h (a + k) (Nat.le_add_right a k) ?_
  have := List.mem_range.mp hk
  omega

/-- A load gives the same integer, or the same exception, from the bytes of its range. -/
theorem memRead_withDmemChecked {a n : Nat}
    (h : ∀ b, a ≤ b → b < a + n → (s.withDmemChecked m c).dmemByte b = s.dmemByte b) :
    (s.withDmemChecked m c).memRead a n = s.memRead a n := by
  unfold State.memRead
  rw [readBytes_withDmemChecked h]
  rfl

/-- From `s` the answer is `r`, from `s` with DMEM `m` and CHECKED `c` it is `r'`: the same state but for those two, and the
same DMEM too where `m` is that of `s`. -/
def AnswersAlike (s : State) (m : Memory 8) (c : Bool) (r r' : StepResult) : Prop :=
  ∀ t, r = .next t → ∃ m', r' = .next (t.withDmemChecked m' c) ∧ (m = s.dmem → m' = t.dmem)

/-- A read or a check that answers the same in both states goes on alike, or raises the same exception in both. -/
theorem AnswersAlike.bind {α : Type} {x x' : Except Cause α} {f f' : α → Except Cause State}
    (h : ∀ v, AnswersAlike s m c (s.run (f v)) ((s.withDmemChecked m c).run (f' v))) (hx : x' = x := by rfl) :
    AnswersAlike s m c (s.run (x >>= f)) ((s.withDmemChecked m c).run (x' >>= f')) := by
  subst hx
  cases x' with
  | ok v => exact h v
  | error e =>
    intro t ht
    obtain rfl := next_eq_next.mp ht
    exact ⟨m, rfl, id⟩

/-- A command that completes and does not store. -/
theorem AnswersAlike.keep {t : State} (hm : t.dmem = s.dmem := by rfl) :
    AnswersAlike s m c (s.run (pure t)) ((s.withDmemChecked m c).run (pure (t.withDmemChecked m c))) := by
  intro u hu
  obtain rfl := next_eq_next.mp hu
  exact ⟨m, rfl, fun h => h.trans hm.symm⟩

/-- A store of the same integer at the same address. -/
theorem AnswersAlike.store (addr : Imm) (n v : Nat) : AnswersAlike s m c (s.run (pure (s.storeInt addr n v).advance))
    ((s.withDmemChecked m c).run (pure ((s.withDmemChecked m c).storeInt addr n v).advance)) := by
  intro u hu
  obtain rfl := next_eq_next.mp hu
  exact ⟨((s.withDmemChecked m c).storeInt addr n v).dmem, rfl, fun h => congrArg (Memory.writeSeq · _ _) h⟩

end

/-- Every command answers alike where its own bytes are the same. The cases go by how many reads and checks a command makes
before it completes. -/
theorem exec_answersAlike (i : Instr) (s : State) (m : Memory 8) (c : Bool)
    (h : ∀ r ∈ dataAccess i, ∀ a, r.1 ≤ a → a < r.1 + r.2 → (s.withDmemChecked m c).dmemByte a = s.dmemByte a) :
    AnswersAlike s m c (exec i s) (exec i (s.withDmemChecked m c)) := by
  cases i with
  | nop | halt | jmp | ldlc | cldi | fldi | sldi | aid | agen | pid | pgen => exact .keep
  | cnot | fmov | fnorm | fnormw | smov | sred | agetx | agety | aisid | aonc | amov | pa2p | ptoa | pisid | pmov =>
    exact .bind fun _ => .keep
  | cand | cor | cxor | fmuls | fneg | fsqr | fisz | fisodd | finv | fsqrt | sadd | smulw | seq | slt | aeq | pdbl =>
    exact .bind fun _ => .bind fun _ => .keep
  | fadd | fsel | ssel | asel | psel | psmul => exact .bind fun _ => .bind fun _ => .bind fun _ => .keep
  | fmul | feq | amk | padd | pmadd => exact .bind fun _ => .bind fun _ => .bind fun _ => .bind fun _ => .keep
  | loop d target =>
    refine .bind fun v => ?_
    by_cases hv : v - 1 = 0
    · simp only [if_pos hv]
      exact .keep
    · simp only [if_neg hv]
      exact .keep
  | fldb | sldb | wldb =>
    exact .bind (fun _ => .keep) (congrArg (· >>= _) (memRead_withDmemChecked (h _ rfl)))
  | fldbu =>
    exact .bind (fun _ => .bind fun _ => .keep) (congrArg (· >>= _) (memRead_withDmemChecked (h _ rfl)))
  | fstb a addr => exact .bind fun _ => .bind fun _ => .bind fun _ => .store addr _ _
  | sstb a addr => exact .bind fun _ => .bind fun _ => .store addr _ _
  | wstb a addr => exact .bind fun _ => .bind fun _ => .store addr _ _

/-- Settles O60: the other memory is one where the command's own bytes are the same, and its build is the same build. -/
theorem commandsReadOnlyTheirOwnBytes : Obligations.CommandsReadOnlyTheirOwnBytes := by
  intro i s t m h hi
  obtain ⟨m', hi', -⟩ := exec_answersAlike i s m s.build.checked h t hi
  have hb : t.build = s.build := (controlStateOutsideTheCommandIsUnchanged i s t hi).1
  refine ⟨_, hi', ?_⟩
  rw [State.withDmemChecked, ← hb]

end Sys2Proof.Machine
end

section
/-! PROOFS. The host's accesses to the two memory windows of an idle block (20_memory.md R83, R84). -/

namespace Sys2Proof.Machine

open Claims (beValue)

/-! ### The lanes of a DMEM word -/

/-- The word of four lanes is the integer the four bytes encode, the lowest address the most significant. -/
theorem toNat_dmemLanes (s : State) (a : Nat) : (s.dmemLanes a).toNat = beValue s a 4 := by
  have h1 := (s.dmemByte (a + 1)).isLt
  have h2 := (s.dmemByte (a + 2)).isLt
  have h3 := (s.dmemByte (a + 3)).isLt
  rw [State.dmemLanes, BitVec.toNat_append, BitVec.toNat_append, BitVec.toNat_append, ← Nat.shiftLeft_add_eq_or_of_lt h1,
    ← Nat.shiftLeft_add_eq_or_of_lt h2, ← Nat.shiftLeft_add_eq_or_of_lt h3]
  simp only [beValue, Finset.sum_range_succ, Finset.sum_range_zero, Nat.shiftLeft_eq, Nat.add_zero]
  omega

/-- The lanes of a stored word, bits 31:24 at the lowest address. -/
theorem toNat_dmemByte_storeLanes (s : State) (a : Nat) (d : BitVec 32) {k : Nat} (hk : k < 4) :
    ((s.storeBytes a (laneBytes d)).dmemByte (a + k)).toNat = d.toNat / 2 ^ (24 - 8 * k) % 256 := by
  rw [State.dmemByte_storeBytes_inside s a (laneBytes d) hk]
  interval_cases k <;> simp [laneBytes, BitVec.extractLsb'_toNat, Nat.shiftRight_eq_div_pow]

/-! ### Where the words of the windows lie -/

theorem target_imemWord {b : Build} {i : Nat} (h : i < b.imemWords) : target b (0x40000 + 4 * i) = .imemWord i := by
  have := imemWords_le b
  have hi : (0x40000 + 4 * i - 0x40000) / 4 = i := by omega
  rw [target, if_neg (by omega), if_pos (by omega), hi, if_pos h]

theorem target_dmemWord {b : Build} {a : Nat} (h : a < b.dmemBytes) : target b (0x80000 + a) = .dmemWord a := by
  have := dmemBytes_le b
  rw [target, if_neg (by omega), if_neg (by omega), if_pos (by omega), Nat.add_sub_cancel_left, if_pos h]

/-! ### Accesses of an idle block -/

section
variable {s : State} {i j : Nat} {d : BitVec 32} {rest : List HostMove}

theorem step_dmemWrite (hb : s.busy = false) (hj : 4 * j < s.build.dmemBytes)
    (hm : s.env.moves = .write (s.build.hostBase + 0x80000 + 4 * j) 4 d :: rest) :
    step s = .next (s.dropMove.storeBytes (4 * j) (laneBytes d)) := by
  have := dmemBytes_le s.build
  rw [step_registerWrite (Nat.add_assoc .. ▸ hm) (by omega) (by omega) fun _ => hb, target_dmemWord hj]
  rfl

theorem step_dmemRead (hb : s.busy = false) (hj : 4 * j < s.build.dmemBytes)
    (hm : s.env.moves = .read (s.build.hostBase + 0x80000 + 4 * j) 4 :: rest) :
    step s = .next { s with env := { s.env with moves := rest, busData := s.dmemLanes (4 * j) } } := by
  have := dmemBytes_le s.build
  rw [step_registerRead (Nat.add_assoc .. ▸ hm) (by omega) (by omega) fun _ => hb, target_dmemWord hj,
    if_neg (fun h => bit_absurd hb h.2)]
  rfl

theorem step_imemWrite (hb : s.busy = false) (hi : i < s.build.imemWords)
    (hm : s.env.moves = .write (s.build.hostBase + 0x40000 + 4 * i) 4 d :: rest) :
    step s = .next (s.dropMove.storeWord i d) := by
  have := imemWords_le s.build
  rw [step_registerWrite (Nat.add_assoc .. ▸ hm) (by omega) (by omega) fun _ => hb, target_imemWord hi]
  rfl

theorem step_imemRead (hb : s.busy = false) (hi : i < s.build.imemWords)
    (hm : s.env.moves = .read (s.build.hostBase + 0x40000 + 4 * i) 4 :: rest) :
    step s = .next { s with env := { s.env with moves := rest, busData := s.imemWord i } } := by
  have := imemWords_le s.build
  rw [step_registerRead (Nat.add_assoc .. ▸ hm) (by omega) (by omega) fun _ => hb, target_imemWord hi,
    if_neg (fun h => bit_absurd hb h.2)]
  rfl

end

/-- Settles O53: an accepted access of a memory word is a store or a read of that word, in DMEM by its four lanes. -/
theorem hostWindowReadsAndWrites : Obligations.HostWindowReadsAndWrites := by
  intro s j i d rest hb
  refine ⟨fun hj _ => ⟨fun hm => ?_, fun hm => ?_⟩, fun hi => ⟨fun hm => ?_, fun hm => ?_⟩⟩
  · have hlane {k : Nat} := toNat_dmemByte_storeLanes s.dropMove (4 * j) d (k := k)
    have htop : d.toNat / 2 ^ 24 % 256 = d.toNat / 2 ^ 24 := Nat.mod_eq_of_lt (by have := d.isLt; omega)
    refine ⟨_, step_dmemWrite hb hj hm, ?_, (hlane (k := 0) (by omega)).trans htop, hlane (k := 1) (by omega),
      hlane (k := 2) (by omega), ?_, fun a ha => State.dmemByte_storeBytes_outside s.dropMove _ _ ha⟩
    · rw [dropMove_of_cons hm]
      rfl
    · simpa using hlane (k := 3) (by omega)
  · exact ⟨_, step_dmemRead hb hj hm, toNat_dmemLanes s (4 * j)⟩
  · refine ⟨_, step_imemWrite hb hi hm, ?_, State.imemWord_storeWord_same _ i d,
      fun k hk => State.imemWord_storeWord_other s.dropMove d (Ne.symm hk)⟩
    rw [dropMove_of_cons hm]
    rfl
  · exact step_imemRead hb hi hm

end Sys2Proof.Machine
end

section
/-! PROOFS. The encoding (30_encoding.md): a word is its opcode and fields, the decoder said once as one equivalence, and the two
round trips between words and well-formed commands. -/

namespace Sys2Proof

open Machine (wf_of_decode)

/-! ### A word is its opcode, its fields and its must-be-zero bits (R101, R102) -/

theorem eq_iff_fields_R {w v : Word} : w = v ↔ w.extractLsb' 25 7 = v.extractLsb' 25 7 ∧
    w.extractLsb' 21 4 = v.extractLsb' 21 4 ∧ w.extractLsb' 17 4 = v.extractLsb' 17 4 ∧
    w.extractLsb' 13 4 = v.extractLsb' 13 4 ∧ w.extractLsb' 9 4 = v.extractLsb' 9 4 ∧
    w.extractLsb' 0 9 = v.extractLsb' 0 9 := by
  simp only [BitVec.toNat_eq, BitVec.extractLsb'_toNat, Nat.shiftRight_eq_div_pow]
  omega

theorem eq_iff_fields_I {w v : Word} : w = v ↔ w.extractLsb' 25 7 = v.extractLsb' 25 7 ∧
    w.extractLsb' 21 4 = v.extractLsb' 21 4 ∧ w.extractLsb' 17 4 = v.extractLsb' 17 4 ∧
    w.extractLsb' 16 1 = v.extractLsb' 16 1 ∧ w.extractLsb' 0 16 = v.extractLsb' 0 16 := by
  simp only [BitVec.toNat_eq, BitVec.extractLsb'_toNat, Nat.shiftRight_eq_div_pow]
  omega

theorem zeroBitsOk_R {w : Word} : Layout.R.zeroBitsOk w = true ↔ w.extractLsb' 0 9 = 0 := beq_iff_eq

theorem zeroBitsOk_I {w : Word} : Layout.I.zeroBitsOk w = true ↔ w.extractLsb' 16 1 = 0 := beq_iff_eq

/-- Assembling the fields read from a word gives the word back, when its must-be-zero bits are zero. -/
theorem toWord_ofWord {w : Word} {l : Layout} (h : l.zeroBitsOk w = true) :
    (Fields.ofWord w l).toWord (w.extractLsb' 25 7) l = w := by
  have hz := zero_toWord (w.extractLsb' 25 7) (Fields.ofWord w l) l
  cases l with
  | R =>
    rw [zeroBitsOk_R] at h hz
    exact eq_iff_fields_R.mpr ⟨code_toWord .., by simp [d_toWord, Fields.ofWord], by simp [a_toWord, Fields.ofWord],
      by simp [b_toWord, Fields.ofWord], by simp [c_toWord, Fields.ofWord], hz.trans h.symm⟩
  | I =>
    rw [zeroBitsOk_I] at h hz
    exact eq_iff_fields_I.mpr ⟨code_toWord .., by simp [d_toWord, Fields.ofWord], by simp [a_toWord, Fields.ofWord],
      hz.trans h.symm, imm_toWord ..⟩

/-! ### The command of fields, and the fields of a command -/

@[simp] theorem op_build (f : Fields) (op : Op) : (op.build f).op = op := by cases op <;> rfl

/-- The command built from fields keeps those its opcode uses. -/
theorem fields_build (f : Fields) (op : Op) : (op.build f).fields =
    ⟨if op.sig.d.isSome then f.d else 0, if op.sig.a.isSome then f.a else 0, if op.sig.b.isSome then f.b else 0,
      if op.sig.c.isSome then f.c else 0, if op.sig.imm = .none then 0 else f.imm⟩ := by
  cases op <;> rfl

theorem slotsOk_iff {g : Sig} {f : Fields} : g.slotsOk f = true ↔
    (g.d.isSome ∨ f.d = 0) ∧ (g.a.isSome ∨ f.a = 0) ∧ (g.b.isSome ∨ f.b = 0) ∧ (g.c.isSome ∨ f.c = 0) := by
  simp [Sig.slotsOk, and_assoc]

/-- A used slot is kept, an unused one is zero already. -/
theorem ite_of_or_eq_zero {c : Prop} [Decidable c] {r : Reg} (h : c ∨ r = 0) : (if c then r else 0) = r := by
  rcases h with h | h <;> simp [h]

/-- Legal fields are exactly those of the command built from them, so none of them is ignored (R103, R104). -/
theorem fields_build_of_ok {op : Op} {f : Fields} (hs : op.sig.slotsOk f = true) (hi : op.sig.immOk f = true) :
    (op.build f).fields = f := by
  obtain ⟨hd, ha, hb, hc⟩ := slotsOk_iff.mp hs
  have himm : (if op.sig.imm = .none then 0 else f.imm) = f.imm := by
    split
    · next hn =>
      have h0 : f.imm.toNat ≤ ImmUse.none.top := hn ▸ of_decide_eq_true hi
      exact (BitVec.eq_of_toNat_eq (Nat.le_zero.mp h0)).symm
    · rfl
  rw [fields_build, ite_of_or_eq_zero hd, ite_of_or_eq_zero ha, ite_of_or_eq_zero hb, ite_of_or_eq_zero hc, himm]

/-! ### The decoder -/

/-- R106, the conditions on a word that is legal for a command: its opcode, its must-be-zero bits, unused slots, and imm16. -/
structure LegalFor (op : Op) (w : Word) : Prop where
  code : w.extractLsb' 25 7 = op.code
  zeroBits : op.sig.layout.zeroBitsOk w = true
  slots : op.sig.slotsOk (Fields.ofWord w op.sig.layout) = true
  imm : op.sig.immOk (Fields.ofWord w op.sig.layout) = true

theorem legalFor_iff {op : Op} {w : Word} : LegalFor op w ↔ w.extractLsb' 25 7 = op.code ∧
    op.sig.layout.zeroBitsOk w = true ∧ op.sig.slotsOk (Fields.ofWord w op.sig.layout) = true ∧
    op.sig.immOk (Fields.ofWord w op.sig.layout) = true :=
  ⟨fun ⟨hcode, hz, hs, hi⟩ => ⟨hcode, hz, hs, hi⟩, fun ⟨hcode, hz, hs, hi⟩ => ⟨hcode, hz, hs, hi⟩⟩

/-- What the decoder answers, said once: the command of the opcode with the fields of a legal word. -/
theorem decode_eq_ok_iff {w : Word} {i : Instr} : decode w = .ok i ↔
    LegalFor i.op w ∧ i = i.op.build (Fields.ofWord w i.op.sig.layout) := by
  constructor
  · intro h
    unfold decode at h
    split at h
    · cases h
    · next op hop =>
      dsimp only at h
      split_ifs at h with hz hi
      obtain rfl := Except.ok.inj h
      simp only [Bool.not_eq_true', Bool.not_eq_false, Bool.and_eq_true] at hz hi
      rw [op_build]
      exact ⟨⟨(code_of_ofCode hop).symm, hz.1, hz.2, hi⟩, rfl⟩
  · rintro ⟨⟨hcode, hz, hs, hi⟩, hbuild⟩
    simp only [decode, hcode, ofCode_code, hz, hs, hi, Bool.and_self, Bool.not_true, Bool.false_eq_true, if_false]
    rw [← hbuild]

/-- A word that decodes has the opcode of its command. -/
theorem code_of_decode {w : Word} {i : Instr} (h : decode w = .ok i) : w.extractLsb' 25 7 = i.op.code :=
  (decode_eq_ok_iff.mp h).1.code

/-- The fields of the command a word decodes to are those of the word. -/
theorem fields_of_decode {w : Word} {i : Instr} (h : decode w = .ok i) : i.fields = Fields.ofWord w i.op.sig.layout := by
  obtain ⟨hl, hi⟩ := decode_eq_ok_iff.mp h
  exact (congrArg Instr.fields hi).trans (fields_build_of_ok hl.slots hl.imm)

/-- Some command of an opcode has a word exactly when the word is legal for it. -/
theorem legalFor_iff_decodes {op : Op} {w : Word} : LegalFor op w ↔ ∃ i, decode w = .ok i ∧ i.op = op := by
  constructor
  · intro h
    refine ⟨op.build (Fields.ofWord w op.sig.layout), decode_eq_ok_iff.mpr ?_, op_build _ _⟩
    rw [op_build]
    exact ⟨h, rfl⟩
  · rintro ⟨i, hi, rfl⟩
    exact (decode_eq_ok_iff.mp hi).1

/-! ### The round trips -/

/-- Reading the word of a command gives its fields back: those its layout lacks are zero (R101, R102). -/
theorem ofWord_encode (i : Instr) : Fields.ofWord (encode i) i.op.sig.layout = i.fields := by
  obtain ⟨-, -, -, hl⟩ := Laws.assembly_of_every_command i
  rw [encode, ofWord_toWord]
  generalize i.op.sig.layout = l at hl
  cases l <;> exact hl

theorem decode_encode {i : Instr} (h : i.wf = true) : decode (encode i) = .ok i := by
  obtain ⟨hbuild, hslots, himm, -⟩ := Laws.assembly_of_every_command i
  refine decode_eq_ok_iff.mpr ⟨⟨code_toWord .., zero_toWord .., ?_, ?_⟩, ?_⟩ <;> rw [ofWord_encode]
  · exact hslots
  · exact himm h
  · exact hbuild.symm

theorem encode_of_decode {w : Word} {i : Instr} (h : decode w = .ok i) : encode i = w := by
  rw [encode, fields_of_decode h, ← code_of_decode h]
  exact toWord_ofWord (decode_eq_ok_iff.mp h).1.zeroBits

/-- Settles O1: the fields of an assembled word are the operands, and they are legal. -/
theorem decodeOfEncodeIsTheCommand : Obligations.DecodeOfEncodeIsTheCommand := fun _ h => decode_encode h

/-- Settles O2: a legal word has no bit outside the opcode, the fields and zeros, and the command keeps every field. -/
theorem encodeOfDecodeIsTheWord : Obligations.EncodeOfDecodeIsTheWord := fun _ _ h =>
  ⟨wf_of_decode h, encode_of_decode h⟩

/-- Settles O4: each command is well formed and assembles to the word beside it. -/
theorem specExampleWordsDecode : Obligations.SpecExampleWordsDecode := by
  have hword : ∀ c ∈ Claims.specWords, c.2.wf = true ∧ encode c.2 = c.1 := by decide +kernel
  intro c hc
  obtain ⟨hwf, henc⟩ := hword c hc
  exact henc ▸ decode_encode hwf

end Sys2Proof
end

section
/-! PROOFS. The opcode table (30_encoding.md R106 to R110): a row's match and mask say when a word is legal for its command, and
the reserved opcodes are those of no row. -/

namespace Sys2Proof

open Machine (wf_build)
open Claims (Row opcodeTable reservedOpcode)

/-! ### Legal words by layout (R101 to R105) -/

theorem legalFor_iff_R {op : Op} {w : Word} (hl : op.sig.layout = .R) : LegalFor op w ↔
    w.extractLsb' 25 7 = op.code ∧ (op.sig.d.isSome ∨ regOfBits (w.extractLsb' 21 4) = 0) ∧
      (op.sig.a.isSome ∨ regOfBits (w.extractLsb' 17 4) = 0) ∧ (op.sig.b.isSome ∨ regOfBits (w.extractLsb' 13 4) = 0) ∧
      (op.sig.c.isSome ∨ regOfBits (w.extractLsb' 9 4) = 0) ∧ w.extractLsb' 0 9 = 0 := by
  have himm (d a b c : Reg) : op.sig.immOk ⟨d, a, b, c, 0⟩ = true := decide_eq_true (Nat.zero_le _)
  simp only [legalFor_iff, hl, himm, zeroBitsOk_R, slotsOk_iff, Fields.ofWord]
  tauto

theorem legalFor_iff_I {op : Op} {w : Word} (hl : op.sig.layout = .I) : LegalFor op w ↔
    w.extractLsb' 25 7 = op.code ∧ (op.sig.d.isSome ∨ regOfBits (w.extractLsb' 21 4) = 0) ∧
      (op.sig.a.isSome ∨ regOfBits (w.extractLsb' 17 4) = 0) ∧ w.extractLsb' 16 1 = 0 ∧
      (w.extractLsb' 0 16).toNat ≤ op.sig.imm.top := by
  simp only [legalFor_iff, hl, zeroBitsOk_I, slotsOk_iff, Fields.ofWord, Sig.immOk, decide_eq_true_eq]
  tauto

/-! ### Match and mask (R106) -/

/-- The mask of a slot: every bit where the slot must be zero, none where it names a register. -/
def slotMask (f : Option File) : BitVec 4 := if f.isSome then 0 else BitVec.allOnes 4

theorem and_slotMask {f : Option File} {x : BitVec 4} : x &&& slotMask f = bitsOfReg 0 ↔ f.isSome ∨ regOfBits x = 0 := by
  have hx : regOfBits x = 0 ↔ x = bitsOfReg 0 :=
    ⟨fun h => h ▸ (bitsOfReg_regOfBits x).symm, fun h => h ▸ regOfBits_bitsOfReg 0⟩
  cases f with
  | none => simp only [slotMask, Option.isSome_none, Bool.false_eq_true, if_false, BitVec.and_allOnes, false_or, hx]
  | some f => exact iff_of_true BitVec.and_zero (.inl rfl)

/-- What a row says of its command: the match is the opcode with zeros; the mask covers the opcode, the must-be-zero bits and
the slots that are not used; imm16 is bounded by its use in layout I alone. -/
abbrev RowDescribes (r : Row) : Prop :=
  r.pattern = Fields.toWord r.op.code ⟨0, 0, 0, 0, 0⟩ r.op.sig.layout ∧ r.mask.extractLsb' 25 7 = BitVec.allOnes 7 ∧
    r.mask.extractLsb' 21 4 = slotMask r.op.sig.d ∧ r.mask.extractLsb' 17 4 = slotMask r.op.sig.a ∧
    (r.op.sig.layout = .R → r.mask.extractLsb' 13 4 = slotMask r.op.sig.b ∧ r.mask.extractLsb' 9 4 = slotMask r.op.sig.c ∧
      r.mask.extractLsb' 0 9 = BitVec.allOnes 9 ∧ r.immTop = 0xFFFF) ∧
    (r.op.sig.layout = .I → r.mask.extractLsb' 16 1 = BitVec.allOnes 1 ∧ r.mask.extractLsb' 0 16 = 0 ∧
      r.immTop = r.op.sig.imm.top)

theorem opcodeTable_describes : ∀ r ∈ opcodeTable, RowDescribes r := by decide +kernel

/-- A word matches its row exactly when it is legal for the row's command: field by field, under the row's mask. -/
theorem matches_iff_legalFor {r : Row} (hr : RowDescribes r) (w : Word) :
    (w &&& r.mask = r.pattern ∧ (w.extractLsb' 0 16).toNat ≤ r.immTop) ↔ LegalFor r.op w := by
  obtain ⟨hpat, hcode, hd, ha, hR, hI⟩ := hr
  have hzero := zero_toWord r.op.code ⟨0, 0, 0, 0, 0⟩ r.op.sig.layout
  cases hl : r.op.sig.layout with rw [hl] at hpat hzero
  | R =>
    obtain ⟨hb, hc, hz, htop⟩ := hR hl
    have himm : (w.extractLsb' 0 16).toNat ≤ r.immTop := htop ▸ Nat.le_of_lt_succ (w.extractLsb' 0 16).isLt
    simp only [legalFor_iff_R hl, hpat, eq_iff_fields_R, BitVec.extractLsb'_and, hcode, hd, ha, hb, hc, hz, code_toWord,
      d_toWord, a_toWord, b_toWord, c_toWord, zeroBitsOk_R.mp hzero, BitVec.and_allOnes, and_slotMask, himm, and_true]
  | I =>
    obtain ⟨hz, himm, htop⟩ := hI hl
    have hlow : w.extractLsb' 0 16 &&& r.mask.extractLsb' 0 16 = 0 := by rw [himm]; exact BitVec.and_zero
    simp only [legalFor_iff_I hl, hpat, eq_iff_fields_I, BitVec.extractLsb'_and, hcode, hd, ha, hz, htop, code_toWord,
      d_toWord, a_toWord, imm_toWord, zeroBitsOk_I.mp hzero, BitVec.and_allOnes, and_slotMask, hlow, true_and,
      and_assoc]

/-- The operands of a legal word are its bit fields (R101, R102). -/
theorem operands_of_decode {w : Word} {i : Instr} (h : decode w = .ok i) :
    i.fields.d.val = w.toNat / 2 ^ 21 % 16 ∧ i.fields.a.val = w.toNat / 2 ^ 17 % 16 ∧
      (i.op.sig.layout = .R → i.fields.b.val = w.toNat / 2 ^ 13 % 16 ∧ i.fields.c.val = w.toNat / 2 ^ 9 % 16) ∧
      (i.op.sig.layout = .I → i.fields.imm.toNat = w.toNat % 2 ^ 16) := by
  have hslot (k : Nat) : (regOfBits (w.extractLsb' k 4)).val = w.toNat / 2 ^ k % 16 :=
    (BitVec.extractLsb'_toNat ..).trans (by rw [Nat.shiftRight_eq_div_pow])
  rw [fields_of_decode h]
  cases i.op.sig.layout with
  | R => exact ⟨hslot 21, hslot 17, fun _ => ⟨hslot 13, hslot 9⟩, nofun⟩
  | I => exact ⟨hslot 21, hslot 17, nofun, fun _ => BitVec.extractLsb'_toNat ..⟩

/-- Settles O3: each row's match and mask are those of its command, and a legal word's fields are the operands. -/
theorem legalWordsAreThoseOfTheTable : Obligations.LegalWordsAreThoseOfTheTable := by
  refine ⟨by decide, fun r hr w => ⟨?_, ?_⟩⟩
  · rw [matches_iff_legalFor (opcodeTable_describes r hr), legalFor_iff_decodes]
  · intro i hi hop
    rw [← hop]
    exact operands_of_decode hi

/-! ### Reserved opcodes (R109, R110) -/

/-- R110's list is that of the opcodes of no command. -/
theorem reservedOpcode_eq_isNone : ∀ c : BitVec 7, reservedOpcode c.toNat = (Op.ofCode c).isNone := by decide +kernel

/-- Zero is a legal value of every slot and every immediate, so every command of the table has a word. -/
theorem wf_build_zero (op : Op) : (op.build ⟨0, 0, 0, 0, 0⟩).wf = true := wf_build (decide_eq_true (Nat.zero_le _))

/-- Settles O5: an opcode in the list has no command, and one outside it has a command, whose word with zero operands decodes. -/
theorem reservedOpcodesAreIllegal : Obligations.ReservedOpcodesAreIllegal := by
  intro w
  rw [reservedOpcode_eq_isNone]
  refine ⟨fun hnone i hi => ?_, fun hsome => ?_⟩
  · rw [code_of_decode hi, ofCode_code] at hnone
    exact Bool.noConfusion hnone
  · obtain ⟨op, hop⟩ := Option.isSome_iff_exists.mp (Option.isNone_eq_false_iff.mp hsome)
    have hdec := decode_encode (wf_build_zero op)
    refine ⟨_, _, ?_, hdec⟩
    rw [code_of_decode hdec, op_build, code_of_ofCode hop]

end Sys2Proof
end

section
/-! PROOFS. FSUB (30_encoding.md R117): FNEG then FADD, as the assembler expands it. -/

namespace Sys2Proof.Machine

open Config (p)
open Claims (F)

/-- FNEG's contents (41_field.md R177). -/
def FElem.neg (x : FElem) (m : Imm) : FElem :=
  ⟨Limbs.zip (fun pl l => (m.setWidth 64 + 1) * pl - l) PL x.limb, m.toNat + 1, false⟩

/-- FADD's contents (41_field.md R175). -/
def FElem.add (x y : FElem) : FElem := ⟨Limbs.zip (· + ·) x.limb y.limb, x.mag + y.mag, false⟩

theorem Slot.eq_of_valid {α : Type} {e : Slot α} (h : e.valid = true) : e = ⟨true, e.val⟩ := h ▸ rfl

/-- The sum with a negation stands for the difference: the negation and its operand add up to a multiple of p. -/
theorem FElem.residue_add_neg {x y : FElem} {m : Imm} (hx : x.ok) (hy : y.ok) (hm : y.mag ≤ m.toNat)
    (h : x.mag + (y.neg m).mag ≤ Config.magMax) : ((x.add (y.neg m)).residue + y.residue) % p = x.residue := by
  have hm31 : m.toNat ≤ 31 := Nat.le_of_succ_le_succ (Nat.le_of_add_left_le h)
  obtain ⟨-, -, -, -, -, hneg, hbound⟩ := neg_lanes hy.2.1 hm hm31
  have hsum : (x.add (y.neg m)).limb.value = x.limb.value + (y.neg m).limb.value := (add_lanes hx.2.1 hbound h).1
  calc ((x.add (y.neg m)).residue + y.residue) % p
      = (x.limb.value + ((y.neg m).limb.value + y.limb.value)) % p := by
        rw [FElem.residue, FElem.residue, ← Nat.add_mod, hsum, Nat.add_assoc]
    _ = (x.limb.value + (m.toNat + 1) * p) % p := congrArg (fun v => (x.limb.value + v) % p) hneg
    _ = x.residue := Nat.add_mul_mod_self_right ..

section
variable {s : State} {d a b : Reg} {m : Imm} {x y : FElem}

theorem exec_fneg (hy : s.F.get b = ⟨true, y⟩) (hm : y.mag ≤ m.toNat) :
    exec (.fneg d b m) s = .next (s.writeF d (y.neg m)).advance :=
  (execFneg_eq s d b m).trans (by rw [hy, if_pos rfl, if_pos hm]; rfl)

theorem exec_fadd (hx : s.F.get a = ⟨true, x⟩) (hy : s.F.get b = ⟨true, y⟩) (h : x.mag + y.mag ≤ Config.magMax) :
    exec (.fadd d a b) s = .next (s.writeF d (x.add y)).advance :=
  (execFadd_eq s d a b).trans (by rw [hx, hy, if_pos rfl, if_pos rfl, if_pos h]; rfl)

/-- FNEG then FADD: when d is not a, FADD reads the F[a] that FNEG left, and the negation FNEG wrote. -/
theorem exec_fneg_fadd (hda : d ≠ a) (hx : s.F.get a = ⟨true, x⟩) (hy : s.F.get b = ⟨true, y⟩) (hm : y.mag ≤ m.toNat)
    (h : x.mag + (y.neg m).mag ≤ Config.magMax) :
    ∃ t u, exec (.fneg d b m) s = .next t ∧ exec (.fadd d a d) t = .next u ∧ u.F.get d = ⟨true, x.add (y.neg m)⟩ := by
  have hleft : (s.writeF d (y.neg m)).advance.F.get a = ⟨true, x⟩ := by simp [hda, hx]
  have hwrote : (s.writeF d (y.neg m)).advance.F.get d = ⟨true, y.neg m⟩ := by simp
  exact ⟨_, _, exec_fneg hy hm, exec_fadd hleft hwrote h, by simp⟩

end

/-- Settles O34: the sum FADD writes is that of F[a] and the negation of F[b]. -/
theorem subtractionPseudoInstruction : Obligations.SubtractionPseudoInstruction := by
  intro s d a b m
  refine ⟨fun hda => if_pos hda, fun hda => ⟨if_neg hda, fun ha hb hoka hokb hm hmag => ?_⟩⟩
  obtain ⟨t, u, hneg, hadd, hu⟩ := exec_fneg_fadd hda (Slot.eq_of_valid ha) (Slot.eq_of_valid hb) hm hmag
  refine ⟨t, u, hneg, hadd, congrArg Slot.valid hu, ?_, ?_⟩ <;> rw [F, hu]
  · rfl
  · exact FElem.residue_add_neg hoka hokb hm hmag

end Sys2Proof.Machine
end

section
/-! PROOFS. Sequencer and choice commands (40_control.md): what a turn of the running core is, that every step answers a next
state, and the next states of the commands of R131 to R140. -/

namespace Sys2Proof.Machine

open Claims (coreMoves atCommand)

/-! ### The end of a command -/

/-- A command's end is a next state, whether it completes or takes an exception (40_control.md R130, 60_exceptions.md R350). -/
theorem State.run_answers (s : State) (r : Except Cause State) : ∃ t, s.run r = .next t := by
  cases r with
  | ok t => exact ⟨t, s.run_ok t⟩
  | error e => exact ⟨takeException e s, s.run_error e⟩

/-- Every command's meaning ends through `State.run`, so none is refused and none stops the machine.
Eleven commands raise no exception of their own. -/
theorem exec_eq_run (i : Instr) (s : State) : ∃ r, exec i s = s.run r := by
  cases i with
  | nop | halt | jmp | ldlc | cldi | fldi | sldi | aid | agen | pid | pgen => exact ⟨.ok _, rfl⟩
  | _ => exact ⟨_, rfl⟩

theorem exec_answers (i : Instr) (s : State) : ∃ t, exec i s = .next t := by
  obtain ⟨r, hr⟩ := exec_eq_run i s
  exact hr ▸ s.run_answers r

/-! ### A turn of the core -/

theorem State.fetch_inside {s : State} (h : s.pc.toNat < s.build.imemWords) : s.fetch = .ok (s.imemWord s.pc.toNat) :=
  if_neg (Nat.not_le.mpr h)

theorem State.runCommand_of_decode {s : State} {i : Instr} (hpc : s.pc.toNat < s.build.imemWords)
    (hi : decode (s.imemWord s.pc.toNat) = .ok i) : s.runCommand = exec i s := by
  simp only [State.runCommand, State.fetch_inside hpc, decodeOrIllegal_eq_ok.mpr hi]

/-- Fetch, decode and execute each answer a next state: a failed fetch and an illegal word are exceptions, which are taken. -/
theorem State.runCommand_answers (s : State) : ∃ t, s.runCommand = .next t := by
  unfold State.runCommand
  split
  · exact ⟨_, rfl⟩
  · split
    · exact ⟨_, rfl⟩
    · exact exec_answers _ s

theorem State.coreTurn_busy {s : State} (h : s.busy = true) : s.coreTurn = s.noteReached.runCommand := if_pos h

theorem State.coreTurn_idle {s : State} (h : s.busy = false) : s.coreTurn = .next s := if_neg (by simp [h])

theorem State.coreTurn_answers (s : State) : ∃ t, s.coreTurn = .next t := by
  cases h : s.busy with
  | true => exact State.coreTurn_busy h ▸ s.noteReached.runCommand_answers
  | false => exact ⟨s, State.coreTurn_idle h⟩

/-- The state in which a running core executes is that of the model's two bookkeeping updates. -/
theorem noteReached_dropMove (s : State) : s.dropMove.noteReached = atCommand s := by
  by_cases h : s.pc ∈ s.env.reached <;> simp [State.noteReached, State.dropMove, atCommand, h]

theorem step_of_busy {s : State} (hb : s.busy = true) (hm : coreMoves s) : step s = (atCommand s).runCommand := by
  rw [step_of_coreMoves hm, State.coreTurn_busy (s := s.dropMove) hb, noteReached_dropMove]

/-- Settles O9: a core's turn answers a next state because every command ends through `State.run`; a host access and a
power-on reset have one by definition. -/
theorem everyStepAnswersANextState : Obligations.EveryStepAnswersANextState := by
  intro s
  cases hm : s.env.moves with
  | nil => exact step_noMoves hm ▸ s.coreTurn_answers
  | cons m rest =>
    cases m with
    | core => exact step_core hm ▸ s.dropMove.coreTurn_answers
    | read addr bytes => exact ⟨_, step_read hm⟩
    | write addr bytes d => exact ⟨_, step_write hm⟩
    | powerOn draw => exact ⟨_, step_powerOn hm⟩

/-- Settles O6: neither of the two updates before the fetch touches pc, IMEM or the build. -/
theorem stepRunsTheDecodedCommand : Obligations.StepRunsTheDecodedCommand := by
  intro s i hb hm hpc hi
  rw [step_of_busy hb hm]
  exact State.runCommand_of_decode (s := atCommand s) hpc hi

/-! ### The sequencer's commands -/

/-- Settles O20, by the equation of each command. -/
theorem sequencerCommandsComplete : Obligations.SequencerCommandsComplete := by
  intro s d target count
  refine ⟨execNop_eq s, ⟨s.finish, execHalt_eq s, rfl, fun hirq => ?_⟩, execJmp_eq s target, execLdlc_eq s d count⟩
  simp [State.irq, hirq]

/-- A counter's decrement as an integer: 0 wraps to 65535 (R135). -/
theorem counter_pred_toNat (v : BitVec 16) : (v - 1).toNat = (v.toNat + 65535) % 65536 := by
  rw [BitVec.toNat_sub, Nat.add_comm]; rfl

theorem counter_pred_eq_zero {v : BitVec 16} : v - 1 = 0 ↔ v.toNat = 1 := by bv_omega

/-- Settles O21: the decremented counter is 0 for a counter of 1 alone. -/
theorem loopDecrementsAndBranches : Obligations.LoopDecrementsAndBranches := by
  intro s d target hv
  refine ⟨(s.L.get d).val - 1, counter_pred_toNat _, (execLoop_eq s d target).trans ((if_pos hv).trans ?_)⟩
  simp only [counter_pred_eq_zero]
  split <;> rfl

/-! ### The choice commands -/

/-- CLDI's bit, where the decoder admits its immediate (30_encoding.md R105). -/
theorem getLsbD_zero_of_le_one {bit : Imm} (h : bit.toNat ≤ 1) : bit.getLsbD 0 = decide (bit.toNat = 1) := by
  rw [BitVec.getLsbD, Nat.testBit_zero, Nat.mod_eq_of_lt (Nat.lt_succ_of_le h)]

/-! The Boolean values of R137 to R140 as sums of bits. -/

theorem not_eq_decide (x : Bool) : (!x) = decide (x.toNat = 0) := by cases x <;> rfl

theorem and_eq_decide (x y : Bool) : (x && y) = decide (x.toNat + y.toNat = 2) := by cases x <;> cases y <;> rfl

theorem or_eq_decide (x y : Bool) : (x || y) = decide (0 < x.toNat + y.toNat) := by cases x <;> cases y <;> rfl

theorem xor_eq_decide (x y : Bool) : (x ^^ y) = decide (x.toNat + y.toNat = 1) := by cases x <;> cases y <;> rfl

/-- Settles O22: each command's equation with its bit written as the sum of its operands' bits. -/
theorem choiceCommandsComplete : Obligations.ChoiceCommandsComplete := by
  intro s d a b bit
  refine ⟨fun hbit => ?cldi, fun ha => ⟨?cnot, fun hb => ⟨?cand, ?cor, ?cxor⟩⟩⟩
  case cldi => exact getLsbD_zero_of_le_one hbit ▸ execCldi_eq s d bit
  case cnot => exact not_eq_decide _ ▸ (execCnot_eq s d a).trans (if_pos ha)
  case cand => exact and_eq_decide _ _ ▸ (execCand_eq s d a b).trans ((if_pos ha).trans (if_pos hb))
  case cor => exact or_eq_decide _ _ ▸ (execCor_eq s d a b).trans ((if_pos ha).trans (if_pos hb))
  case cxor => exact xor_eq_decide _ _ ▸ (execCxor_eq s d a b).trans ((if_pos ha).trans (if_pos hb))

end Sys2Proof.Machine
end

section
/-! PROOFS. The builds CHECKED = 1 and CHECKED = 0 (41_field.md R161, R191, 60_exceptions.md R345). -/

namespace Sys2Proof.Machine

/-- Settles O59: the answers are alike with the DMEM of `s` itself, so the next states differ in CHECKED alone. -/
theorem bothBuildsRunAlike : Obligations.BothBuildsRunAlike := by
  intro i s t c h
  obtain ⟨m, hm, hdmem⟩ := exec_answersAlike i s s.dmem c (fun _ _ _ _ _ => rfl) t h
  obtain rfl := hdmem rfl
  exact hm

end Sys2Proof.Machine
end

section
/-! PROOFS. The field engine's commands where their checks pass (41_field.md R170 to R187): the state each leaves and the
residue, magnitude and limbs of what it writes. -/

namespace Sys2Proof.Machine

open Config (p)
open Claims (F beValue standsFor)

/-! ### What a register stands for -/

theorem FElem.residue_lt (x : FElem) : x.residue < p := Nat.mod_lt _ p_pos

theorem FElem.value_ofCanonical {v : Nat} (h : v < p) : (FElem.ofCanonical v).limb.value = v :=
  value_limbs (lt_trans h p_lt)

theorem FElem.residue_ofCanonical {v : Nat} (h : v < p) : (FElem.ofCanonical v).residue = v := by
  rw [FElem.residue, FElem.value_ofCanonical h, Nat.mod_eq_of_lt h]

/-- A normalized register holds its residue itself (10_state.md R33). -/
theorem FElem.value_of_norm {x : FElem} (hx : x.ok) (hn : x.norm = true) : x.limb.value = x.residue := by
  rw [hx.2.2 hn, value_canon, FElem.residue]

/-- A multiplier-class result is one of the vectors R162 allows, whatever the script chooses. -/
theorem standsFor_ofMultiplier {r : Nat} (h : r < p) (other : Bool) : standsFor (FElem.ofMultiplier r other) r :=
  ⟨bounded_multiplierLimbs r other, value_multiplierLimbs h other, rfl, rfl⟩

/-! ### DMEM (R170 to R172, R192) -/

/-- Byte k of the encoding of what n bytes of DMEM encode is byte k of the n. -/
theorem byte_of_beValue (s : State) (a : Nat) {n k : Nat} (hk : k < n) :
    BitVec.ofNat 8 (beValue s a n / 256 ^ (n - 1 - k)) = s.dmemByte (a + k) := by
  have h := beBytes_beInt (s.readBytes a n)
  rw [readBytes_length, beInt_readBytes] at h
  have hget := List.getElem_of_eq h (i := k) (by simpa using hk)
  simpa [beBytes, State.readBytes, beValue] using hget

/-- FLDB (R170), with the integer the bytes encode written as the statements write it. -/
theorem exec_fldb (s : State) (d a : Reg) {addr : Imm} (hr : addr.toNat + 28 ≤ s.build.dmemBytes) :
    exec (.fldb d a addr) s = .next ((s.writeF d (FElem.ofCanonical
      (if beValue s addr.toNat 28 < p then beValue s addr.toNat 28 else 0))).writeC a
        (decide (beValue s addr.toNat 28 < p))).advance := by
  refine (execFldb_eq s d a addr).trans ((if_pos hr).trans ?_)
  simp only [decide_eq_true_eq, beInt_readBytes]
  rfl

/-- Settles O23: both commands write the canonical value of an integer below p. -/
theorem fieldLoadsDecode : Obligations.FieldLoadsDecode := by
  intro s d a addr hr v
  have hv : beInt (s.readBytes addr.toNat 28) = v := beInt_readBytes s addr.toNat 28
  have hchecked : (if v < p then v else 0) < p := by
    simpa only [decide_eq_true_eq] using checkedField_lt v
  refine ⟨⟨_, exec_fldb s d a hr, FElem.value_ofCanonical hchecked, bounded_limbs _, rfl, rfl⟩, fun hlt =>
    ⟨.ofCanonical v, (execFldbu_eq s d addr).trans ?_, FElem.value_ofCanonical hlt, bounded_limbs _, rfl, rfl⟩⟩
  rw [if_pos hr, hv, if_pos hlt]
  rfl

/-- FSTB of a normalized register (R172). -/
theorem exec_fstb {s : State} {a : Reg} {addr : Imm} {x : FElem} (hr : addr.toNat + 28 ≤ s.build.dmemBytes)
    (hx : s.F.get a = ⟨true, x⟩) (hn : x.norm = true) (hok : x.ok) :
    exec (.fstb a addr) s = .next (s.storeInt addr 28 x.residue).advance := by
  rw [← FElem.value_of_norm hok hn]
  exact (execFstb_eq s a addr).trans (by rw [if_pos hr, hx, if_pos rfl, if_pos hn])

/-- Settles O24: FSTB is a store of the residue, whose memory `m` is named so that no unification evaluates it. -/
theorem fieldStoreEncodes : Obligations.FieldStoreEncodes := by
  intro s a addr hr ha hn hok
  obtain ⟨m, hm⟩ : ∃ m, m = (s.storeInt addr 28 (F s a).residue).dmem := ⟨_, rfl⟩
  have hbyte := State.dmemByte_congr (t := { s with dmem := m }) hm rfl
  refine ⟨m, ?_, fun k hk => (hbyte _).trans ?_, fun b hb => (hbyte b).trans ?_⟩
  · rw [exec_fstb hr (Slot.eq_of_valid ha) hn hok, storeInt_advance, hm]
  · exact dmemByte_storeInt_inside s addr 28 _ hk
  · exact dmemByte_storeInt_outside s addr 28 _ hb

/-- Settles O32: FLDB leaves a normalized register whose residue is the integer at addr, and FSTB writes its bytes. -/
theorem fieldRoundTrip : Obligations.FieldRoundTrip := by
  intro s d c addr addr2 hr hr2 hlt
  have hload := exec_fldb s d c hr
  simp only [if_pos hlt, decide_eq_true hlt] at hload
  generalize ht : ((s.writeF d (FElem.ofCanonical (beValue s addr.toNat 28))).writeC c true).advance = t at hload
  have hbuild : t.build = s.build := by simp [← ht]
  have hd : t.F.get d = ⟨true, .ofCanonical (beValue s addr.toNat 28)⟩ := by simp [← ht]
  have hc : t.C.get c = ⟨true, true⟩ := by simp [← ht]
  have hfault : t.fault = s.fault := by simp [← ht]
  obtain ⟨m, hstore, hbytes, -⟩ := fieldStoreEncodes t d addr2 (hbuild ▸ hr2) (congrArg Slot.valid hd) (by rw [F, hd]; rfl)
    (by rw [F, hd]; exact FElem.ok_ofCanonical hlt)
  refine ⟨t, _, hload, hstore, hc, hfault, fun k hk => (hbytes k hk).trans ?_⟩
  rw [F, hd, FElem.residue_ofCanonical hlt]
  exact byte_of_beValue s addr.toNat hk

/-! ### Moves (R173, R174, R182) -/

/-- Settles O25: the literal is its own canonical vector. -/
theorem fieldLiteralMoveAndSelect : Obligations.FieldLiteralMoveAndSelect := by
  intro s d a b c literal
  refine ⟨⟨_, execFldi_eq s d literal, toNat_immLane literal, rfl, rfl, rfl, rfl, ?residue, rfl, rfl⟩, fun ha =>
    ⟨(execFmov_eq s d a).trans (if_pos ha), fun hb hc =>
      ⟨_, (execFsel_eq s d a b c).trans ((if_pos ha).trans ((if_pos hb).trans (if_pos hc))), fun hsel => ?one,
        fun hsel => ?zero, le_max_left _ _, le_max_right _ _, max_choice _ _⟩⟩⟩
  case residue =>
    rw [literalField_eq]
    exact FElem.residue_ofCanonical (lt_trans literal.isLt (by decide +kernel))
  case one => exact ⟨if_pos hsel, if_pos hsel⟩
  case zero => exact ⟨if_neg (by simp [hsel]), if_neg (by simp [hsel])⟩

/-! ### The limb-wise commands (R175 to R177, R193) -/

/-- Settles O26: within the magnitude precondition no lane wraps. -/
theorem limbwiseAddAndScale : Obligations.LimbwiseAddAndScale := by
  intro s d a b k ha hok
  obtain ⟨x0, x1, x2, x3, -⟩ := hok.2.1
  have x4 := Limbs.bounded_top hok.2.1
  refine ⟨fun hb hokb hm => ?add, fun hm _ => ?scale⟩
  case add =>
    obtain ⟨y0, y1, y2, y3, -⟩ := hokb.2.1
    have y4 := Limbs.bounded_top hokb.2.1
    refine ⟨_, exec_fadd (Slot.eq_of_valid ha) (Slot.eq_of_valid hb) hm, lane_add x0 y0 hm, lane_add x1 y1 hm,
      lane_add x2 y2 hm, lane_add x3 y3 hm, lane_add x4 y4 hm, ?_, rfl, rfl⟩
    have hsum := (add_lanes hok.2.1 hokb.2.1 hm).1
    exact (congrArg (· % p) hsum).trans (Nat.add_mod _ _ _)
  case scale =>
    refine ⟨_, (execFmuls_eq s d a k).trans ((if_pos ha).trans (if_pos hm)), lane_mul x0 hm, lane_mul x1 hm,
      lane_mul x2 hm, lane_mul x3 hm, lane_mul x4 hm, ?_, rfl, rfl⟩
    have hprod := (mul_lanes hok.2.1 hm).1
    exact (congrArg (· % p) hprod).trans (Nat.mod_mul_mod _ _ _).symm

/-- Settles O27: each lane and the operand's add up to (m + 1) · PL_j, so the values add up to a multiple of p. -/
theorem negationIsExact : Obligations.NegationIsExact := by
  intro s d a m ha hok hm hm31
  obtain ⟨e0, e1, e2, e3, e4, hsum, hbound⟩ := neg_lanes hok.2.1 hm hm31
  refine ⟨_, exec_fneg (Slot.eq_of_valid ha) hm, e0, e1, e2, e3, e4, hbound, ?_, rfl, rfl⟩
  calc (((F s a).neg m).residue + (F s a).residue) % p
      = (((F s a).neg m).limb.value + (F s a).limb.value) % p := (Nat.add_mod _ _ _).symm
    _ = (m.toNat + 1) * p % p := congrArg (· % p) hsum
    _ = 0 := Nat.mul_mod_left _ _

/-- An element with its own negation stands for 0. -/
theorem FElem.residue_add_neg_self {x : FElem} {m : Imm} (hx : x.ok) (hm : x.mag ≤ m.toNat)
    (h : x.mag + (x.neg m).mag ≤ Config.magMax) : (x.add (x.neg m)).residue = 0 := by
  have hdiff := FElem.residue_add_neg hx hx hm h
  have hcongr : (x.add (x.neg m)).residue + x.residue ≡ 0 + x.residue [MOD p] := by
    rw [Nat.zero_add, Nat.ModEq, hdiff, Nat.mod_eq_of_lt x.residue_lt]
  exact (Nat.ModEq.add_right_cancel' _ hcongr).eq_of_lt_of_lt (FElem.residue_lt _) p_pos

/-- FNORM (R180): the canonical value of the residue. -/
theorem exec_fnorm {s : State} {d a : Reg} {x : FElem} (hx : s.F.get a = ⟨true, x⟩) :
    exec (.fnorm d a) s = .next (s.writeF d (FElem.ofCanonical x.residue)).advance :=
  (execFnorm_eq s d a).trans (by rw [hx, if_pos rfl]; rfl)

/-- Settles O33: FADD reads the F[x] that FNEG left, as t is not x, and FNORM writes the canonical vector of 0. -/
theorem negationLaw : Obligations.NegationLaw := by
  intro s x t r m hxt hx hok hm hmag
  have hleft : (s.writeF t ((F s x).neg m)).advance.F.get x = ⟨true, F s x⟩ :=
    (RegFile.get_write_other _ _ hxt.symm).trans (Slot.eq_of_valid hx)
  have hneg : (s.writeF t ((F s x).neg m)).advance.F.get t = ⟨true, (F s x).neg m⟩ := RegFile.get_write_same _ _ _
  refine ⟨_, _, _, exec_fneg (Slot.eq_of_valid hx) hm, exec_fadd hleft hneg hmag,
    exec_fnorm (RegFile.get_write_same _ _ _), (RegFile.get_write_same _ _ _).trans ?_⟩
  rw [FElem.residue_add_neg_self hok hm hmag]
  rfl

/-- Settles O30: FNORM's contents are the canonical value of the operand's residue. -/
theorem normalizationIsCanonical : Obligations.NormalizationIsCanonical := by
  intro s d a ha
  exact ⟨_, exec_fnorm (Slot.eq_of_valid ha), FElem.value_ofCanonical (FElem.residue_lt _), bounded_limbs _, rfl, rfl⟩

/-! ### The multiplier (R162, R178, R179, R181, R186, R187) -/

/-- Settles O28: each command hands a residue below p to `writeMultiplier`. -/
theorem multiplierResultsStandForTheProduct : Obligations.MultiplierResultsStandForTheProduct := by
  intro s d a b ha
  have stands : ∀ v : Nat, standsFor (.ofMultiplier (v % p) s.nextRedundant) (v % p) := fun v =>
    standsFor_ofMultiplier (Nat.mod_lt v p_pos) _
  refine ⟨fun hb hma hmb => ⟨_, ?fmul, stands _⟩, fun hma => ⟨⟨_, ?fsqr, stands _⟩, ⟨_, ?finv, stands _⟩⟩,
    ⟨_, ?fnormw, stands _⟩⟩
  case fmul =>
    exact (execFmul_eq s d a b).trans ((if_pos ha).trans ((if_pos hb).trans ((if_pos hma).trans (if_pos hmb))))
  case fsqr => exact (execFsqr_eq s d a).trans ((if_pos ha).trans (if_pos hma))
  case finv =>
    rw [← invMod_eq]
    exact (execFinv_eq s d a).trans ((if_pos ha).trans (if_pos hma))
  case fnormw => exact (execFnormw_eq s d a).trans (if_pos ha)

/-- The model adds p - 1 where the spec takes 1 away. -/
theorem add_pred_modEq {m : Nat} (hm : 0 < m) (i : Nat) : ((i + (m - 1) : Nat) : Int) ≡ i - 1 [ZMOD m] := by
  refine Int.modEq_iff_dvd.mpr ⟨-1, ?_⟩
  rw [Nat.cast_add, Nat.cast_pred hm]
  ring

/-- Settles O29: the candidate is R187's, and FSQRT compares its square with the operand's residue. -/
theorem squareRootCandidateAndFlag : Obligations.SquareRootCandidateAndFlag := by
  intro s d a c ha hm u v i
  refine ⟨_, sqrtCandidate u, sqrtCandidate_lt u, ?candidate, standsFor_ofMultiplier (sqrtCandidate_lt u) s.nextRedundant,
    (execFsqrt_eq s d a c).trans ((if_pos ha).trans ((if_pos hm).trans ?flag))⟩
  case candidate =>
    rw [sqrtCandidate_eq]
    calc ((u * v * (i + (p - 1)) % p : Nat) : Int)
        ≡ (u * v * (i + (p - 1)) : Nat) [ZMOD p] := by rw [Int.natCast_mod]; exact Int.mod_modEq _ _
      _ = u * v * (i + (p - 1) : Nat) := by rw [Nat.cast_mul, Nat.cast_mul]
      _ ≡ u * v * (i - 1) [ZMOD p] := (add_pred_modEq p_pos i).mul_left _
  case flag =>
    rw [beq_eq_decide]
    rfl

/-! ### Predicates (R183 to R185) -/

theorem limbsEqual_iff {x y : Limbs} : limbsEqual x y = true ↔ x = y := by
  cases x
  cases y
  simp [limbsEqual, and_assoc]

/-- Normalized registers hold equal limbs exactly when they stand for one residue. -/
theorem FElem.limb_eq_iff {x y : FElem} (hx : x.ok) (hy : y.ok) (hxn : x.norm = true) (hyn : y.norm = true) :
    x.limb = y.limb ↔ x.residue = y.residue := by
  refine ⟨fun h => congrArg (·.value % p) h, fun h => ?_⟩
  calc x.limb = limbs x.residue := hx.2.2 hxn
    _ = limbs y.residue := by rw [h]
    _ = y.limb := (hy.2.2 hyn).symm

/-- Every weight but limb 0's is even. -/
theorem Limbs.value_mod_two (x : Limbs) : x.value % 2 = x.l0.toNat % 2 := by
  unfold Limbs.value
  omega

/-- Settles O31: the limbs and the value of a normalized register are those of its residue. -/
theorem fieldPredicatesDecideResidues : Obligations.FieldPredicatesDecideResidues := by
  intro s d a b ha hok hn
  have hvalue := FElem.value_of_norm hok hn
  refine ⟨fun hb hokb hnb => ?feq, ?fisz, ?fisodd⟩
  case feq =>
    have hbit : limbsEqual (F s a).limb (F s b).limb = decide ((F s a).residue = (F s b).residue) := by
      rw [Bool.eq_iff_iff, limbsEqual_iff, decide_eq_true_iff, FElem.limb_eq_iff hok hokb hn hnb]
    exact hbit ▸ (execFeq_eq s d a b).trans ((if_pos ha).trans ((if_pos hb).trans ((if_pos hn).trans (if_pos hnb))))
  case fisz =>
    have hbit : isZeroBit (F s a) = decide ((F s a).residue = 0) := by rw [isZeroBit, hvalue, beq_eq_decide]
    exact hbit ▸ (execFisz_eq s d a).trans ((if_pos ha).trans (if_pos hn))
  case fisodd =>
    have hbit : isOddBit (F s a) = decide ((F s a).residue % 2 = 1) := by
      rw [← hvalue, Limbs.value_mod_two, isOddBit, BitVec.getLsbD, Nat.testBit_zero]
    exact hbit ▸ (execFisodd_eq s d a).trans ((if_pos ha).trans (if_pos hn))

end Sys2Proof.Machine
end

section
/-! PROOFS. The scalar engine's commands where their checks pass (42_scalar.md R240 to R251): the state each leaves and the
integer of what it writes. -/

namespace Sys2Proof.Machine

open Claims (beValue)

/-! ### The integers the registers hold (R35, R36) -/

/-- A register holds an integer that fits its width. -/
theorem toNat_ofNat_of_lt {w v : Nat} (h : v < 2 ^ w) : (BitVec.ofNat w v).toNat = v :=
  (BitVec.toNat_ofNat v w).trans (Nat.mod_eq_of_lt h)

/-- In a build that meets R9 an integer below N fits a scalar register. -/
theorem toNat_scalar {b : Build} (hb : b.wf) {v : Nat} (h : v < b.n) : (BitVec.ofNat 256 v).toNat = v := by
  obtain ⟨-, -, hn, -⟩ := hb
  exact toNat_ofNat_of_lt (lt_trans h hn)

/-- The product of two scalars fits a wide register. -/
theorem toNat_product (x y : BitVec 256) : (BitVec.ofNat 512 (x.toNat * y.toNat)).toNat = x.toNat * y.toNat := by
  have hlt : x.toNat * y.toNat < 2 ^ 256 * 2 ^ 256 := Nat.mul_lt_mul'' x.isLt y.isLt
  exact toNat_ofNat_of_lt (w := 256 + 256) (lt_of_lt_of_eq hlt (pow_add 2 256 256).symm)

/-- A 64-byte encoding fits a wide register. -/
theorem toNat_wide (s : State) (a : Nat) : (BitVec.ofNat 512 (beValue s a 64)).toNat = beValue s a 64 := by
  have hlt : beValue s a 64 < (2 ^ 8) ^ 64 := lt_of_eq_of_lt (beInt_readBytes s a 64).symm (beInt_readBytes_lt s a 64)
  exact toNat_ofNat_of_lt (w := 8 * 64) (lt_of_lt_of_eq hlt (pow_mul 2 8 64).symm)

/-! ### Loads (R240, R247) -/

/-- What SLDB's checked decode makes of an encoded integer (R240): the integer where it is below N, else 0. -/
def checkedScalar (b : Build) (v : Nat) : Nat := if v < b.n then v else 0

/-- SLDB's scalar holds the checked integer itself. -/
theorem toNat_checkedScalar {b : Build} (hb : b.wf) (v : Nat) :
    (BitVec.ofNat 256 (checkedScalar b v)).toNat = checkedScalar b v :=
  toNat_scalar hb (by simpa only [checkedScalar, decide_eq_true_eq] using checkedScalar_lt hb v)

/-- SLDB (R240), with the integer the bytes encode written as the statements write it. -/
theorem exec_sldb (s : State) (d a : Reg) {addr : Imm} (hr : addr.toNat + 32 ≤ s.build.dmemBytes) :
    exec (.sldb d a addr) s = .next ((s.writeS d (BitVec.ofNat 256 (checkedScalar s.build
      (beValue s addr.toNat 32)))).writeC a (decide (beValue s addr.toNat 32 < s.build.n))).advance := by
  refine (execSldb_eq s d a addr).trans ((if_pos hr).trans ?_)
  simp only [decide_eq_true_eq, beInt_readBytes]
  rfl

/-- WLDB (R247), in the same way. -/
theorem exec_wldb (s : State) (d : Reg) {addr : Imm} (hr : addr.toNat + 64 ≤ s.build.dmemBytes) :
    exec (.wldb d addr) s = .next (s.writeW d (BitVec.ofNat 512 (beValue s addr.toNat 64))).advance := by
  refine (execWldb_eq s d addr).trans ((if_pos hr).trans ?_)
  simp only [beInt_readBytes]
  rfl

/-- Settles O35: both commands write an integer that fits the register. -/
theorem scalarLoadsDecode : Obligations.ScalarLoadsDecode := by
  intro s d a addr hb
  exact ⟨fun hr => ⟨_, exec_sldb s d a hr, toNat_checkedScalar hb _⟩, fun hr => ⟨_, exec_wldb s d hr, toNat_wide s _⟩⟩

/-! ### Stores (R241, R248, R257) -/

/-- A store command's next state and the bytes it holds, for an integer of any size. -/
theorem storeInt_advance_bytes (s : State) (addr : Imm) (n v : Nat) :
    ∃ m : Memory 8, (s.storeInt addr n v).advance = { s with dmem := m, pc := s.pc + 1 } ∧
      (∀ k < n, ({ s with dmem := m } : State).dmemByte (dataAddr addr + k) = BitVec.ofNat 8 (v / 256 ^ (n - 1 - k))) ∧
      ∀ b, (b < dataAddr addr ∨ dataAddr addr + n ≤ b) → ({ s with dmem := m } : State).dmemByte b = s.dmemByte b :=
  ⟨_, storeInt_advance s addr n v, fun _ hk => dmemByte_storeInt_inside s addr n v hk,
    fun _ hb => dmemByte_storeInt_outside s addr n v hb⟩

/-- SSTB of a VALID register (R241). -/
theorem exec_sstb {s : State} {a : Reg} {addr : Imm} {x : BitVec 256} (hr : addr.toNat + 32 ≤ s.build.dmemBytes)
    (hx : s.S.get a = ⟨true, x⟩) : exec (.sstb a addr) s = .next (s.storeInt addr 32 x.toNat).advance :=
  (execSstb_eq s a addr).trans (by rw [if_pos hr, hx, if_pos rfl])

/-- WSTB of a VALID register (R248). -/
theorem exec_wstb {s : State} {a : Reg} {addr : Imm} {x : BitVec 512} (hr : addr.toNat + 64 ≤ s.build.dmemBytes)
    (hx : s.W.get a = ⟨true, x⟩) : exec (.wstb a addr) s = .next (s.storeInt addr 64 x.toNat).advance :=
  (execWstb_eq s a addr).trans (by rw [if_pos hr, hx, if_pos rfl])

/-- Settles O36: each command is a store of the register's integer. -/
theorem scalarStoresEncode : Obligations.ScalarStoresEncode := by
  intro s a addr
  constructor
  · intro hr ha
    obtain ⟨m, hnext, hbytes⟩ := storeInt_advance_bytes s addr 32 (s.S.get a).val.toNat
    exact ⟨m, by rw [exec_sstb hr (Slot.eq_of_valid ha), hnext], hbytes⟩
  · intro hr ha
    obtain ⟨m, hnext, hbytes⟩ := storeInt_advance_bytes s addr 64 (s.W.get a).val.toNat
    exact ⟨m, by rw [exec_wstb hr (Slot.eq_of_valid ha), hnext], hbytes⟩

/-- Settles O40: SLDB leaves the checked integer in S[d], and SSTB writes its bytes: those it was read from, or zeros. -/
theorem scalarRoundTrip : Obligations.ScalarRoundTrip := by
  intro s d c addr addr2 hb hr hr2
  have hload := exec_sldb s d c hr
  have hvalue := toNat_checkedScalar hb (beValue s addr.toNat 32)
  generalize BitVec.ofNat 256 (checkedScalar s.build (beValue s addr.toNat 32)) = x at hload hvalue
  generalize ht : ((s.writeS d x).writeC c (decide (beValue s addr.toNat 32 < s.build.n))).advance = t at hload
  have hbuild : t.build = s.build := by simp [← ht]
  have hd : t.S.get d = ⟨true, x⟩ := by simp [← ht]
  have hc : t.C.get c = ⟨true, decide (beValue s addr.toNat 32 < s.build.n)⟩ := by simp [← ht]
  have hfault : t.fault = s.fault := by simp [← ht]
  obtain ⟨m, hstore, hbytes, -⟩ := (scalarStoresEncode t d addr2).1 (hbuild ▸ hr2) (congrArg Slot.valid hd)
  rw [hd, hvalue] at hbytes
  refine ⟨t, _, hload, hstore, hfault, fun hlt => ⟨hc.trans (by rw [decide_eq_true hlt]), fun k hk => ?valid⟩,
    fun hge => ⟨hc.trans (by rw [decide_eq_false (Nat.not_lt.mpr hge)]), fun k hk => ?invalid⟩⟩
  case valid =>
    refine (hbytes k hk).trans ?_
    rw [checkedScalar, if_pos hlt]
    exact byte_of_beValue s addr.toNat hk
  case invalid =>
    refine (hbytes k hk).trans ?_
    rw [checkedScalar, if_neg (Nat.not_lt.mpr hge), Nat.zero_div]
    rfl

/-! ### Moves and comparisons (R242, R243, R249 to R251) -/

theorem scalarEqual_eq_decide (x y : BitVec 256) : scalarEqual x y = decide (x.toNat = y.toNat) := by
  rw [scalarEqual, beq_eq_decide, decide_eq_decide, BitVec.toNat_inj]

/-- Settles O37: the literal fits the register, and SEQ compares the integers. -/
theorem scalarMovesSelectAndCompare : Obligations.ScalarMovesSelectAndCompare := by
  intro s d a b c literal
  refine ⟨⟨_, execSldi_eq s d literal, BitVec.toNat_setWidth_of_le (by decide)⟩, fun ha => ⟨?smov, fun hb =>
    ⟨fun hc => ?ssel, ?seq, ?slt⟩⟩⟩
  case smov => exact (execSmov_eq s d a).trans (if_pos ha)
  case ssel => exact (execSsel_eq s d a b c).trans ((if_pos ha).trans ((if_pos hb).trans (if_pos hc)))
  case seq =>
    rw [← scalarEqual_eq_decide]
    exact (execSeq_eq s d a b).trans ((if_pos ha).trans (if_pos hb))
  case slt => exact (execSlt_eq s d a b).trans ((if_pos ha).trans (if_pos hb))

/-! ### Arithmetic (R244 to R246, R256) -/

/-- SADD of VALID registers (R244). -/
theorem exec_sadd {s : State} {d a b : Reg} {x y : BitVec 256} (hx : s.S.get a = ⟨true, x⟩) (hy : s.S.get b = ⟨true, y⟩) :
    exec (.sadd d a b) s = .next (s.writeS d (BitVec.ofNat 256 ((x.toNat + y.toNat) % s.build.n))).advance :=
  (execSadd_eq s d a b).trans (by rw [hx, hy, if_pos rfl, if_pos rfl])

/-- SMULW of VALID registers (R245). -/
theorem exec_smulw {s : State} {d a b : Reg} {x y : BitVec 256} (hx : s.S.get a = ⟨true, x⟩) (hy : s.S.get b = ⟨true, y⟩) :
    exec (.smulw d a b) s = .next (s.writeW d (BitVec.ofNat 512 (x.toNat * y.toNat))).advance :=
  (execSmulw_eq s d a b).trans (by rw [hx, hy, if_pos rfl, if_pos rfl])

/-- SRED of a VALID register (R246). -/
theorem exec_sred {s : State} {d a : Reg} {w : BitVec 512} (hw : s.W.get a = ⟨true, w⟩) :
    exec (.sred d a) s = .next (s.writeS d (BitVec.ofNat 256 (w.toNat % s.build.n))).advance :=
  (execSred_eq s d a).trans (by rw [hw, if_pos rfl])

/-- A residue mod N fits a scalar register. -/
theorem toNat_mod_n {b : Build} (hb : b.wf) (v : Nat) : (BitVec.ofNat 256 (v % b.n)).toNat = v % b.n :=
  toNat_scalar hb (Nat.mod_lt v (n_pos_of_wf hb))

/-- Settles O38: the residues and the product fit the registers they are written to. -/
theorem scalarArithmeticIsExact : Obligations.ScalarArithmeticIsExact := by
  intro s d a b hn
  refine ⟨fun ha hb => ⟨⟨_, ?sadd, toNat_mod_n hn _⟩, ⟨_, ?smulw, toNat_product _ _⟩⟩, fun ha => ⟨_, ?sred, toNat_mod_n hn _⟩⟩
  case sadd => exact exec_sadd (Slot.eq_of_valid ha) (Slot.eq_of_valid hb)
  case smulw => exact exec_smulw (Slot.eq_of_valid ha) (Slot.eq_of_valid hb)
  case sred => exact exec_sred (Slot.eq_of_valid ha)

/-- SMULW then SRED of its result leaves the product mod N. -/
theorem exec_smulw_sred {s : State} {w d a b : Reg} {x y : BitVec 256} (hx : s.S.get a = ⟨true, x⟩)
    (hy : s.S.get b = ⟨true, y⟩) : ∃ s1 s2 : State, exec (.smulw w a b) s = .next s1 ∧ exec (.sred d w) s1 = .next s2 ∧
      s2.S.get d = ⟨true, BitVec.ofNat 256 (x.toNat * y.toNat % s.build.n)⟩ := by
  refine ⟨_, _, exec_smulw hx hy, exec_sred (RegFile.get_write_same _ _ _), (RegFile.get_write_same _ _ _).trans ?_⟩
  rw [toNat_product]
  rfl

/-- Settles O39: both sequences leave the product mod N, and the product is commutative. -/
theorem commutativeReduction : Obligations.CommutativeReduction := by
  intro s a b x y u v hn ha hb
  obtain ⟨s1, s2, hmul, hred, hu⟩ := exec_smulw_sred (w := x) (d := u) (Slot.eq_of_valid ha) (Slot.eq_of_valid hb)
  obtain ⟨t1, t2, hmul', hred', hv⟩ := exec_smulw_sred (w := y) (d := v) (Slot.eq_of_valid hb) (Slot.eq_of_valid ha)
  have hvalue : (s2.S.get u).val.toNat = (s.S.get a).val.toNat * (s.S.get b).val.toNat % s.build.n := by
    rw [hu]
    exact toNat_mod_n hn _
  refine ⟨s1, s2, t1, t2, hmul, hred, hmul', hred', ?_, congrArg Slot.valid hu, hvalue, ?_⟩
  · rw [hu, hv, Nat.mul_comm]
  · exact hvalue ▸ Nat.mod_lt _ (n_pos_of_wf hn)

end Sys2Proof.Machine
end

section
/-! PROOFS. The group law of 43_point.md R271 to R279: the curve predicates as propositions, the formula lines
multiplied out, and the scan of the scalar's bits. -/

namespace Sys2Proof.Machine

open Claims (addForm dblForm onEquation onP onA)
open Fin.CommRing

/-! ### The curve predicates (R271) -/

theorem APoint.onCurve_iff {b : Fp} {q : APoint} : q.onCurve b = true ↔ onA b q := by
  rw [APoint.onCurve, onA, Bool.or_eq_true, beq_iff_eq]

theorem PPoint.onCurve_iff {b : Fp} {q : PPoint} : q.onCurve b = true ↔ onP b q := by
  simp only [PPoint.onCurve, onP, onEquation, Bool.and_eq_true, Bool.not_eq_true', ← Bool.not_eq_true,
    beq_iff_eq, and_assoc]

/-! ### The formulas multiplied out (R275 to R277) -/

theorem dbl_eq_dblForm (b : Fp) (q : PPoint) : dbl b q = dblForm b q := by
  simp only [dbl, dblForm, b3, PPoint.mk.injEq]
  exact ⟨by ring, by ring, by ring⟩

theorem add_eq_addForm (b : Fp) (q r : PPoint) : add b q r = addForm b q r := by
  simp only [add, addForm, b3, PPoint.mk.injEq]
  exact ⟨by ring, by ring, by ring⟩

/-- MADD's formula is ADD's with Z2 = 1 (R277). -/
theorem madd_eq_addForm (b : Fp) (q : PPoint) (x y : Fp) : madd b q x y = addForm b q ⟨x, y, 1⟩ := by
  simp only [madd, addForm, b3, PPoint.mk.injEq]
  exact ⟨by ring, by ring, by ring⟩

/-- Doubling keeps the curve equation (R278): with t = 3·B·Z², the equation of the double is 8·Y³·(Y² - 3·t)³ times
that of the operand. -/
theorem onEquation_dblForm {b : Fp} {q : PPoint} (h : onEquation b q) : onEquation b (dblForm b q) := by
  simp only [onEquation, dblForm] at h ⊢
  linear_combination 8 * q.y ^ 3 * (q.y ^ 2 - 9 * b * q.z ^ 2) ^ 3 * h

theorem dblForm_identity (b : Fp) : dblForm b PPoint.identity = PPoint.identity := by
  simp only [dblForm, PPoint.identity, PPoint.mk.injEq]
  exact ⟨by ring, by ring, by ring⟩

/-! ### The scan of the scalar (R279) -/

/-- One bit of R279: double, add the base, and keep the sum where the bit is 1. -/
def smulStep (b : Fp) (q : PPoint) (s : BitVec 256) (r : PPoint) (i : Nat) : PPoint :=
  if s.toNat / 2 ^ i % 2 = 1 then addForm b (dblForm b r) q else dblForm b r

theorem smulBits_succ (b : Fp) (q : PPoint) (s : BitVec 256) (n : Nat) (r : PPoint) :
    smulBits b q s (n + 1) r = smulBits b q s n (smulStep b q s r n) := by
  simp only [smulBits, smulStep, dbl_eq_dblForm, add_eq_addForm, BitVec.getLsbD, Nat.testBit_eq_decide_div_mod_eq,
    decide_eq_true_eq]

/-- The n steps are those of the bits n - 1 down to 0. -/
theorem smulBits_eq_foldl (b : Fp) (q : PPoint) (s : BitVec 256) (n : Nat) (r : PPoint) :
    smulBits b q s n r = (List.range n).foldl (fun t k => smulStep b q s t (n - 1 - k)) r := by
  induction n generalizing r with
  | zero => rfl
  | succ n ih =>
    have hindex : ∀ k, n + 1 - 1 - (k + 1) = n - 1 - k := fun k => by omega
    rw [smulBits_succ, ih, List.range_succ_eq_map, List.foldl_cons, List.foldl_map]
    simp only [hindex]
    rfl

/-- A scalar 0 keeps the identity at every bit. -/
theorem smulBits_zero (b : Fp) (q : PPoint) (n : Nat) : smulBits b q 0 n PPoint.identity = PPoint.identity := by
  induction n with
  | zero => rfl
  | succ n ih =>
    have hstep : smulStep b q 0 PPoint.identity n = PPoint.identity := by simp [smulStep, dblForm_identity]
    rw [smulBits_succ, hstep, ih]

/-! ### Recovery of affine coordinates (R291) -/

theorem val_mul_fpInv (x z : Fp) : (x * fpInv z).val = x.val * z.val ^ (Config.p - 2) % Config.p := by
  rw [Fin.val_mul, fpInv_val, Nat.mul_mod_mod]

/-- A triple with Z = 0 has the affine identity exactly, whatever X and Y are. -/
theorem PPoint.toAffine_of_z_eq_zero {q : PPoint} (hz : q.z = 0) : q.toAffine = APoint.identity := by
  simp only [PPoint.toAffine, hz, fpInv_zero, Fin.mul_zero, beq_self_eq_true, APoint.identity]

end Sys2Proof.Machine
end

section
/-! PROOFS. The point commands (43_point.md R280 to R300): the state each leaves where its checks pass, and the curve
contract of the group commands (R272). -/

namespace Sys2Proof.Machine

open Claims (onP dblForm faulted)

/-! ### Coordinates, constants, moves and predicates (R280 to R296) -/

/-- AMK's coordinate is the value of a normalized register (R280). -/
theorem val_ofNat_of_norm {x : FElem} (hx : x.ok) (hn : x.norm = true) :
    (Fin.ofNat Config.p x.limb.value).val = x.limb.value := (FElem.value_of_norm hx hn).symm

/-- Settles O41: a normalized register's value is below p, and so is a stored coordinate. -/
theorem coordinatesInAndOut : Obligations.CoordinatesInAndOut := by
  intro s d a b
  refine ⟨fun ha hb hoka hokb hna hnb =>
    ⟨⟨_, _, false⟩, ?amk, val_ofNat_of_norm hoka hna, val_ofNat_of_norm hokb hnb, rfl⟩, fun ha =>
    ⟨⟨_, ?agetx, FElem.value_ofCanonical (Fin.isLt _), bounded_limbs _, rfl, rfl⟩,
     ⟨_, ?agety, FElem.value_ofCanonical (Fin.isLt _), bounded_limbs _, rfl, rfl⟩⟩⟩
  case amk => exact (execAmk_eq s d a b).trans ((if_pos ha).trans ((if_pos hb).trans ((if_pos hna).trans (if_pos hnb))))
  case agetx => exact (execAgetx_eq s d a).trans (if_pos ha)
  case agety => exact (execAgety_eq s d a).trans (if_pos ha)

/-- Settles O42, by the equation of each command. -/
theorem pointConstantsMovesAndSelects : Obligations.PointConstantsMovesAndSelects := by
  intro s d a b c
  refine ⟨execAid_eq s d, execPid_eq s d, execAgen_eq s d, execPgen_eq s d, fun ha => ⟨?amov, fun hb hc => ?asel⟩,
    fun ha => ⟨?pmov, fun hb hc => ?psel⟩⟩
  case amov => exact (execAmov_eq s d a).trans (if_pos ha)
  case asel => exact (execAsel_eq s d a b c).trans ((if_pos ha).trans ((if_pos hb).trans (if_pos hc)))
  case pmov => exact (execPmov_eq s d a).trans (if_pos ha)
  case psel => exact (execPsel_eq s d a b c).trans ((if_pos ha).trans ((if_pos hb).trans (if_pos hc)))

theorem affineEqual_iff {q r : APoint} : affineEqual q r = true ↔ q.x = r.x ∧ q.y = r.y := by
  rw [affineEqual, Bool.and_eq_true, beq_iff_eq, beq_iff_eq]

/-- Settles O43: each command's bit is the Boolean form of its proposition. -/
theorem pointPredicatesComplete : Obligations.PointPredicatesComplete := by
  intro s d a b
  refine ⟨fun ha => ⟨?aisid, ⟨_, ?aonc, APoint.onCurve_iff⟩, fun hb => ⟨_, ?aeq, affineEqual_iff⟩⟩, fun ha => ?pisid⟩
  case aisid => exact (execAisid_eq s d a).trans (if_pos ha)
  case aonc => exact (execAonc_eq s d a).trans (if_pos ha)
  case aeq => exact (execAeq_eq s d a b).trans ((if_pos ha).trans (if_pos hb))
  case pisid =>
    rw [← beq_eq_decide]
    exact (execPisid_eq s d a).trans (if_pos ha)

/-- Settles O44: the coordinates of PTOA are products with the inverse of Z, and the identity's where Z = 0. -/
theorem pointConversions : Obligations.PointConversions := by
  intro s d a
  refine ⟨fun ha => ?pa2p, fun ha => ⟨_, ?ptoa, val_mul_fpInv _ _, val_mul_fpInv _ _, beq_eq_decide _ _,
    PPoint.toAffine_of_z_eq_zero⟩⟩
  case pa2p => exact (execPa2p_eq s d a).trans (if_pos ha)
  case ptoa => exact (execPtoa_eq s d a).trans (if_pos ha)

/-! ### The curve contract (R272, 60_exceptions.md R348) -/

/-- A check of a command's contract gives its fault, or leaves the answer to the rest of the command. -/
theorem guard_eq_faulted {c : Prop} [Decidable c] {e : Cause} (he : e.ofCommand) {r : StepResult} {s : State} :
    (if c then r else raised e s) = .next (faulted s e.code) ↔ ¬c ∨ r = .next (faulted s e.code) := by
  split
  · next h => exact (or_iff_right (not_not_intro h)).symm
  · next h => exact iff_of_true (congrArg Host.Outcome.next (takeException_eq_faulted he s)) (.inl h)

/-- A command that completes in a state without FAULT does not leave a fault entry. -/
theorem next_ne_faulted {s t : State} (hs : s.fault = false) (ht : t.fault = s.fault) (code : BitVec 8) :
    (.next t : StepResult) ≠ .next (faulted s code) := fun h => by
  have hfault : true = t.fault := congrArg State.fault (next_eq_next.mp h)
  exact Bool.noConfusion (hfault.trans (ht.trans hs))

/-- A command whose last check is one of the curve contract. -/
theorem curve_check_iff {c : Prop} [Decidable c] {s t : State} (hs : s.fault = false) (ht : t.fault = s.fault) :
    (if c then .next t else raised .curve s) = .next (faulted s 7) ↔ ¬c :=
  (guard_eq_faulted (e := .curve) (by decide)).trans (or_iff_left (next_ne_faulted hs ht _))

/-- A command whose last two checks are those of the curve contract. -/
theorem curve_checks_iff {c c' : Prop} [Decidable c] [Decidable c'] {s t : State} (hs : s.fault = false)
    (ht : t.fault = s.fault) :
    (if c then if c' then .next t else raised .curve s else raised .curve s) = .next (faulted s 7) ↔ ¬(c ∧ c') :=
  (guard_eq_faulted (e := .curve) (by decide)).trans ((or_congr_right (curve_check_iff hs ht)).trans not_and_or.symm)

/-- Settles O15: with VALID sources a group command has only the checks of its curve contract left. -/
theorem curveContractFaults : Obligations.CurveContractFaults := by
  intro s d a b hs ha
  simp only [← PPoint.onCurve_iff, ← APoint.onCurve_iff]
  refine ⟨?pdbl, fun hb => ?psmul, fun hb => ?padd, fun hb => ?pmadd⟩
  case pdbl =>
    have heq := (execPdbl_eq s d a).trans (if_pos ha)
    exact heq.congr_left.trans (curve_check_iff hs rfl)
  case psmul =>
    have heq := (execPsmul_eq s d a b).trans ((if_pos ha).trans (if_pos hb))
    exact heq.congr_left.trans (curve_check_iff hs rfl)
  case padd =>
    have heq := (execPadd_eq s d a b).trans ((if_pos ha).trans (if_pos hb))
    exact heq.congr_left.trans (curve_checks_iff hs rfl)
  case pmadd =>
    have heq := (execPmadd_eq s d a b).trans ((if_pos ha).trans (if_pos hb))
    exact heq.congr_left.trans (curve_checks_iff hs rfl)

/-! ### The group commands on the curve (R297 to R300) -/

/-- PDBL of a VALID on-curve register (R297). -/
theorem exec_pdbl {s : State} (d : Reg) {a : Reg} (ha : s.validAt (.P, a) = true)
    (hq : onP s.build.b (s.P.get a).val) :
    exec (.pdbl d a) s = .next (s.writeP d (dblForm s.build.b (s.P.get a).val)).advance := by
  rw [← dbl_eq_dblForm]
  exact (execPdbl_eq s d a).trans ((if_pos ha).trans (if_pos (PPoint.onCurve_iff.mpr hq)))

/-- Settles O45: PDBL writes the formula multiplied out. -/
theorem doublingFormula : Obligations.DoublingFormula := fun _ d _ ha hq => exec_pdbl d ha hq

/-- Settles O46: PADD and PMADD write the same formula, with Z2 = 1 for PMADD. -/
theorem additionFormulas : Obligations.AdditionFormulas := by
  intro s d a b ha hq
  refine ⟨fun hb hr => ?padd, fun hb hr => ?pmadd⟩
  case padd =>
    rw [← add_eq_addForm]
    exact (execPadd_eq s d a b).trans ((if_pos ha).trans ((if_pos hb).trans
      ((if_pos (PPoint.onCurve_iff.mpr hq)).trans (if_pos (PPoint.onCurve_iff.mpr hr)))))
  case pmadd =>
    rw [← madd_eq_addForm]
    exact (execPmadd_eq s d a b).trans ((if_pos ha).trans ((if_pos hb).trans
      ((if_pos (PPoint.onCurve_iff.mpr hq)).trans (if_pos (APoint.onCurve_iff.mpr hr)))))

/-- Settles O47: the recursion over the bits is the fold over their indices, and a scalar 0 keeps the identity. -/
theorem scalarMultiplicationScansAllBits : Obligations.ScalarMultiplicationScansAllBits := by
  intro s d a b ha hb hq
  refine ⟨smul s.build.b (s.P.get a).val (s.S.get b).val, ?psmul, smulBits_eq_foldl _ _ _ 256 _, fun h0 => ?zero⟩
  case psmul =>
    exact (execPsmul_eq s d a b).trans ((if_pos ha).trans ((if_pos hb).trans (if_pos (PPoint.onCurve_iff.mpr hq))))
  case zero =>
    rw [h0]
    exact smulBits_zero _ _ 256

/-- Settles O48: the triple PDBL writes is the doubling formula's, which keeps the curve equation. -/
theorem doublingKeepsTheCurveEquation : Obligations.DoublingKeepsTheCurveEquation := by
  intro s t d a ha hq ht
  obtain rfl : t = (s.writeP d (dblForm s.build.b (s.P.get a).val)).advance :=
    next_eq_next.mp ((exec_pdbl d ha hq).symm.trans ht)
  have hd : (s.writeP d (dblForm s.build.b (s.P.get a).val)).advance.P.get d =
      ⟨true, dblForm s.build.b (s.P.get a).val⟩ := RegFile.get_write_same _ _ _
  obtain ⟨heq, -⟩ := hq
  refine ⟨congrArg Slot.valid hd, ?_⟩
  rw [hd]
  exact onEquation_dblForm heq

end Sys2Proof.Machine
end

section
/-! PROOFS. The checks of a command in the order of 60_exceptions.md R360: the range of its DMEM access, the VALID bits of its
sources, then its contract (R341, R344 to R347). -/

namespace Sys2Proof.Machine

open Claims (faulted beValue)

/-! ### The order of the checks (R360) -/

/-- A fault entry records the code of its own exception only. -/
theorem raised_ne_faulted {e : Cause} {s : State} {code : BitVec 8} (h : e.code ≠ code) : raised e s ≠ .next (faulted s code) :=
  fun hr => h (congrArg State.cause (Host.Outcome.next.inj hr))

/-- An answer `r` from `s` that checks its DMEM access first and the VALID bits of `es` next: E_DADDR exactly where the access
leaves DMEM, and else E_UNINIT exactly where an entry of `es` is not VALID. -/
structure ChecksInOrder (s : State) (access : Option (Nat × Nat)) (es : List Entry) (r : StepResult) : Prop where
  daddr : r = .next (faulted s 3) ↔ ¬∀ q ∈ access, q.1 + q.2 ≤ s.build.dmemBytes
  uninit : (∀ q ∈ access, q.1 + q.2 ≤ s.build.dmemBytes) →
    (r = .next (faulted s 4) ↔ ¬∀ e ∈ es, s.validAt e = true)

namespace ChecksInOrder

variable {s : State} {r : StepResult} {es : List Entry}

/-- Nothing left to check: neither E_DADDR nor E_UNINIT. -/
theorem ofNe (h3 : r ≠ .next (faulted s 3)) (h4 : r ≠ .next (faulted s 4)) : ChecksInOrder s none [] r where
  daddr := iff_of_false h3 (by simp)
  uninit _ := iff_of_false h4 (by simp)

/-- A command that completes, FAULT kept. -/
theorem done (hs : s.fault = false) {t : State} (ht : t.fault = s.fault := by rfl) :
    ChecksInOrder s none [] (s.run (pure t)) :=
  ofNe (next_ne_faulted hs ht 3) (next_ne_faulted hs ht 4)

/-- A check of the contract, after which nothing is read. -/
theorem contract {c : Prop} [Decidable c] {e : Cause} {f : Unit → Except Cause State}
    (h : ChecksInOrder s none [] (s.run (f ()))) (he : e.code ≠ 3 ∧ e.code ≠ 4 := by decide) :
    ChecksInOrder s none [] (s.run (require c e >>= f)) := by
  rw [run_require]
  split
  · exact h
  · exact ofNe (raised_ne_faulted he.1) (raised_ne_faulted he.2)

/-- A read of an entry: E_UNINIT where it is not VALID, and else what the rest of the command answers. -/
theorem read {α : Type} {file : RegFile α} {i : Reg} {e : Entry} {f : α → Except Cause State}
    (h : ChecksInOrder s none es (s.run (f (file.get i).val))) (hv : s.validAt e = (file.get i).valid := by rfl) :
    ChecksInOrder s none (e :: es) (s.run (file.read i >>= f)) := by
  rw [run_read, ← hv]
  split
  · next he => exact ⟨h.daddr, fun hin => (h.uninit hin).trans (by simp [he])⟩
  · next he =>
    exact ⟨iff_of_false (raised_ne_faulted (by decide)) (by simp), fun _ => iff_of_true rfl (by simp [he])⟩

/-- A load, or the range check of a store: E_DADDR where the access leaves DMEM, whatever comes after it would answer. -/
theorem access {α : Type} {x : Except Cause α} {v : α} {a n : Nat} {f : α → Except Cause State}
    (hx : ∀ g, s.run (x >>= g) = if a + n ≤ s.build.dmemBytes then s.run (g v) else raised .daddr s)
    (h : ChecksInOrder s none es (s.run (f v))) : ChecksInOrder s (some (a, n)) es (s.run (x >>= f)) := by
  rw [hx]
  split
  · next hin =>
    exact ⟨h.daddr.trans (by simp [hin]), fun _ => h.uninit (by simp)⟩
  · next hout =>
    exact ⟨iff_of_true rfl (by simp [hout]), fun hin => absurd (hin _ rfl) hout⟩

end ChecksInOrder

/-- Every command checks its DMEM access, then its sources in slot order, then its contract. The cases go by how many reads
and contract checks a command makes before it completes. -/
theorem exec_checksInOrder (i : Instr) {s : State} (hs : s.fault = false) :
    ChecksInOrder s (dataAccess i) (sources i) (exec i s) := by
  cases i with
  | nop | halt | jmp | ldlc | cldi | fldi | sldi | aid | agen | pid | pgen => exact .done hs
  | cnot | fmov | fnorm | fnormw | smov | sred | agetx | agety | aisid | aonc | amov | pa2p | ptoa | pisid | pmov =>
    exact .read (.done hs)
  | loop => exact .read (.done hs (by split <;> rfl))
  | cand | cor | cxor | sadd | smulw | seq | slt | aeq => exact .read (.read (.done hs))
  | fsel | ssel | asel | psel => exact .read (.read (.read (.done hs)))
  | fmuls | fneg | fsqr | fisz | fisodd | finv | fsqrt | pdbl => exact .read (.contract (.done hs))
  | fadd | psmul => exact .read (.read (.contract (.done hs)))
  | fmul | feq | amk | padd | pmadd => exact .read (.read (.contract (.contract (.done hs))))
  | fldb d a addr => exact .access (run_loadField s addr) (.done hs)
  | fldbu d addr => exact .access (run_loadField s addr) (.contract (.done hs))
  | sldb d a addr => exact .access (run_loadScalar s addr) (.done hs)
  | wldb d addr => exact .access (run_loadWide s addr) (.done hs)
  | fstb a addr => exact .access (run_checkRange s (dataAddr addr) 28) (.read (.contract (.done hs (by simp))))
  | sstb a addr => exact .access (run_checkRange s (dataAddr addr) 32) (.read (.done hs (by simp)))
  | wstb a addr => exact .access (run_checkRange s (dataAddr addr) 64) (.read (.done hs (by simp)))

/-- Settles O11: once the access is in range, the VALID bits of the sources are tested before anything else. -/
theorem uninitializedSourceFaults : Obligations.UninitializedSourceFaults := fun i _ hin hs =>
  (exec_checksInOrder i hs).uninit hin

/-- Settles O12: the range check stands before every read. -/
theorem dataRangeIsCheckedFirst : Obligations.DataRangeIsCheckedFirst := fun i _ hs => (exec_checksInOrder i hs).daddr

/-! ### The magnitude and normalization contracts (R346, R347) -/

/-- A command with one check left takes its exception exactly where the check fails. -/
theorem last_check_iff {c : Prop} [Decidable c] {e : Cause} (he : e.ofCommand) {s t : State} (hs : s.fault = false)
    (ht : t.fault = s.fault := by rfl) : (if c then .next t else raised e s) = .next (faulted s e.code) ↔ ¬c :=
  (guard_eq_faulted he).trans (or_iff_left (next_ne_faulted hs ht _))

/-- A command with two checks left, of one contract, takes its exception exactly where one of them fails. -/
theorem last_checks_iff {c c' : Prop} [Decidable c] [Decidable c'] {e : Cause} (he : e.ofCommand) {s t : State}
    (hs : s.fault = false) (ht : t.fault = s.fault := by rfl) :
    (if c then if c' then .next t else raised e s else raised e s) = .next (faulted s e.code) ↔ ¬c ∨ ¬c' :=
  (guard_eq_faulted he).trans (or_congr_right (last_check_iff he hs ht))

/-- The magnitude check of a command whose sources are VALID: E_MAG exactly where the bound is exceeded (R346). -/
theorem mag_check_iff {v bound : Nat} {r : StepResult} {s t : State} (hs : s.fault = false)
    (hr : r = if v ≤ bound then .next t else raised .mag s) (ht : t.fault = s.fault := by rfl) :
    r = .next (faulted s 5) ↔ bound < v :=
  hr.congr_left.trans ((last_check_iff (e := .mag) (by decide) hs ht).trans Nat.not_le)

/-- Settles O13: with VALID sources each command has only its magnitude checks left. -/
theorem magnitudeContractsFault : Obligations.MagnitudeContractsFault := by
  intro s d a b c k m hs ha
  refine ⟨fun hb => ⟨?fadd, ?fmul⟩, ?fmuls, ?fneg, ?fsqr, ?finv, ?fsqrt⟩
  case fadd => exact mag_check_iff hs ((execFadd_eq s d a b).trans ((if_pos ha).trans (if_pos hb)))
  case fmul =>
    have heq := (execFmul_eq s d a b).trans ((if_pos ha).trans (if_pos hb))
    exact heq.congr_left.trans ((last_checks_iff (e := .mag) (by decide) hs).trans (or_congr Nat.not_le Nat.not_le))
  case fmuls => exact mag_check_iff hs ((execFmuls_eq s d a k).trans (if_pos ha))
  case fneg => exact mag_check_iff hs ((execFneg_eq s d a m).trans (if_pos ha))
  case fsqr => exact mag_check_iff hs ((execFsqr_eq s d a).trans (if_pos ha))
  case finv => exact mag_check_iff hs ((execFinv_eq s d a).trans (if_pos ha))
  case fsqrt => exact mag_check_iff hs ((execFsqrt_eq s d a c).trans (if_pos ha))

/-- The normalization check of a command whose source is VALID: E_NORM exactly where norm is 0 (R347). -/
theorem norm_check_iff {n : Bool} {r : StepResult} {s t : State} (hs : s.fault = false)
    (hr : r = if n = true then .next t else raised .norm s) (ht : t.fault = s.fault := by rfl) :
    r = .next (faulted s 6) ↔ n = false :=
  hr.congr_left.trans ((last_check_iff (e := .norm) (by decide) hs ht).trans Bool.eq_false_iff.symm)

/-- The normalization checks of a command with two VALID sources (R347). -/
theorem norm_checks_iff {n n' : Bool} {r : StepResult} {s t : State} (hs : s.fault = false)
    (hr : r = if n = true then if n' = true then .next t else raised .norm s else raised .norm s)
    (ht : t.fault = s.fault := by rfl) : r = .next (faulted s 6) ↔ n = false ∨ n' = false :=
  hr.congr_left.trans ((last_checks_iff (e := .norm) (by decide) hs ht).trans
    (or_congr Bool.eq_false_iff.symm Bool.eq_false_iff.symm))

/-- Settles O14: with VALID sources and the access in range each command has only its normalization checks left; FLDBU's is
of the encoding itself. -/
theorem normalizationContractsFault : Obligations.NormalizationContractsFault := by
  intro s d a b addr hs
  refine ⟨fun ha => ⟨fun hin => ?fstb, ?fisz, ?fisodd, fun hb => ⟨?feq, ?amk⟩⟩, fun hin => ?fldbu⟩
  case fstb => exact norm_check_iff hs ((execFstb_eq s a addr).trans ((if_pos hin).trans (if_pos ha))) (by simp)
  case fisz => exact norm_check_iff hs ((execFisz_eq s d a).trans (if_pos ha))
  case fisodd => exact norm_check_iff hs ((execFisodd_eq s d a).trans (if_pos ha))
  case feq => exact norm_checks_iff hs ((execFeq_eq s d a b).trans ((if_pos ha).trans (if_pos hb)))
  case amk => exact norm_checks_iff hs ((execAmk_eq s d a b).trans ((if_pos ha).trans (if_pos hb)))
  case fldbu =>
    have heq := (execFldbu_eq s d addr).trans (if_pos hin)
    rw [beInt_readBytes] at heq
    exact heq.congr_left.trans ((last_check_iff (e := .norm) (by decide) hs).trans Nat.not_lt)

end Sys2Proof.Machine
end

section
/-! PROOFS. Fault entry and the turns around a run (60_exceptions.md R342, R343, R350, R351, R371, R381). -/

namespace Sys2Proof.Machine

open Claims (coreMoves atCommand faulted)

/-! ### The fetch and the decoder (R342, R343) -/

theorem State.fetch_beyond {s : State} (h : s.build.imemWords ≤ s.pc.toNat) : s.fetch = .error .fetch := if_pos h

theorem decodeOrIllegal_of_illegal {w : Word} (h : ∀ i, decode w ≠ .ok i) : decodeOrIllegal w = .error .illegal := by
  unfold decodeOrIllegal
  split
  · next i hi => exact absurd hi (h i)
  · rfl

/-- Settles O7: a failed fetch and an illegal word are taken from the state in which the command would have run. -/
theorem fetchFaultsAndIllegalWordsAreTaken : Obligations.FetchFaultsAndIllegalWordsAreTaken := by
  intro s hb hm
  rw [step_of_busy hb hm]
  refine ⟨fun hpc => ?_, fun hpc hill => ?_⟩
  · simp only [State.runCommand, State.fetch_beyond (s := atCommand s) hpc]
    rfl
  · simp only [State.runCommand, State.fetch_inside (s := atCommand s) hpc,
      decodeOrIllegal_of_illegal (w := (atCommand s).imemWord s.pc.toNat) hill]
    rfl

/-! ### Fault entry (R350) -/

/-- The codes of the exceptions a command raises itself (R340). -/
theorem Cause.code_of_ofCommand {e : Cause} (he : e.ofCommand) : e.code ∈ ([3, 4, 5, 6, 7] : List (BitVec 8)) := by
  obtain ⟨hill, hfetch⟩ := he
  cases e with
  | illegal => exact absurd rfl hill
  | fetch => exact absurd rfl hfetch
  | _ => decide

theorem Cause.code_mem (e : Cause) : e.code ∈ ([1, 2, 3, 4, 5, 6, 7] : List (BitVec 8)) := by cases e <;> decide

theorem Cause.code_eq_two {e : Cause} : e.code = 2 ↔ e = .fetch := by cases e <;> decide

/-- A turn of the running core that newly sets FAULT took an exception and did nothing else (R350). -/
theorem CoreTurn.eq_takeException {s t : State} (h : CoreTurn s t) (h0 : s.fault = false) (h1 : t.fault = true) :
    ∃ e, t = takeException e s.noteReached := by
  cases h with
  | idle => exact bit_absurd h0 h1
  | exception e => exact ⟨e, rfl⟩
  | command i _ _ hc => exact bit_absurd (hc.fault.trans (s.noteReached_fault.trans h0)) h1

/-- Settles O10: a completed command keeps FAULT, so a command that sets it took an exception. -/
theorem faultEntryIsPrecise : Obligations.FaultEntryIsPrecise := by
  refine ⟨fun i s t h h0 h1 => ?exec, fun s t _ hm h h0 h1 => ?step⟩
  case exec =>
    rcases exec_cases h with hc | ⟨e, he, rfl⟩
    · exact bit_absurd (hc.fault.trans h0) h1
    · exact ⟨e.code, Cause.code_of_ofCommand he, takeException_eq_faulted he s⟩
  case step =>
    have hturn : CoreTurn s.dropMove t := coreTurn_cases ((step_of_coreMoves hm).symm.trans h)
    obtain ⟨e, rfl⟩ := hturn.eq_takeException h0 h1
    rw [noteReached_dropMove]
    refine ⟨⟨e.code, e.code_mem, ?_⟩, fun hirq => ?_⟩
    · simp only [Cause.code_eq_two]
      rfl
    · simp [State.irq, hirq]

/-! ### The idle core and START (R351, R371, R381) -/

/-- Settles O8: an idle turn takes nothing but itself off the script, and no step but START sets BUSY. -/
theorem idleCoreWaitsForTheHost : Obligations.IdleCoreWaitsForTheHost := fun s hb =>
  ⟨fun hm => (step_of_coreMoves hm).trans (State.coreTurn_idle (s := s.dropMove) hb),
   fun _ h => (step_statusChanges h).busySet hb⟩

/-- Settles O49: the write is accepted, and of CTRL's bits only START and IRQ_EN take effect. -/
theorem startBeginsARun : Obligations.StartBeginsARun := by
  intro s d rest hm hb h0 h2
  rw [step_ctrlWrite hm, writeCtrl_start (s := s.dropMove) h2 h0 hb, dropMove_of_cons hm]
  rfl

end Sys2Proof.Machine
end
